-- ==== Sys2Proof/Word.lean ====
section
/-! DEFINITION. The widths of the values ADS1261-FE handles as bits (00_scope.md R6, R7). -/

namespace Sys2Proof

/-- A byte: one exchange on the serial bus, one device register, one packet byte. -/
abbrev Byte := BitVec 8

/-- A command word of the host port (30_encoding.md R81). -/
abbrev CmdWord := BitVec 16

/-- A device register address (20_memory.md R61). -/
abbrev RegAddr := BitVec 5

/-- A multiplexer input code (00_scope.md R5, `CHDESC`). -/
abbrev InputCode := BitVec 4

end Sys2Proof
end

