-- ==== Sys2Proof/Config.lean ====
section
/-! DEFINITION. The configuration record `CFG` of 00_scope.md R5: what an implementation fixes and
no operation changes, with the test configuration TESTCFG of 95_test_vectors.md. -/

namespace Sys2Proof

/-- `CONV_MODE` (00 R5, decision D45). -/
inductive ConvMode where
  | pulse
  | continuous
deriving DecidableEq, Repr

/-- `READY_METHOD`, and the method in force `METHOD` (42 R155). -/
inductive ReadyMethod where
  | lineEdge
  | lineLevel
  | statusBit
deriving DecidableEq, Repr

/-- `F_MUX = (addr, pos_shift, neg_shift)`, both fields four bits wide (10 R32). -/
structure MuxField where
  addr : RegAddr
  posShift : Nat
  negShift : Nat
deriving DecidableEq, Repr

/-- `F_GAIN`, `F_RATE`, `F_REF`: `(addr, mask, shift)` (10 R32). -/
structure RegField where
  addr : RegAddr
  mask : Byte
  shift : Nat
deriving DecidableEq, Repr

/-- The configuration record `CFG` (00 R5). The constraints on it are `Cfg.wf`. -/
structure Cfg where
  /-- `N`, the channel count. -/
  n : Nat
  /-- `CHDESC[i] = (pos, neg)`. -/
  chDesc : List (InputCode × InputCode)
  /-- `CONV_MODE`. -/
  convMode : ConvMode
  /-- `READY_METHOD`. -/
  readyMethod : ReadyMethod
  /-- `IRQ_OK`. -/
  irqOk : Bool
  /-- `READY_TIMEOUT`, in `ms_tick` events. -/
  readyTimeout : BitVec 16
  /-- `RESET_SETTLE`, in `ms_tick` events. -/
  resetSettle : BitVec 16
  /-- `W`, the moving-average length. -/
  w : Nat
  /-- `SCALE[i]`, signed, in units of 1/256 physical unit per normalized unit. -/
  scale : List (BitVec 32)
  /-- `OP_RESET`. -/
  opReset : Byte
  /-- `OP_START`. -/
  opStart : Byte
  /-- `OP_STOP`. -/
  opStop : Byte
  /-- `OP_RDATA`. -/
  opRdata : Byte
  /-- `OP_RREG`. -/
  opRreg : Byte
  /-- `OP_WREG`. -/
  opWreg : Byte
  /-- `REG_LEGAL` (the addresses listed) with `REG_DEFAULT[a]` (the byte beside each). -/
  regMap : List (RegAddr × Byte)
  /-- `ADDR_STATUS`. -/
  addrStatus : RegAddr
  /-- `STATUS_DRDY_MASK`. -/
  statusDrdyMask : Byte
  /-- `F_MUX`. -/
  fMux : MuxField
  /-- `F_GAIN`. -/
  fGain : RegField
  /-- `F_RATE`. -/
  fRate : RegField
  /-- `F_REF`. -/
  fRef : RegField
  /-- `MUX_LEGAL`. -/
  muxLegal : List InputCode
  /-- `GAIN_LEGAL`. -/
  gainLegal : List Byte
  /-- `RATE_LEGAL`. -/
  rateLegal : List Byte
  /-- `REF_LEGAL`. -/
  refLegal : List Byte
  /-- `RDATA_DUMMY`. -/
  rdataDummy : Nat
  /-- `TX_FILL`. -/
  txFill : Byte
  /-- `PKT_LE`. -/
  pktLe : Bool
deriving DecidableEq, Repr

/-- `FS`, the full-scale constant 2^23 - 1 (00 R5). -/
def fullScale : Int := 8388607

/-- `DEN = FS * 2^SCALE_FRAC`, the denominator of `PHYS` (43 R180). -/
def physDen : Int := 2147483392

/-- `REG_LEGAL` as a list of addresses. -/
def Cfg.regAddrs (c : Cfg) : List RegAddr := c.regMap.map Prod.fst

/-- `a in REG_LEGAL` (20 R61). -/
def Cfg.regLegal (c : Cfg) (a : RegAddr) : Bool := c.regAddrs.contains a

/-- `REG_DEFAULT[a]`, 0 for an address outside `REG_LEGAL`, which no rule reads. -/
def Cfg.regDefault (c : Cfg) (a : Nat) : Byte :=
  match c.regMap.find? (fun p => p.1.toNat == a) with
  | some p => p.2
  | none => 0

/-- TESTCFG of 95_test_vectors.md with `SCALE[i] = DEN` for every channel (43 R183: one count is one
unit, "which the test vectors use"). PRESUMED: the opcode, register and field values are marked by
the spec as general knowledge (93 U1 to U5, G2, G3). See log 3. -/
def Cfg.test : Cfg where
  n := 4
  chDesc := [(1, 2), (3, 4), (5, 6), (7, 8)]
  convMode := .pulse
  readyMethod := .lineEdge
  irqOk := true
  readyTimeout := 100
  resetSettle := 10
  w := 5
  scale := List.replicate 4 2147483392
  opReset := 0x06
  opStart := 0x08
  opStop := 0x0A
  opRdata := 0x12
  opRreg := 0x20
  opWreg := 0x40
  regMap :=
    [(0x00, 0x80), (0x01, 0x01), (0x02, 0x24), (0x03, 0x01), (0x04, 0x00), (0x05, 0x00), (0x06, 0x05),
     (0x07, 0x00), (0x08, 0x00), (0x09, 0x00), (0x0A, 0x00), (0x0B, 0x00), (0x0C, 0x40), (0x0D, 0xFF),
     (0x0E, 0x00), (0x0F, 0x00), (0x10, 0x00), (0x11, 0xFF), (0x12, 0x00)]
  addrStatus := 0x01
  statusDrdyMask := 0x04
  fMux := ⟨0x11, 4, 0⟩
  fGain := ⟨0x10, 0x07, 0⟩
  fRate := ⟨0x02, 0xF8, 3⟩
  fRef := ⟨0x06, 0x0F, 0⟩
  muxLegal := (List.range 16).map (BitVec.ofNat 4)
  gainLegal := (List.range 8).map (BitVec.ofNat 8)
  rateLegal := (List.range 17).map (BitVec.ofNat 8)
  refLegal := (List.range 16).map (BitVec.ofNat 8)
  rdataDummy := 0
  txFill := 0x00
  pktLe := true

end Sys2Proof
end

