-- ==== Sys2Proof/Syntax.lean ====
section
/-! DEFINITION. The twelve operations of spec/opcode_table.json and the assembler lines that name
them (30_encoding.md R81 to R84, R95, R96). -/

namespace Sys2Proof

/-- An operation, one constructor per row of the opcode table. Operands have exactly the width of
their field of the command word. -/
inductive Instr where
  /-- RESET: the RESET command to the device (40 R110). -/
  | reset
  /-- START: start a conversion (40 R111). -/
  | start
  /-- STOP: stop converting (40 R112). -/
  | stop
  /-- RDATA: read the conversion result (40 R113). -/
  | rdata
  /-- RREG a: read device register `a` (40 R114). -/
  | rreg (a : RegAddr)
  /-- WREG a, v: write byte `v` to device register `a` (40 R115). -/
  | wreg (a : RegAddr) (v : Byte)
  /-- SETMUX p, n: select the positive and negative input (41 R131). -/
  | setmux (pos neg : InputCode)
  /-- SETGAIN c: set the gain code (41 R132). -/
  | setgain (code : Byte)
  /-- SETRATE c: set the data-rate code (41 R133). -/
  | setrate (code : Byte)
  /-- SETREF c: set the reference source code (41 R134). -/
  | setref (code : Byte)
  /-- CYCLE: one acquisition cycle, calibration, framing and notify (42 R150). -/
  | cycle
  /-- TARE: take the current readings as the new zero (43 R187). -/
  | tare
deriving DecidableEq, Repr

/-- A line of the assembler syntax of 30 R95, operands as the numbers that were written. -/
inductive AsmLine where
  | reset | start | stop | rdata | cycle | tare
  | rreg (a : Nat)
  | wreg (a v : Nat)
  | setmux (p n : Nat)
  | setgain (c : Nat)
  | setrate (c : Nat)
  | setref (c : Nat)
deriving DecidableEq, Repr

/-- The call names of the source, each an alias of one operation (30 R96); `encodePacket` and
`notify` are steps of CYCLE and have no word of their own. -/
inductive SourceCall where
  | reset
  | readRegister (addr : RegAddr)
  | writeRegister (addr : RegAddr) (value : Byte)
  | startConversion
  | readConversionData
  | setMultiplexer (pos neg : InputCode)
  | setGain (code : Byte)
  | setDataRate (code : Byte)
  | setReferenceSource (code : Byte)
  | tare
deriving DecidableEq, Repr

end Sys2Proof
end

