-- ==== Sys2Proof/WellFormed.lean ====
section
/-! DEFINITION. Well-formedness: of a configuration (00_scope.md R5, 93_implementation_defined.md
U12: an ill-formed one is refused), of an operation's operands (20 R61, 41 R130) and of an assembler
line (30 R95). -/

namespace Sys2Proof

/-- The input codes of all channel descriptors, in order. -/
def Cfg.inputCodes (c : Cfg) : List InputCode := c.chDesc.flatMap fun p => [p.1, p.2]

/-- `N` is in range, and there is one descriptor and one scale per channel (00 R5). -/
def Cfg.channelsOk (c : Cfg) : Bool :=
  1 ≤ c.n && c.n ≤ 8 && c.chDesc.length == c.n && c.scale.length == c.n

/-- All 2N descriptor codes are pairwise distinct and each is in `MUX_LEGAL` (00 R5). -/
def Cfg.descriptorsOk (c : Cfg) : Bool :=
  decide c.inputCodes.Nodup && c.inputCodes.all c.muxLegal.contains

/-- 1 <= W <= 16 (00 R5). -/
def Cfg.windowOk (c : Cfg) : Bool := 1 ≤ c.w && c.w ≤ 16

/-- The four one-byte opcodes are pairwise distinct and distinct from every `OP_RREG or a` and
`OP_WREG or a`, whose low five bits are zero (00 R5); and no two opcodes collide, these two among them
(93 U12). -/
def Cfg.opcodesOk (c : Cfg) : Bool :=
  let single := [c.opReset, c.opStart, c.opStop, c.opRdata]
  c.opRreg.extractLsb' 0 5 == 0 && c.opWreg.extractLsb' 0 5 == 0 && c.opRreg != c.opWreg
    && decide single.Nodup
    && single.all fun b => b.extractLsb' 5 3 != c.opRreg.extractLsb' 5 3
      && b.extractLsb' 5 3 != c.opWreg.extractLsb' 5 3

/-- `REG_LEGAL` is a set, and holds the status address, whose mask is not zero (00 R5). -/
def Cfg.registersOk (c : Cfg) : Bool :=
  decide c.regAddrs.Nodup && c.regLegal c.addrStatus && c.statusDrdyMask != 0

/-- The two four-bit fields of the multiplexer register fill the byte, at a legal address (10 R32). -/
def Cfg.muxFieldOk (c : Cfg) : Bool :=
  c.regLegal c.fMux.addr
    && ((c.fMux.posShift == 4 && c.fMux.negShift == 0) || (c.fMux.posShift == 0 && c.fMux.negShift == 4))

/-- The mask of a field is a run of adjacent 1 bits from bit `shift`, its address is legal, and every
code of its legal set fits it (00 R5). -/
def Cfg.fieldOk (c : Cfg) (f : RegField) (legal : List Byte) : Bool :=
  c.regLegal f.addr
    && (List.range 8).any fun k =>
      f.shift + (k + 1) ≤ 8 && f.mask.toNat == (2 ^ (k + 1) - 1) * 2 ^ f.shift
        && legal.all fun code => code.toNat < 2 ^ (k + 1)

/-- The configuration meets every constraint of the table of 00 R5. -/
def Cfg.wf (c : Cfg) : Bool :=
  c.channelsOk && c.descriptorsOk && c.windowOk && c.opcodesOk && c.registersOk && c.muxFieldOk
    && c.fieldOk c.fGain c.gainLegal && c.fieldOk c.fRate c.rateLegal && c.fieldOk c.fRef c.refLegal
    && c.rdataDummy ≤ 2

/-- The operands of an operation pass its argument check (40 R108): an operation with illegal operands
decodes, and is answered InvalidArgument (30 R92). -/
def Instr.wf (c : Cfg) : Instr → Bool
  | .reset | .start | .stop | .rdata | .cycle | .tare => true
  | .rreg a => c.regLegal a
  | .wreg a _ => c.regLegal a
  | .setmux p n => c.muxLegal.contains p && c.muxLegal.contains n
  | .setgain code => c.gainLegal.contains code
  | .setrate code => c.rateLegal.contains code
  | .setref code => c.refLegal.contains code

/-- The operands of an assembler line are in the ranges an assembler accepts (30 R95). -/
def AsmLine.wf : AsmLine → Bool
  | .reset | .start | .stop | .rdata | .cycle | .tare => true
  | .rreg a => a < 32
  | .wreg a v => a < 32 && v < 256
  | .setmux p n => p < 16 && n < 16
  | .setgain c | .setrate c | .setref c => c < 256

end Sys2Proof
end

