-- ==== Sys2Proof/Decode.lean ====
section
/-! DEFINITION. The decoder of command words (30_encoding.md R81 to R85, R92, R97), total on every
word and rejecting by name, and the encoder and assembler beside it (R85, R95, R96). -/

namespace Sys2Proof

/-- Why a command word is illegal (30 R92). -/
inductive IllegalWord where
  /-- A field marked "must be 0" is not 0 (30 R85). -/
  | mustBeZero
  /-- A CFG sub-operation 4 to 31 (30 R83). -/
  | reservedCfg
  /-- A SYS sub-operation 2 to 31 (30 R84). -/
  | reservedSys
deriving DecidableEq, Repr

/-- `OP = w[15:13]` (30 R81). -/
def opField (w : CmdWord) : BitVec 3 := w.extractLsb' 13 3

/-- `A = w[12:8]` (30 R81). -/
def aField (w : CmdWord) : BitVec 5 := w.extractLsb' 8 5

/-- `D = w[7:0]` (30 R81). -/
def dField (w : CmdWord) : BitVec 8 := w.extractLsb' 0 8

/-- `i` when the fields that must be zero are, else the word is illegal (30 R85). -/
def whenZero (zero : Bool) (i : Instr) : Except IllegalWord Instr :=
  if zero then .ok i else .error .mustBeZero

/-- The CFG sub-operations (30 R83). -/
def decodeCfg (a : BitVec 5) (d : BitVec 8) : Except IllegalWord Instr :=
  if a = 0 then .ok (.setmux (d.extractLsb' 4 4) (d.extractLsb' 0 4))
  else if a = 1 then .ok (.setgain d)
  else if a = 2 then .ok (.setrate d)
  else if a = 3 then .ok (.setref d)
  else .error .reservedCfg

/-- The SYS sub-operations (30 R84). -/
def decodeSys (a : BitVec 5) (d : BitVec 8) : Except IllegalWord Instr :=
  if a = 0 then whenZero (d == 0) .cycle
  else if a = 1 then whenZero (d == 0) .tare
  else .error .reservedSys

/-- The decoding procedure of 30 R97. -/
def decode (w : CmdWord) : Except IllegalWord Instr :=
  let op := opField w
  let a := aField w
  let d := dField w
  if op = 0 then whenZero (a == 0 && d == 0) .reset
  else if op = 1 then whenZero (a == 0 && d == 0) .start
  else if op = 2 then whenZero (a == 0 && d == 0) .stop
  else if op = 3 then whenZero (a == 0 && d == 0) .rdata
  else if op = 4 then whenZero (d == 0) (.rreg a)
  else if op = 5 then .ok (.wreg a d)
  else if op = 6 then decodeCfg a d
  else decodeSys a d

/-- The operation a word stands for, none where it is illegal. -/
def decodeWord (w : CmdWord) : Option Instr :=
  match decode w with
  | .ok i => some i
  | .error _ => none

/-- The decoder on a row of spec/opcode_table.json: every row is one 16-bit word on the host port
(30 R81), whose bit 0 is the least significant bit of `w`. -/
def decodeTableWord (nbits w : Nat) : Option Instr :=
  decodeWord (BitVec.ofNat 16 (w % 2 ^ nbits))

/-- A command word from its three fields (30 R81). -/
def packWord (op : BitVec 3) (a : BitVec 5) (d : BitVec 8) : CmdWord := op ++ a ++ d

/-- The command word of an operation (30 R82 to R84, R95). -/
def encode : Instr → CmdWord
  | .reset => packWord 0 0 0
  | .start => packWord 1 0 0
  | .stop => packWord 2 0 0
  | .rdata => packWord 3 0 0
  | .rreg a => packWord 4 a 0
  | .wreg a v => packWord 5 a v
  | .setmux p n => packWord 6 0 (p ++ n)
  | .setgain code => packWord 6 1 code
  | .setrate code => packWord 6 2 code
  | .setref code => packWord 6 3 code
  | .cycle => packWord 7 0 0
  | .tare => packWord 7 1 0

/-- The word an assembler line stands for; a line with an operand out of range is refused (30 R95). -/
def assemble (l : AsmLine) : Option CmdWord :=
  if l.wf then
    some <| BitVec.ofNat 16 <| match l with
      | .reset => 0x0000
      | .start => 0x2000
      | .stop => 0x4000
      | .rdata => 0x6000
      | .rreg a => 0x8000 ||| (a <<< 8)
      | .wreg a v => 0xA000 ||| (a <<< 8) ||| v
      | .setmux p n => 0xC000 ||| (p <<< 4) ||| n
      | .setgain c => 0xC100 ||| c
      | .setrate c => 0xC200 ||| c
      | .setref c => 0xC300 ||| c
      | .cycle => 0xE000
      | .tare => 0xE100
  else none

/-- The operation each call name of the source stands for (30 R96). -/
def sourceCallInstr : SourceCall → Instr
  | .reset => .reset
  | .readRegister a => .rreg a
  | .writeRegister a v => .wreg a v
  | .startConversion => .start
  | .readConversionData => .rdata
  | .setMultiplexer p n => .setmux p n
  | .setGain c => .setgain c
  | .setDataRate c => .setrate c
  | .setReferenceSource c => .setref c
  | .tare => .tare

/-- The match value of an operation's row of the opcode table (30 R85). -/
def rowMatch : Instr → CmdWord
  | .reset => 0x0000
  | .start => 0x2000
  | .stop => 0x4000
  | .rdata => 0x6000
  | .rreg _ => 0x8000
  | .wreg _ _ => 0xA000
  | .setmux _ _ => 0xC000
  | .setgain _ => 0xC100
  | .setrate _ => 0xC200
  | .setref _ => 0xC300
  | .cycle => 0xE000
  | .tare => 0xE100

/-- The mask of an operation's row of the opcode table (30 R85). -/
def rowMask : Instr → CmdWord
  | .rreg _ => 0xE0FF
  | .wreg _ _ => 0xE000
  | .setmux _ _ | .setgain _ | .setrate _ | .setref _ => 0xFF00
  | .reset | .start | .stop | .rdata | .cycle | .tare => 0xFFFF

end Sys2Proof
end

