-- ==== Sys2Proof/Machine/State.lean ====
section
/-! DEFINITION. The state of ADS1261-FE (10_state.md), the environment's side of its ports, the
reasons a step can stop, and the state after reset. -/

namespace Sys2Proof.Machine

/-- The block has no traps and no halt: an error is a status code after which the engine carries on
(60 R230, 91 N45). So no step faults, and this type has no constructor. -/
inductive Fault where
deriving DecidableEq, Repr

/-- The reasons the model gives no next state. -/
inductive Refusal where
  /-- Raised by an arm of `exec` whose operation has no meaning yet. Safe: nothing is claimed of it.
  No arm of this model raises it. -/
  | notModelled (mnemonic : String)
  /-- Raised by `step` when the configuration breaks a constraint of 00 R5: "A configuration that
  breaks a constraint in the table is ill-formed and the model refuses it". Safe. -/
  | illFormedConfig
  /-- Raised by the event of the host presenting a word while one is outstanding, which the host
  agent does not do (10 R20, 93 U17: refuse). Safe. -/
  | hostWordOutstanding
  /-- Raised by `step` in a state the block never takes: an operation in progress whose command word
  is illegal (93 U13: refuse, log 15). Safe. -/
  | impossibleState
deriving DecidableEq, Repr

/-- `ENG`: no operation, one from the host port, or a CYCLE started by `tick` (10 R26). -/
inductive Eng where
  | idle
  | host
  | tick
deriving DecidableEq, Repr

/-- `FSM`: the state of the sampling cycle (10 R27). -/
inductive Fsm where
  | idle
  | selectChannel
  | start
  | awaitReady
  | read
  | cycleComplete
deriving DecidableEq, Repr

/-- The status and error codes (60 R220). -/
inductive Status where
  | ok
  | invalidArgument
  | transportFailure
  | timeout
  | notReady
  | sinkFailure
deriving DecidableEq, Repr

/-- Where in CYCLE_COMPLETE the engine is: which of its three steps comes next (42 R163), or that the
`SinkSend` has been made and waits for its answer (log 24). -/
inductive Phase where
  | calibrate
  | encode
  | notify
  | sending
deriving DecidableEq, Repr

/-- An event of the bus trace (00 R13). -/
inductive BusEvent where
  | sel
  | x (tx rx : Byte) (ok : Bool)
  | desel
deriving DecidableEq, Repr

/-- An event of the sink trace, `SEND(bytes, ok)` (00 R13). -/
structure SinkEvent where
  bytes : List Byte
  ok : Bool
deriving DecidableEq, Repr

/-- The transport's answer to one `Xfer` (10 R21). -/
structure Answer where
  ok : Bool
  rx : Byte
deriving DecidableEq, Repr

/-- A step of the environment: the seven events of 60 R228, the host presenting a word (10 R20), and
the reset input (10 R25). -/
inductive Event where
  | drdyChange (b : Bool)
  | msTick
  | tick
  | connect
  | disconnect
  | subscribe
  | unsubscribe
  | hostWord (w : CmdWord)
  | rst
deriving DecidableEq, Repr

/-- An event of the environment, due when the engine has taken `delay` more steps (40 R104: events
fall between any two steps of the engine). -/
structure Scheduled where
  delay : Nat
  event : Event
deriving DecidableEq, Repr

/-- A memory: the locations that do not hold their reset contents, addresses rising. -/
abbrev Memory := List Host.Cell

/-- The registers of one channel (10 R38 to R43). -/
structure Chan where
  /-- `RAW[i]`, s32 (R38). -/
  raw : BitVec 32
  /-- `TS[i]`, u32 (R39). -/
  ts : BitVec 32
  /-- `VALID[i]` (R40). -/
  valid : Bool
  /-- `ERR[i]` (R40). -/
  err : Status
  /-- `OFFSET[i]`, s32 (R41). -/
  offset : BitVec 32
  /-- `PHYS[i]`, s64 (R42). -/
  phys : BitVec 64
  /-- `RING[i][k]`, s64 each (R43). -/
  ring : List (BitVec 64)
  /-- `HEAD[i]`, u4 (R43). -/
  head : BitVec 4
  /-- `CNT[i]`, u5 (R43). -/
  cnt : BitVec 5
  /-- `SUM[i]`, s64 (R43). -/
  sum : BitVec 64
deriving DecidableEq, Repr

/-- A channel after reset, with a ring of `w` slots (10 R49). -/
def Chan.reset (w : Nat) : Chan where
  raw := 0
  ts := 0
  valid := false
  err := .ok
  offset := 0
  phys := 0
  ring := List.replicate w 0
  head := 0
  cnt := 0
  sum := 0

/-- The state of the block (10_state.md), what the spec implies of where the engine is inside a
command cycle (log 4), and the environment's side of the ports (logs 1, 2, 9, 18). -/
structure State where
  /-- The configuration `CFG` (00 R5): carried along, changed by nothing (log 3). -/
  cfg : Cfg
  /-- `ENG` (R26). -/
  eng : Eng
  /-- `CUR_W` (R26). -/
  curW : CmdWord
  /-- `FSM` (R27). -/
  fsm : Fsm
  /-- `CH` (R27). -/
  ch : BitVec 3
  /-- `BYTE_IDX` (R27). -/
  byteIdx : BitVec 3
  /-- `CS`, the output `sel` (R28). -/
  cs : Bool
  /-- `RES_STATUS` (R29). DESIGN CHOICE (log 11): the output `hres_status` is this register in every state,
  also where `hres_valid` is 0, for which R29 gives the output no value. -/
  resStatus : Status
  /-- `RES_DATA` (R29). DESIGN CHOICE (log 11): the output `hres_data` is this register in every state, as
  `hres_status` is. -/
  resData : BitVec 32
  /-- The output `hres_valid` (R20, log 11). -/
  hresValid : Bool
  /-- The input `hcmd_valid` (R20, log 9). -/
  hcmdValid : Bool
  /-- The input `hcmd_word` (R20, log 9). -/
  hcmdWord : CmdWord
  /-- `SHADOW` (R30), over `REG_DEFAULT` (log 14). -/
  shadow : Memory
  /-- `SETTLE_CNT` (R33). -/
  settleCnt : BitVec 16
  /-- `DRDY_SYNC` (R34). -/
  drdySync : Bool
  /-- `RDY_FLAG` (R34). -/
  rdyFlag : Bool
  /-- `TMO_CNT` (R35). -/
  tmoCnt : BitVec 16
  /-- `TICK_PEND` (R36). -/
  tickPend : Bool
  /-- `NOW` (R37). -/
  now : BitVec 32
  /-- The registers of channels 0 to N-1 (R38 to R43). -/
  chans : List Chan
  /-- `PKT` (R44), over zero bytes (log 14). -/
  pkt : Memory
  /-- `CONNECTED` (R45). -/
  connected : Bool
  /-- `NOTIFY_EN` (R45). -/
  notifyEn : Bool
  /-- `NTF_STATUS` (R46). -/
  ntfStatus : Status
  /-- `kept` of the command cycle in progress (40 R105, log 4). -/
  kept : List Byte
  /-- The last exchange of the command cycle in progress failed (40 R105, log 4). -/
  xferFailed : Bool
  /-- The byte of a status poll that has not been tested yet (42 R158, log 4). -/
  poll : Option Byte
  /-- The step of CYCLE_COMPLETE that comes next, or the unanswered `SinkSend` (42 R163, logs 4, 24). -/
  phase : Phase
  /-- The transport's answers to come (log 1). -/
  busAnswers : List Answer
  /-- The sink's answers to come (log 1). -/
  sinkAnswers : List Bool
  /-- The environment's events to come (log 2). -/
  sched : List Scheduled
  /-- The bus trace so far, oldest first (00 R13, log 18). -/
  busTrace : List BusEvent
  /-- The sink trace so far, oldest first (00 R13, log 18). -/
  sinkTrace : List SinkEvent
deriving DecidableEq, Repr

/-- The block with configuration `c` right after reset (10 R49, 70 R250), with an environment that has
nothing to say (logs 1, 2, 9). -/
def State.resetWith (c : Cfg) : State where
  cfg := c
  eng := .idle
  curW := 0
  fsm := .idle
  ch := 0
  byteIdx := 0
  cs := false
  resStatus := .ok
  resData := 0
  hresValid := false
  hcmdValid := false
  hcmdWord := 0
  shadow := []
  settleCnt := 0
  drdySync := false
  rdyFlag := false
  tmoCnt := 0
  tickPend := false
  now := 0
  chans := List.replicate c.n (Chan.reset c.w)
  pkt := []
  connected := false
  notifyEn := false
  ntfStatus := .ok
  kept := []
  xferFailed := false
  poll := none
  phase := .calibrate
  busAnswers := []
  sinkAnswers := []
  sched := []
  busTrace := []
  sinkTrace := []

/-- The machine right after reset, with TESTCFG (log 3). -/
def State.reset : State := State.resetWith Cfg.test

end Sys2Proof.Machine
end

