-- ==== Sys2Proof/Machine/Flags.lean ====
section
/-! DEFINITION. The encodings of the enumerated registers (10 R26, R27, 60 R220) and the status words
computed from flags: the valid mask and the data word of a host CYCLE (42 R163), `isSubscribed`
(44 R209). -/

namespace Sys2Proof.Machine

/-- The encoding of `ENG` (10 R26). -/
def engCode : Eng → BitVec 2
  | .idle => 0
  | .host => 1
  | .tick => 2

/-- The encoding of `FSM` (10 R27). -/
def fsmCode : Fsm → BitVec 3
  | .idle => 0
  | .selectChannel => 1
  | .start => 2
  | .awaitReady => 3
  | .read => 4
  | .cycleComplete => 5

/-- The 3-bit error codes (60 R220). -/
def statusCode : Status → BitVec 3
  | .ok => 0
  | .invalidArgument => 1
  | .transportFailure => 2
  | .timeout => 3
  | .notReady => 4
  | .sinkFailure => 5

/-- `isSubscribed()`: both flags are 1 (44 R209). -/
def State.subscribed (s : State) : Bool := s.connected && s.notifyEn

/-- The valid mask: bit `i` is `VALID[i]`, from the channel list, lowest channel first (42 R163). -/
def validMask : List Chan → Nat
  | [] => 0
  | c :: cs => c.valid.toNat + 2 * validMask cs

/-- The data word of a host CYCLE: `data[7:0]` the valid mask, `data[10:8] = NTF_STATUS`, the rest 0
(42 R163). -/
def State.cycleData (s : State) : BitVec 32 :=
  BitVec.ofNat 32 ((statusCode s.ntfStatus).toNat * 256 + validMask (s.chans.take s.cfg.n) % 256)

end Sys2Proof.Machine
end

