-- ==== Sys2Proof/Machine/Operands.lean ====
section
/-! DEFINITION. Operand forms and immediates (30_encoding.md R86 to R91), the wire frames (30 R86), the
sample decode (40 R116), the field insert (00 R12), and rounding and clamping (00 R10, R11). -/

namespace Sys2Proof.Machine

/-- `insert(b, mask, shift, code)`: replace the field under `mask`, keep every other bit (00 R12). -/
def insertField (b mask : Byte) (shift : Nat) (code : Byte) : Byte :=
  (b &&& ~~~mask) ||| ((code <<< shift) &&& mask)

/-- The SETMUX value `(pos << pos_shift) or (neg << neg_shift)` (30 R88). -/
def muxValue (f : MuxField) (pos neg : InputCode) : Byte :=
  (pos.setWidth 8 <<< f.posShift) ||| (neg.setWidth 8 <<< f.negShift)

/-- The first byte of RREG: `OP_RREG or a` (30 R87). -/
def rregByte (c : Cfg) (a : RegAddr) : Byte := c.opRreg ||| a.setWidth 8

/-- The first byte of WREG: `OP_WREG or a` (30 R87). -/
def wregByte (c : Cfg) (a : RegAddr) : Byte := c.opWreg ||| a.setWidth 8

/-- `Decode24`: the 24-bit value `b2 || b1 || b0`, sign-extended (40 R116, 30 R90). -/
def decode24 (b2 b1 b0 : Byte) : BitVec 32 := (b2 ++ b1 ++ b0).signExtend 32

/-- `Decode24` of the kept bytes of an RDATA frame; the frame keeps exactly three (40 R113). -/
def decodeKept : List Byte → BitVec 32
  | [b2, b1, b0] => decode24 b2 b1 b0
  | _ => 0

/-- A wire frame: the byte to send and whether the received byte is kept (40 R105). -/
abbrev Frame := List (Byte × Bool)

/-- `T(b)` (30 R86). -/
def frameSend (b : Byte) : Byte × Bool := (b, false)

/-- `Dmy` (30 R86). -/
def frameDummy (c : Cfg) : Byte × Bool := (c.txFill, false)

/-- `R` (30 R86). -/
def frameRecv (c : Cfg) : Byte × Bool := (c.txFill, true)

/-- `SEL T(OP_RESET) DESEL` (30 R86). -/
def resetFrame (c : Cfg) : Frame := [frameSend c.opReset]

/-- `SEL T(OP_START) DESEL` (30 R86). -/
def startFrame (c : Cfg) : Frame := [frameSend c.opStart]

/-- `SEL T(OP_STOP) DESEL` (30 R86). -/
def stopFrame (c : Cfg) : Frame := [frameSend c.opStop]

/-- `SEL T(OP_RDATA) Dmy*RDATA_DUMMY R R R DESEL` (30 R86). -/
def rdataFrame (c : Cfg) : Frame :=
  frameSend c.opRdata :: (List.replicate c.rdataDummy (frameDummy c) ++ List.replicate 3 (frameRecv c))

/-- `SEL T(OP_RREG or a) Dmy R DESEL` (30 R86). -/
def rregFrame (c : Cfg) (a : RegAddr) : Frame := [frameSend (rregByte c a), frameDummy c, frameRecv c]

/-- `SEL T(OP_WREG or a) T(v) DESEL` (30 R86). -/
def wregFrame (c : Cfg) (a : RegAddr) (v : Byte) : Frame := [frameSend (wregByte c a), frameSend v]

/-- `METHOD`, the ready method in force, with the fallback to the polled line (42 R155). -/
def readyMethodInForce (c : Cfg) : ReadyMethod :=
  match c.readyMethod with
  | .lineEdge => if c.irqOk then .lineEdge else .lineLevel
  | m => m

/-- `CHDESC[i]`. -/
def chanDesc (c : Cfg) (i : Nat) : InputCode × InputCode := c.chDesc.getD i (0, 0)

/-- `SCALE[i]` as the signed integer it is. -/
def chanScale (c : Cfg) (i : Nat) : Int := (c.scale.getD i 0).toInt

/-- `rha(n, d)`, round half away from zero, for `d > 0` (00 R10). -/
def rha (n d : Int) : Int :=
  if 0 ≤ n then (2 * n + d) / (2 * d) else -((2 * (-n) + d) / (2 * d))

/-- `clamp16(q)` (00 R11). -/
def clamp16 (q : Int) : Int :=
  if q < -32768 then -32768 else if 32767 < q then 32767 else q

end Sys2Proof.Machine
end

