-- ==== Sys2Proof/Machine/Ops.lean ====
section
/-! DEFINITION. The shared operations: memory, the bus primitives and the command cycle (00 R8, 40
R105), the response and the completion of an operation (40 R103), recording an error (60 R227; there
is no trap entry and no return, 60 R230, R231), and the loop that runs an operation's engine steps
until it ends, must wait, or the environment's turn comes (40 R104, log 2). -/

namespace Sys2Proof.Machine

/-! ## Memory -/

/-- The byte at `a`; an unlisted address reads as its reset contents `d a`. -/
def Memory.read (d : Nat → Byte) : Memory → Nat → Byte
  | [], a => d a
  | (b, v) :: m, a => if b = a then v else Memory.read d m a

/-- List `v` at `a`, keeping addresses rising. -/
def Memory.insert (a : Nat) (v : Byte) : Memory → Memory
  | [] => [(a, v)]
  | (b, u) :: m =>
    if a < b then (a, v) :: (b, u) :: m
    else if a = b then (a, v) :: m
    else (b, u) :: Memory.insert a v m

/-- Unlist `a`. -/
def Memory.erase (a : Nat) : Memory → Memory
  | [] => []
  | (b, u) :: m => if a = b then m else (b, u) :: Memory.erase a m

/-- Write `v` at `a`; writing the reset contents unlists the address. -/
def Memory.write (d : Nat → Byte) (m : Memory) (a : Nat) (v : Byte) : Memory :=
  if v = d a then Memory.erase a m else Memory.insert a v m

/-- The canonical form: addresses rise, and no listed byte is its reset contents. -/
def Memory.wf (d : Nat → Byte) : Memory → Bool
  | [] => true
  | (a, v) :: m => (v != d a) && m.all (fun c => a < c.1) && Memory.wf d m

/-- `SHADOW[a]` (10 R30). -/
def State.shadowAt (s : State) (a : RegAddr) : Byte := Memory.read s.cfg.regDefault s.shadow a.toNat

/-- `SHADOW[a] <- v` (10 R30). -/
def State.setShadow (s : State) (a : RegAddr) (v : Byte) : State :=
  { s with shadow := Memory.write s.cfg.regDefault s.shadow a.toNat v }

/-- The reset contents of `PKT`: zero bytes (10 R44). -/
def pktDefault (_ : Nat) : Byte := 0

/-- `PKT[j]` (10 R44). -/
def State.pktAt (s : State) (j : Nat) : Byte := Memory.read pktDefault s.pkt j

/-- The number of bytes of the packet, 2N + 2 (44 R201). -/
def State.pktLen (s : State) : Nat := 2 * s.cfg.n + 2

/-- `PKT[0 .. 2N+1]` (44 R204). -/
def State.packet (s : State) : List Byte := (List.range s.pktLen).map s.pktAt

/-! ## Channels -/

/-- The registers of channel `i` (out of range: log 20). -/
def State.chan (s : State) (i : Nat) : Chan := s.chans.getD i (Chan.reset s.cfg.w)

/-- Change the registers of channel `i` by `f`. -/
def State.modChan (s : State) (i : Nat) (f : Chan → Chan) : State :=
  { s with chans := s.chans.modify i f }

/-! ## The bus primitives (00 R8, 10 R21) -/

/-- `Select()`, with `BYTE_IDX <- 0` and `kept <- []` (40 R105). -/
def State.select (s : State) : State :=
  { s with cs := true, byteIdx := 0, kept := [], xferFailed := false, busTrace := s.busTrace ++ [.sel] }

/-- `Deselect()`; the command cycle is over, and its result has gone to the caller (40 R105). -/
def State.deselect (s : State) : State :=
  { s with cs := false, kept := [], xferFailed := false, busTrace := s.busTrace ++ [.desel] }

/-- `Xfer(tx)` answered by `ans`, the first of the transport's answers; the received byte is kept
when the frame says so and the exchange succeeded (40 R105, R106, log 21). -/
def State.xfer (s : State) (tx : Byte) (keep : Bool) (ans : Answer) : State :=
  { s with
    busAnswers := s.busAnswers.tail
    byteIdx := s.byteIdx + 1
    kept := if keep && ans.ok then s.kept ++ [ans.rx] else s.kept
    xferFailed := !ans.ok
    busTrace := s.busTrace ++ [.x tx ans.rx ans.ok] }

/-! ## Responses and errors -/

/-- `Respond(status, data)`: the result registers are written and `hres_valid` is driven; the host
then lowers `hcmd_valid` (10 R29, R20). DESIGN CHOICE: the outputs `hres_status` and `hres_data` have no
fields of their own; they are the result registers, which hold after the one step R29 drives them (log 11). -/
def State.respond (s : State) (status : Status) (data : BitVec 32) : State :=
  { s with resStatus := status, resData := data, hresValid := true, hcmdValid := false }

/-- Completion: respond unless the operation came from `tick`, and become idle, in one step (40 R103).
This is also where the error of a host operation is recorded (60 R227): nothing is saved and no
control is transferred (00 R9, 60 R230). An idle engine, for which no step asks, answers: log 16. -/
def State.complete (s : State) (status : Status) (data : BitVec 32) : State :=
  match s.eng with
  | .tick => { s with eng := .idle }
  | _ => { s.respond status data with eng := .idle }

/-! ## Engine steps -/

/-- What one turn of the engine on its operation comes to. -/
inductive EngineStep where
  /-- A step was taken and the operation is still in progress. -/
  | go (s : State)
  /-- The step that completes the operation was taken. -/
  | done (s : State)
  /-- No step is enabled: the engine waits for the environment (60 R235). -/
  | wait
deriving DecidableEq, Repr

/-- One engine step of a command cycle (40 R105). With `CS = 0` it is the `Select()`; with `CS = 1`
the exchange numbered `BYTE_IDX`, or, after the last exchange or a failed one, the `Deselect()`, in
whose step the caller's `finish` runs on the status and the kept bytes. An `Xfer` the transport has
not answered waits (93 U15). -/
def frameStep (frame : Frame) (finish : Status → List Byte → State → EngineStep) (s : State) : EngineStep :=
  if s.cs then
    if s.xferFailed then finish .transportFailure [] s.deselect
    else
      match frame[s.byteIdx.toNat]? with
      | none => finish .ok s.kept s.deselect
      | some (tx, keep) =>
        match s.busAnswers with
        | [] => .wait
        | ans :: _ => .go (s.xfer tx keep ans)
  else .go s.select

/-- The environment's turn has come: an event is due (40 R104, log 2). -/
def State.eventDue (s : State) : Bool :=
  match s.sched with
  | e :: _ => e.delay == 0
  | [] => false

/-- The schedule after one engine step: its first event is one step nearer (log 2). -/
def schedNearer : List Scheduled → List Scheduled
  | [] => []
  | e :: es => { e with delay := e.delay - 1 } :: es

/-- The schedule when the engine has no enabled step: its first event is the next thing to happen (60
R235, log 2). -/
def schedDue : List Scheduled → List Scheduled
  | [] => []
  | e :: es => { e with delay := 0 } :: es

/-- One engine step has passed. -/
def State.elapse (s : State) : State := { s with sched := schedNearer s.sched }

/-- The engine waits for the environment. -/
def State.hasten (s : State) : State := { s with sched := schedDue s.sched }

/-- Run the engine steps of an operation until it completes, must wait, or an event is due. At most
`fuel` steps are taken; the operation goes on from where it stands at the next step (log 19). -/
def drive (f : State → EngineStep) : Nat → State → State
  | 0, s => s
  | fuel + 1, s =>
    if s.eventDue then s
    else
      match f s with
      | .go t => drive f fuel t.elapse
      | .done t => t.elapse
      | .wait => s.hasten

/-- More engine steps than an operation can take before the answers in `busAnswers` are used up. -/
def State.fuel (s : State) : Nat := 16 * (s.busAnswers.length + 2)

/-- Run operation steps `f` from `s`: the block never traps, so there is always a next state. -/
def runOperation (f : State → EngineStep) (s : State) : Host.Outcome State Fault Refusal :=
  .next (drive f s.fuel s)

end Sys2Proof.Machine
end

