-- ==== Sys2Proof/Machine/Wire.lean ====
section
/-! DEFINITION. The six wire commands (40_wire_commands.md R109 to R116): the procedures `Do…`, one
meaning per command whoever asks for it, and the host operations of the same names. A procedure is
given as its engine steps; `k` is what the caller does with its result, in the step of the
`Deselect()`, or before any bus activity when an argument check fails (R108), which is then an engine
step of its own (DEDUCED, log 23). -/

namespace Sys2Proof.Machine

/-- Answer a host operation without data (40 R109, 10 R29). -/
def answer (status : Status) (s : State) : EngineStep := .done (s.complete status 0)

/-- Every shadow register back to its default, and the settle hold begun (40 R110). -/
def State.resetDevice (s : State) : State :=
  { s.cfg.regAddrs.foldl (fun t a => t.setShadow a (t.cfg.regDefault a.toNat)) s with
    settleCnt := s.cfg.resetSettle }

/-- `DoRESET()` (40 R110). -/
def doReset (k : Status → State → EngineStep) (s : State) : EngineStep :=
  frameStep (resetFrame s.cfg) (fun st _ t => k st (if st = .ok then t.resetDevice else t)) s

/-- `DoSTART()` (40 R111). -/
def doStart (k : Status → State → EngineStep) (s : State) : EngineStep :=
  frameStep (startFrame s.cfg) (fun st _ t => k st t) s

/-- `DoSTOP()` (40 R112). -/
def doStop (k : Status → State → EngineStep) (s : State) : EngineStep :=
  frameStep (stopFrame s.cfg) (fun st _ t => k st t) s

/-- `DoRDATA()` (40 R113): the sample is sign-extended, and is 0 when the status is not OK. -/
def doRdata (k : Status → BitVec 32 → State → EngineStep) (s : State) : EngineStep :=
  frameStep (rdataFrame s.cfg) (fun st kept t => k st (if st = .ok then decodeKept kept else 0) t) s

/-- `DoRREG(a)` (40 R114): the byte is 0 when the status is not OK. -/
def doRreg (a : RegAddr) (k : Status → Byte → State → EngineStep) (s : State) : EngineStep :=
  if s.cfg.regLegal a then
    frameStep (rregFrame s.cfg a) (fun st kept t => k st (if st = .ok then kept.headD 0 else 0) t) s
  else k .invalidArgument 0 s

/-- `DoWREG(a, v)` (40 R115). -/
def doWreg (a : RegAddr) (v : Byte) (k : Status → State → EngineStep) (s : State) : EngineStep :=
  if s.cfg.regLegal a then
    frameStep (wregFrame s.cfg a v) (fun st _ t => k st (if st = .ok then t.setShadow a v else t)) s
  else k .invalidArgument s

/-- RESET (40 R110). -/
def execReset (s : State) : Host.Outcome State Fault Refusal := runOperation (doReset answer) s

/-- START (40 R111): no flag is written, `RDY_FLAG` is not cleared. -/
def execStart (s : State) : Host.Outcome State Fault Refusal := runOperation (doStart answer) s

/-- STOP (40 R112). -/
def execStop (s : State) : Host.Outcome State Fault Refusal := runOperation (doStop answer) s

/-- RDATA (40 R113): answers the sample as its 32-bit pattern and writes no measurement register. -/
def execRdata (s : State) : Host.Outcome State Fault Refusal :=
  runOperation (doRdata fun st raw t => .done (t.complete st raw)) s

/-- RREG a (40 R114): answers the byte zero-extended and leaves `SHADOW` alone. -/
def execRreg (a : RegAddr) (s : State) : Host.Outcome State Fault Refusal :=
  runOperation (doRreg a fun st b t => .done (t.complete st (b.setWidth 32))) s

/-- WREG a, v (40 R115). -/
def execWreg (a : RegAddr) (v : Byte) (s : State) : Host.Outcome State Fault Refusal :=
  runOperation (doWreg a v answer) s

end Sys2Proof.Machine
end

