-- ==== Sys2Proof/Machine/Helpers.lean ====
section
/-! DEFINITION. The configuration helpers SETMUX, SETGAIN, SETRATE, SETREF (41_config_helpers.md R130 to
R134): a legality check, the register value from the operand and `SHADOW`, then `DoWREG`. -/

namespace Sys2Proof.Machine

/-- `DoSETMUX(pos, neg)` (41 R131). -/
def doSetmux (pos neg : InputCode) (k : Status → State → EngineStep) (s : State) : EngineStep :=
  if s.cfg.muxLegal.contains pos && s.cfg.muxLegal.contains neg then
    doWreg s.cfg.fMux.addr (muxValue s.cfg.fMux pos neg) k s
  else k .invalidArgument s

/-- The value a field helper writes: the field replaced, the other bits from `SHADOW` (30 R89). -/
def State.fieldValue (s : State) (f : RegField) (code : Byte) : Byte :=
  insertField (s.shadowAt f.addr) f.mask f.shift code

/-- The common shape of the three field helpers (41 R130). -/
def doSetField (f : RegField) (legal : List Byte) (code : Byte) (k : Status → State → EngineStep)
    (s : State) : EngineStep :=
  if legal.contains code then doWreg f.addr (s.fieldValue f code) k s else k .invalidArgument s

/-- SETMUX p, n (41 R131). -/
def execSetmux (pos neg : InputCode) (s : State) : Host.Outcome State Fault Refusal :=
  runOperation (doSetmux pos neg answer) s

/-- SETGAIN c (41 R132). -/
def execSetgain (code : Byte) (s : State) : Host.Outcome State Fault Refusal :=
  runOperation (doSetField s.cfg.fGain s.cfg.gainLegal code answer) s

/-- SETRATE c (41 R133). -/
def execSetrate (code : Byte) (s : State) : Host.Outcome State Fault Refusal :=
  runOperation (doSetField s.cfg.fRate s.cfg.rateLegal code answer) s

/-- SETREF c (41 R134). -/
def execSetref (code : Byte) (s : State) : Host.Outcome State Fault Refusal :=
  runOperation (doSetField s.cfg.fRef s.cfg.refLegal code answer) s

end Sys2Proof.Machine
end

