-- ==== Sys2Proof/Machine/Calibration.lean ====
section
/-! DEFINITION. Offset correction, scaling, the moving average and TARE (43_calibration.md R180 to
R192). Arithmetic is on integers and narrowed when a register is written; 43 R190 says the widths
suffice (log 12). -/

namespace Sys2Proof.Machine

/-- `RING[i][k]` (10 R43). -/
def Chan.slot (c : Chan) (k : Nat) : Int := (c.ring.getD k 0).toInt

/-- `diff_i = RAW[i] - OFFSET[i]` (43 R181). -/
def Chan.diff (c : Chan) : Int := c.raw.toInt - c.offset.toInt

/-- `RingInsert(i, x)` with `W = w` (43 R184). -/
def Chan.ringInsert (w : Nat) (x : BitVec 64) (c : Chan) : Chan :=
  let held :=
    if c.cnt.toNat < w then
      { c with sum := BitVec.ofInt 64 (c.sum.toInt + x.toInt), cnt := c.cnt + 1 }
    else { c with sum := BitVec.ofInt 64 (c.sum.toInt + x.toInt - c.slot c.head.toNat) }
  { held with
    ring := c.ring.set c.head.toNat x
    head := BitVec.ofNat 4 ((c.head.toNat + 1) % w) }

/-- The calibration of one channel: a channel with `VALID[i] = 0` is skipped (43 R186, R182). -/
def Chan.calibrate (w : Nat) (scale : Int) (c : Chan) : Chan :=
  if c.valid then
    let phys := BitVec.ofInt 64 (c.diff * scale)
    { c with phys := phys }.ringInsert w phys
  else c

/-- `Calibrate()`, one atomic step over the channels 0 to N-1 (43 R186). -/
def State.calibrate (s : State) : State :=
  { s with
    chans := s.chans.mapIdx fun i c => if i < s.cfg.n then c.calibrate s.cfg.w (chanScale s.cfg i) else c }

/-- `OFFSET[i] <- RAW[i]` for every channel, in one atomic step (43 R187). -/
def State.tareAll (s : State) : State :=
  { s with chans := s.chans.mapIdx fun i c => if i < s.cfg.n then { c with offset := c.raw } else c }

/-- TARE (43 R187): no bus activity, cannot fail. -/
def execTare (s : State) : Host.Outcome State Fault Refusal :=
  runOperation (fun t => .done (t.tareAll.complete .ok 0)) s

end Sys2Proof.Machine
end

