-- ==== Sys2Proof/Machine/Telemetry.lean ====
section
/-! DEFINITION. The telemetry packet encoder, the notify gate and the consumer's decode
(44_telemetry.md R200 to R213), and the view of a channel as a Measurement Record (10 R47). -/

namespace Sys2Proof.Machine

/-- `q_i`: ten times the smoothed physical value, rounded once; 0 while the buffer is empty (44 R200,
43 R185). -/
def Chan.scaledTenths (c : Chan) : Int :=
  if c.cnt = 0 then 0 else rha (10 * c.sum.toInt) (c.cnt.toNat * physDen)

/-- `v_i = clamp16(q_i)` (44 R200). -/
def Chan.packetValue (c : Chan) : Int := clamp16 c.scaledTenths

/-- `store16(o, f)`: both bytes of a field, by `PKT_LE` (30 R91). -/
def State.store16 (s : State) (o : Nat) (f : BitVec 16) : State :=
  let lo : Byte := f.extractLsb' 0 8
  let hi : Byte := f.extractLsb' 8 8
  let (b0, b1) := if s.cfg.pktLe then (lo, hi) else (hi, lo)
  { s with pkt := Memory.write pktDefault (Memory.write pktDefault s.pkt o b0) (o + 1) b1 }

/-- `Encode()`, one atomic step: the elapsed-time field, then one field per channel (44 R203, R202). -/
def State.encodePacket (s : State) : State :=
  (List.range s.cfg.n).foldl
    (fun t i => t.store16 (2 + 2 * i) (BitVec.ofInt 16 (s.chan i).packetValue))
    (s.store16 0 (s.now.setWidth 16))

/-- `SinkSend(PKT[0 .. 2N+1])` answered by `ok`, the first of the sink's answers, and the notify status
it leaves (44 R204). -/
def State.sinkSend (s : State) (ok : Bool) : State :=
  { s with
    sinkAnswers := s.sinkAnswers.tail
    sinkTrace := s.sinkTrace ++ [⟨s.packet, ok⟩]
    ntfStatus := if ok then .ok else .sinkFailure }

/-- A `SinkSend` that has been made: it holds for its answer, whatever becomes of the subscriber flags
meanwhile, and `k` runs in the step of the answer (10 R24, 44 R204, 93 U15). -/
def sinkAnswerStep (k : State → EngineStep) (s : State) : EngineStep :=
  match s.sinkAnswers with
  | [] => .wait
  | ok :: _ => k (s.sinkSend ok)

/-- `Notify()` (44 R204): one engine step, after which `k` runs in the same step. The two flags are read
once, here: a `SinkSend` with no answer yet counts as made, and `sinkAnswerStep` holds for the answer
(DEDUCED, log 24). -/
def notifyStep (k : State → EngineStep) (s : State) : EngineStep :=
  if s.subscribed then
    match s.sinkAnswers with
    | [] => .go { s with phase := .sending }
    | ok :: _ => k (s.sinkSend ok)
  else k { s with ntfStatus := .notReady }

/-! ## What a reader outside the block computes -/

/-- A 16-bit field read back from its two bytes, as an unsigned pattern (44 R213). -/
def consumerField (le : Bool) (b0 b1 : Byte) : BitVec 16 := if le then b1 ++ b0 else b0 ++ b1

/-- The consumer's decode of a packet: the elapsed milliseconds modulo 65536 (44 R213). -/
def consumerElapsed (le : Bool) (packet : List Byte) : Nat :=
  (consumerField le (packet.getD 0 0) (packet.getD 1 0)).toNat

/-- The consumer's decode of a packet: `v_i`, the force of channel `i` in tenths of a unit (44 R213). -/
def consumerValue (le : Bool) (packet : List Byte) (i : Nat) : Int :=
  (consumerField le (packet.getD (2 + 2 * i) 0) (packet.getD (3 + 2 * i) 0)).toInt

/-- The Measurement Record of a channel, a view of registers (10 R47): the normalized value is
`normNum / 8388607`, the physical value `physNum / 2147483392`. -/
structure MeasurementRecord where
  channel : Nat
  raw : Int
  normNum : Int
  physNum : Int
  timestamp : Nat
  valid : Bool
  err : Status
deriving DecidableEq, Repr

/-- The Measurement Record of channel `i` (10 R47). -/
def State.record (s : State) (i : Nat) : MeasurementRecord where
  channel := i
  raw := (s.chan i).raw.toInt
  normNum := (s.chan i).raw.toInt
  physNum := (s.chan i).phys.toInt
  timestamp := (s.chan i).ts.toNat
  valid := (s.chan i).valid
  err := (s.chan i).err

end Sys2Proof.Machine
end

