-- ==== Sys2Proof/Machine/Acquire.lean ====
section
/-! DEFINITION. The acquisition cycle CYCLE (42_acquisition.md R150 to R163): one engine step of it for
each state of `FSM`. -/

namespace Sys2Proof.Machine

/-- Start of a visit of channel `i`, in one step (42 R151). -/
def State.beginVisit (s : State) (i : Nat) : State :=
  { s.modChan i (fun c => { c with valid := false }) with fsm := .selectChannel, ch := BitVec.ofNat 3 i }

/-- The visit has ended: the next channel's visit begins, or CYCLE_COMPLETE is reached (42 R162, R163).
DEDUCED: in the same engine step as the end of the visit (log 5). -/
def State.advance (s : State) : State :=
  if s.ch.toNat + 1 < s.cfg.n then s.beginVisit (s.ch.toNat + 1)
  else { s with fsm := .cycleComplete, phase := .calibrate }

/-- End the visit with an error: `ERR[i] <- st`, `VALID[i]` stays 0, on with the next channel (42 R159,
R161). -/
def State.abortVisit (s : State) (st : Status) : State :=
  (s.modChan s.ch.toNat fun c => { c with err := st }).advance

/-- `RAW[i] <- raw; TS[i] <- NOW; VALID[i] <- 1; ERR[i] <- OK` (42 R160). -/
def State.capture (s : State) (raw : BitVec 32) : State :=
  s.modChan s.ch.toNat fun c => { c with raw := raw, ts := s.now, valid := true, err := .ok }

/-- Entry to AWAIT_READY (42 R154); which engine step it is in: log 22. -/
def State.enterAwait (s : State) : State :=
  { s with fsm := .awaitReady, tmoCnt := s.cfg.readyTimeout }

/-- SELECT_CHANNEL (42 R152): `RDY_FLAG` is cleared in the step of the `Deselect()`, and FSM is set in it
(DEDUCED, log 22). -/
def selectChannelStep (s : State) : EngineStep :=
  let (pos, neg) := chanDesc s.cfg s.ch.toNat
  doSetmux pos neg
    (fun st t => .go (if st = .ok then { t with rdyFlag := false, fsm := .start } else t.abortVisit st)) s

/-- START (42 R153): a no-op in continuous mode. DEDUCED (log 22): in pulse mode the entry to AWAIT_READY, with
its load of `TMO_CNT`, is in the step of the `Deselect()` that ends the START cycle; in continuous mode the
way through START is an engine step of its own, not part of the `Deselect()` step before it. -/
def startStep (s : State) : EngineStep :=
  match s.cfg.convMode with
  | .pulse => doStart (fun st t => .go (if st = .ok then t.enterAwait else t.abortVisit st)) s
  | .continuous => .go s.enterAwait

/-- What ends a wait that saw no readiness: the timeout, when `TMO_CNT = 0`; else `k` (42 R159). -/
def timeoutOr (k : EngineStep) (s : State) : EngineStep :=
  if s.tmoCnt = 0 then .go (s.abortVisit .timeout) else k

/-- AWAIT_READY with `METHOD = LINE_EDGE` (42 R156): ready wins over the timeout. -/
def awaitEdgeStep (s : State) : EngineStep :=
  if s.rdyFlag then .go { s with rdyFlag := false, fsm := .read } else timeoutOr .wait s

/-- AWAIT_READY with `METHOD = LINE_LEVEL` (42 R157). -/
def awaitLevelStep (s : State) : EngineStep :=
  if s.drdySync then .go { s with fsm := .read } else timeoutOr .wait s

/-- AWAIT_READY with `METHOD = STATUS_BIT` (42 R158): a whole RREG command cycle, then, as a step of
its own (log 6), the test of the byte it read. -/
def awaitStatusStep (s : State) : EngineStep :=
  match s.poll with
  | none =>
    doRreg s.cfg.addrStatus
      (fun st b t => .go (if st = .ok then { t with poll := some b } else t.abortVisit st)) s
  | some b =>
    let t := { s with poll := none }
    if b &&& s.cfg.statusDrdyMask ≠ 0 then .go { t with fsm := .read } else timeoutOr (.go t) t

/-- AWAIT_READY by the method in force (42 R155). -/
def awaitStep (s : State) : EngineStep :=
  match readyMethodInForce s.cfg with
  | .lineEdge => awaitEdgeStep s
  | .lineLevel => awaitLevelStep s
  | .statusBit => awaitStatusStep s

/-- READ (42 R160): the sample is captured in the step of the `Deselect()`. -/
def readStep (s : State) : EngineStep :=
  doRdata (fun st raw t => .go (if st = .ok then (t.capture raw).advance else t.abortVisit st)) s

/-- The end of a CYCLE: `FSM <- IDLE` and completion with the data word of 42 R163. -/
def State.finishCycle (s : State) : State :=
  { s with fsm := .idle, phase := .calibrate }.complete .ok s.cycleData

/-- CYCLE_COMPLETE (42 R163): the calibration step, the encode step, then the notify step, which also
completes the CYCLE (log 7); an unanswered `SinkSend` holds for its answer (log 24). -/
def completeStep (s : State) : EngineStep :=
  match s.phase with
  | .calibrate => .go { s.calibrate with phase := .encode }
  | .encode => .go { s.encodePacket with phase := .notify }
  | .notify => notifyStep (fun t => .done t.finishCycle) s
  | .sending => sinkAnswerStep (fun t => .done t.finishCycle) s

/-- One engine step of a CYCLE (42 R150). -/
def cycleStep (s : State) : EngineStep :=
  match s.fsm with
  | .idle => .go (s.beginVisit 0)
  | .selectChannel => selectChannelStep s
  | .start => startStep s
  | .awaitReady => awaitStep s
  | .read => readStep s
  | .cycleComplete => completeStep s

/-- CYCLE (42 R150): all channels in order, then calibration, framing and notify. -/
def execCycle (s : State) : Host.Outcome State Fault Refusal := runOperation cycleStep s

end Sys2Proof.Machine
end

