-- ==== Sys2Proof/Machine/Dispatch.lean ====
section
/-! DEFINITION. The meaning of every operation: one arm per constructor of `Instr`. -/

namespace Sys2Proof.Machine

/-- Run operation `i` from where `s` stands in it, until it completes, must wait, or an event of the
environment is due. -/
def exec (i : Instr) (s : State) : Host.Outcome State Fault Refusal :=
  match i with
  | .reset => Sys2Proof.Machine.execReset s
  | .start => Sys2Proof.Machine.execStart s
  | .stop => Sys2Proof.Machine.execStop s
  | .rdata => Sys2Proof.Machine.execRdata s
  | .rreg a => Sys2Proof.Machine.execRreg a s
  | .wreg a v => Sys2Proof.Machine.execWreg a v s
  | .setmux pos neg => Sys2Proof.Machine.execSetmux pos neg s
  | .setgain code => Sys2Proof.Machine.execSetgain code s
  | .setrate code => Sys2Proof.Machine.execSetrate code s
  | .setref code => Sys2Proof.Machine.execSetref code s
  | .cycle => Sys2Proof.Machine.execCycle s
  | .tare => Sys2Proof.Machine.execTare s

end Sys2Proof.Machine
end

