-- ==== Sys2Proof/Machine/Events.lean ====
section
/-! DEFINITION. The environment's steps (60 R228): the synchronizer and timer events (42 R164 to R166),
the subscriber events (44 R205 to R208), the host presenting a word (10 R20) and the reset input (10
R25), and the directives of the test programs (30 R95). -/

namespace Sys2Proof.Machine

/-- `DrdyChange(b)`: only an inactive-to-active change sets `RDY_FLAG` (42 R164). -/
def State.drdyChange (s : State) (b : Bool) : State :=
  { s with rdyFlag := if b && !s.drdySync then true else s.rdyFlag, drdySync := b }

/-- A down-counter that stops at 0 (60 R233). -/
def countDown (c : BitVec 16) : BitVec 16 := if c = 0 then 0 else c - 1

/-- `ms_tick` (42 R165). -/
def State.msTick (s : State) : State :=
  { s with now := s.now + 1, tmoCnt := countDown s.tmoCnt, settleCnt := countDown s.settleCnt }

/-- `tick` (42 R166). -/
def State.tick (s : State) : State := { s with tickPend := true }

/-- `connect` (44 R205). -/
def State.connect (s : State) : State := if s.connected then s else { s with connected := true }

/-- `disconnect` (44 R206). -/
def State.disconnect (s : State) : State := { s with connected := false, notifyEn := false }

/-- `subscribe` (44 R207). -/
def State.subscribe (s : State) : State := if s.connected then { s with notifyEn := true } else s

/-- `unsubscribe` (44 R208). -/
def State.unsubscribe (s : State) : State := { s with notifyEn := false }

/-- The host presents a word (10 R20). -/
def State.present (s : State) (w : CmdWord) : State := { s with hcmdValid := true, hcmdWord := w }

/-- `rst` (10 R25, R49): every register of the block takes its reset value and a raised `CS` falls; the
configuration, what the environment still holds and the traces stay (log 10). -/
def State.rst (s : State) : State :=
  { State.resetWith s.cfg with
    hcmdValid := s.hcmdValid
    hcmdWord := s.hcmdWord
    busAnswers := s.busAnswers
    sinkAnswers := s.sinkAnswers
    sched := s.sched
    busTrace := if s.cs then s.busTrace ++ [.desel] else s.busTrace
    sinkTrace := s.sinkTrace }

/-- One step of the environment, atomic (60 R228). -/
def applyEvent (e : Event) (s : State) : Host.Outcome State Fault Refusal :=
  match e with
  | .drdyChange b => .next (s.drdyChange b)
  | .msTick => .next s.msTick
  | .tick => .next s.tick
  | .connect => .next s.connect
  | .disconnect => .next s.disconnect
  | .subscribe => .next s.subscribe
  | .unsubscribe => .next s.unsubscribe
  | .hostWord w => if s.hcmdValid then .refused .hostWordOutstanding else .next (s.present w)
  | .rst => .next s.rst

/-- A directive of the test programs (30 R95), other than `.bus`, which is `State.busAnswers`. -/
inductive Directive where
  | tick
  | ms (k : Nat)
  | drdy (b : Bool)
  | connect
  | disconnect
  | subscribe
  | unsubscribe
deriving DecidableEq, Repr

/-- The events a directive stands for (30 R95). DESIGN CHOICE (log 25): every delay is 0, so no engine step
falls between a directive and what comes before it, nor between the `k` events of `.ms k`; 30 R95 does not
say, and 40 R104 would let steps fall there. -/
def directiveEvents : Directive → List Scheduled
  | .tick => [⟨0, .tick⟩]
  | .ms k => List.replicate k ⟨0, .msTick⟩
  | .drdy b => [⟨0, .drdyChange b⟩]
  | .connect => [⟨0, .connect⟩]
  | .disconnect => [⟨0, .disconnect⟩]
  | .subscribe => [⟨0, .subscribe⟩]
  | .unsubscribe => [⟨0, .unsubscribe⟩]

end Sys2Proof.Machine
end

