-- ==== Sys2Proof/Machine/Engine.lean ====
section
/-! DEFINITION. Whose turn it is and what it does: the environment's due event, or the engine, which
accepts an operation when idle (40 R101, R102) and goes on with the one in progress otherwise (40
R100). -/

namespace Sys2Proof.Machine

/-- `hres_valid` is driven for one step (10 R20, log 11). -/
def State.lowerHres (s : State) : State := { s with hresValid := false }

/-- Acceptance of the pending tick: its step (40 R101). -/
def State.acceptTick (s : State) : State :=
  { s with tickPend := false, eng := .tick, curW := encode .cycle }.elapse

/-- Acceptance of the host word: its step (40 R101). -/
def State.acceptHost (s : State) : State := { s with eng := .host, curW := s.hcmdWord }

/-- The host word is accepted; an illegal one completes at once with InvalidArgument, a legal one
begins its operation (40 R101, 30 R92). DEDUCED: an operand check that fails (40 R108) is an engine step
of the operation, after acceptance (log 23). -/
def runHostWord (s : State) : Host.Outcome State Fault Refusal :=
  match decodeWord s.hcmdWord with
  | some i => exec i s.acceptHost.elapse
  | none => .next (s.acceptHost.complete .invalidArgument 0).elapse

/-- An idle engine: the settle hold, then the pending tick, then the host word; with none it waits
(40 R101, R102). -/
def runIdle (s : State) : Host.Outcome State Fault Refusal :=
  if s.settleCnt ≠ 0 then .next s.hasten
  else if s.tickPend then exec .cycle s.acceptTick
  else if s.hcmdValid then runHostWord s
  else .next s.hasten

/-- A busy engine goes on with the operation in `CUR_W` (40 R100, 20 R77). -/
def runBusy (s : State) : Host.Outcome State Fault Refusal :=
  match decodeWord s.curW with
  | some i => exec i s
  | none => .refused .impossibleState

/-- The engine's turn. -/
def runEngine (s : State) : Host.Outcome State Fault Refusal :=
  match s.eng with
  | .idle => runIdle s
  | .host => runBusy s
  | .tick => runBusy s

/-- One step of a block with a well-formed configuration: the due event if there is one, else the
engine's turn (40 R104). -/
def runTurn (s : State) : Host.Outcome State Fault Refusal :=
  match s.sched with
  | ⟨0, e⟩ :: es => applyEvent e { s with sched := es }
  | _ => runEngine s

/-- The engine idle and unheld with word `w` on the host port, and no event before its acceptance. -/
def State.offerWord (s : State) (w : CmdWord) : State :=
  { s with
    eng := .idle
    fsm := .idle
    cs := false
    kept := []
    xferFailed := false
    poll := none
    phase := .calibrate
    settleCnt := 0
    tickPend := false
    sched := []
    hcmdValid := true
    hcmdWord := w }

end Sys2Proof.Machine
end

