-- ==== Sys2Proof/Machine/Step.lean ====
section
/-! DEFINITION. One step of the machine, and the placing of an instruction where it is taken next. -/

namespace Sys2Proof.Machine

/-- One step: an ill-formed configuration is refused (00 R5, log 13); otherwise the environment's or the
engine's turn is taken (40 R104, log 2). -/
def step (s : State) : Host.Outcome State Fault Refusal :=
  if s.cfg.wf then runTurn s.lowerHres else .refused .illFormedConfig

/-- `s` with the instruction whose bits are `w` on the host port, so that the very next step accepts and
runs it: the block fetches no instruction from a memory (10 R27, 20 R77, log 17). -/
def State.withFetchWord (s : State) (nbits w : Nat) : State :=
  s.offerWord (BitVec.ofNat 16 (w % 2 ^ nbits))

end Sys2Proof.Machine
end

