-- ==== Sys2Proof/Safety.lean ====
section
/-! DEFINITION. What a safe state and a safe run are, in the terms the statements use: the invariants
of 10_state.md, the shape of the bus trace (40 R107), and the conditions under which an operation is
begun, is undisturbed by events, or has one engine step left before one. -/

namespace Sys2Proof.Machine

/-! ## Invariants -/

/-- `NOTIFY_EN = 1` implies `CONNECTED = 1` (10 R45). -/
def State.SubscriberInv (s : State) : Prop := s.notifyEn = true → s.connected = true

/-- Both memories are in canonical form and list only locations that exist (20 R61, R65). -/
structure State.MemoryInv (s : State) : Prop where
  shadowWf : Memory.wf s.cfg.regDefault s.shadow = true
  shadowLegal : ∀ c ∈ s.shadow, ∃ a ∈ s.cfg.regAddrs, a.toNat = c.1
  pktWf : Memory.wf pktDefault s.pkt = true
  pktInside : ∀ c ∈ s.pkt, c.1 < s.pktLen

/-- The values of the held slots of a ring buffer (43 R184). -/
def Chan.held (c : Chan) : List Int := (c.ring.take c.cnt.toNat).map BitVec.toInt

/-- The largest magnitude `PHYS[i]` can take, (2^24 - 1) * 2^31 (43 R190). -/
def physBound : Int := 36028794871480320

/-- The invariants of the registers of a channel, with `W = w` (10 R38, R41 to R43, 43 R184). -/
structure Chan.Inv (w : Nat) (c : Chan) : Prop where
  rawRange : -8388608 ≤ c.raw.toInt ∧ c.raw.toInt ≤ 8388607
  offsetRange : -8388608 ≤ c.offset.toInt ∧ c.offset.toInt ≤ 8388607
  physRange : |c.phys.toInt| ≤ physBound
  ringLength : c.ring.length = w
  slotRange : ∀ x ∈ c.ring, |x.toInt| ≤ physBound
  headRange : c.head.toNat < w
  cntRange : c.cnt.toNat ≤ w
  filling : c.cnt.toNat < w → c.head.toNat = c.cnt.toNat
  sumHeld : c.sum.toInt = c.held.sum

/-- Every channel meets its invariants, under a well-formed configuration. -/
structure State.ChannelInv (s : State) : Prop where
  cfgOk : s.cfg.wf = true
  count : s.chans.length = s.cfg.n
  each : ∀ c ∈ s.chans, c.Inv s.cfg.w

/-- The operation in progress has a command cycle where it stands: the only positions at which the
select boundary may be asserted (10 R28, 20 R71). -/
def State.inCommandCycle (s : State) : Bool :=
  match decodeWord s.curW with
  | none => false
  | some .tare => false
  | some .cycle =>
    match s.fsm with
    | .idle => false
    | .selectChannel => true
    | .start => s.cfg.convMode == .pulse
    | .awaitReady => readyMethodInForce s.cfg == .statusBit && s.poll == none
    | .read => true
    | .cycleComplete => false
  | some i => i.wf s.cfg

/-- The sequencing registers agree with each other (10 R26 to R28). -/
structure State.SequenceInv (s : State) : Prop where
  cfgOk : s.cfg.wf = true
  selectBusy : s.cs = true → s.eng ≠ .idle ∧ s.inCommandCycle = true
  released : s.cs = false → s.kept = [] ∧ s.xferFailed = false
  idleFsm : s.eng = .idle → s.fsm = .idle
  busyWord : s.eng ≠ .idle → (decodeWord s.curW).isSome = true
  tickWord : s.eng = .tick → s.curW = encode .cycle
  cycleWord : s.fsm ≠ .idle → s.curW = encode .cycle
  channelRange : s.fsm ≠ .idle → s.ch.toNat < s.cfg.n
  pollWhere : s.poll ≠ none →
    s.fsm = .awaitReady ∧ s.cs = false ∧ readyMethodInForce s.cfg = .statusBit

/-- Where a reader of the bus trace is: between command cycles, or inside one, after `count` exchanges
of which the last failed or not. -/
inductive BusPhase where
  | released
  | selected (failed : Bool) (count : Nat)
deriving DecidableEq, Repr

/-- One event of a well-bracketed bus trace (40 R107): `SEL X* DESEL` with at least one `X`, and only
the last may have `ok = 0`. -/
def busPhaseStep : BusPhase → BusEvent → Option BusPhase
  | .released, .sel => some (.selected false 0)
  | .selected false k, .x _ _ ok => some (.selected (!ok) (k + 1))
  | .selected _ (_ + 1), .desel => some .released
  | _, _ => none

/-- Where a bus trace leaves its reader, none if it is not a prefix of well-bracketed groups. -/
def busPhase (trace : List BusEvent) : Option BusPhase := trace.foldlM busPhaseStep .released

/-- The bus trace is a sequence of well-bracketed groups, the last one open exactly while `CS = 1`
(40 R107), in a run in which `rst` is not asserted (it may cut a group short, 93 U18). -/
structure State.TraceInv (s : State) : Prop where
  cfgOk : s.cfg.wf = true
  noRst : ∀ e ∈ s.sched, e.event ≠ .rst
  bracketed :
    busPhase s.busTrace = some (if s.cs then .selected s.xferFailed s.byteIdx.toNat else .released)

/-- The environment's next event is not the host presenting a word over an outstanding one (10 R20). -/
def State.hostKeepsWord (s : State) : Prop :=
  ∀ w es, s.sched = ⟨0, .hostWord w⟩ :: es → s.hcmdValid = false

/-! ## Where an operation stands -/

/-- A host operation has been accepted and has not touched the bus. -/
abbrev State.begun (s : State) : Prop := s.eng = .host ∧ s.cs = false

/-- No event is due within the next `k` engine steps. -/
def State.calm (k : Nat) (s : State) : Bool :=
  match s.sched with
  | [] => true
  | e :: _ => k ≤ e.delay

/-- The schedule `k` engine steps later. -/
def schedAfter (k : Nat) : List Scheduled → List Scheduled
  | [] => []
  | e :: es => { e with delay := e.delay - k } :: es

/-- `k` engine steps have passed for the environment's next event. -/
def State.elapseBy (k : Nat) (s : State) : State := { s with sched := schedAfter k s.sched }

/-- The environment's next event comes after exactly `k` engine steps. -/
abbrev State.eventAfter (k : Nat) (s : State) : Prop := s.sched.head?.map Scheduled.delay = some k

/-- The registers a completed host operation leaves: idle, and the response given (40 R103, 10 R29). -/
def State.answered (s : State) (st : Status) (d : BitVec 32) : State :=
  { s with
    eng := .idle
    resStatus := st
    resData := d
    hresValid := true
    hcmdValid := false }

/-- The exchanges of a frame as they show on the bus, one answer each (00 R13). -/
def exchanges (frame : Frame) (answers : List Answer) : List BusEvent :=
  (frame.zip answers).map fun p => .x p.1.1 p.2.rx p.2.ok

/-- The registers a command cycle leaves: `CS = 0`, `BYTE_IDX` the number of exchanges made, the answers
used up, the bracketed group on the trace (40 R105, R107). -/
def State.afterFrame (s : State) (frame : Frame) (answers : List Answer) : State :=
  { s with
    cs := false
    byteIdx := BitVec.ofNat 3 answers.length
    kept := []
    xferFailed := false
    busAnswers := s.busAnswers.drop answers.length
    busTrace := s.busTrace ++ .sel :: exchanges frame answers ++ [.desel]
    sched := schedAfter (answers.length + 2) s.sched }

/-- The bytes a frame keeps of the answers to its exchanges (40 R105). -/
def keptBytes (frame : Frame) (answers : List Answer) : List Byte :=
  ((frame.zip answers).filter fun p => p.1.2).map fun p => p.2.rx

/-- The frame a host operation other than CYCLE puts on the bus from `s`, none where it has none or its
arguments are refused (30 R86, 40 R108). -/
def hostFrame (s : State) (i : Instr) : Option Frame :=
  match i with
  | .reset => some (resetFrame s.cfg)
  | .start => some (startFrame s.cfg)
  | .stop => some (stopFrame s.cfg)
  | .rdata => some (rdataFrame s.cfg)
  | .rreg a => if i.wf s.cfg then some (rregFrame s.cfg a) else none
  | .wreg a v => if i.wf s.cfg then some (wregFrame s.cfg a v) else none
  | .setmux p n =>
    if i.wf s.cfg then some (wregFrame s.cfg s.cfg.fMux.addr (muxValue s.cfg.fMux p n)) else none
  | .setgain c =>
    if i.wf s.cfg then some (wregFrame s.cfg s.cfg.fGain.addr (s.fieldValue s.cfg.fGain c)) else none
  | .setrate c =>
    if i.wf s.cfg then some (wregFrame s.cfg s.cfg.fRate.addr (s.fieldValue s.cfg.fRate c)) else none
  | .setref c =>
    if i.wf s.cfg then some (wregFrame s.cfg s.cfg.fRef.addr (s.fieldValue s.cfg.fRef c)) else none
  | .cycle => none
  | .tare => none

/-- The number of exchanges of a successful visit by a line method (70 R268). -/
def visitExchanges (c : Cfg) : Nat :=
  2 + (match c.convMode with | .pulse => 1 | .continuous => 0) + (4 + c.rdataDummy)

end Sys2Proof.Machine
end

