-- ==== Sys2Proof/Certificates/Slice0/Obligations.lean ====
section
/-! DEFINITION. The statements for the provers. Every statement quantifies over the configuration (a field
of State), over the environment's answers and over the schedule of events, so none rests on a value that
log 1, log 2 or log 3 chose. Where one says what becomes of `sched` (how far the next event has come) or
that `hresValid` is lowered at the start of a step, that is the model's bookkeeping (logs 2 and 11), not a
clause of the rule it cites. -/

open Sys2Proof Sys2Proof.Machine

/-! ## Encoding -/

/-- Decoding the word of an operation gives it back, with every operand at every value (30 R85, R97). -/
def Obligations.DecodeInvertsEncode : Prop :=
  ∀ i : Instr, decodeWord (encode i) = some i

/-- Each legal word is the word of exactly the operation it decodes to (30 R92: the decoder is total, every
word is one of the twelve operations or illegal). -/
def Obligations.EncodeInvertsDecode : Prop :=
  ∀ (w : CmdWord) (i : Instr), decodeWord w = some i → encode i = w

/-- A word selects the row whose match and mask it meets, the rows are disjoint, and a word that meets none
is illegal (30 R85). -/
def Obligations.DecoderFollowsRowTable : Prop :=
  ∀ w : CmdWord,
    (∀ i, decodeWord w = some i → w &&& rowMask i = rowMatch i) ∧
    (∀ i, w &&& rowMask i = rowMatch i →
      ∃ j, decodeWord w = some j ∧ rowMatch j = rowMatch i ∧ rowMask j = rowMask i) ∧
    (∀ i j, w &&& rowMask i = rowMatch i → w &&& rowMask j = rowMatch j → rowMatch i = rowMatch j)

/-- The legality conditions of the decoding procedure (30 R97). -/
def Obligations.LegalWordConditions : Prop :=
  ∀ w : CmdWord,
    let op := (w.toNat / 2 ^ 13)
    let a := (w.toNat / 2 ^ 8) % 32
    let d := w.toNat % 256
    (decodeWord w).isSome = true ↔
      (op ≤ 3 ∧ a = 0 ∧ d = 0) ∨ (op = 4 ∧ d = 0) ∨ op = 5 ∨ (op = 6 ∧ a ≤ 3) ∨
        (op = 7 ∧ a ≤ 1 ∧ d = 0)

/-- Words of the decode table of 95_test_vectors.md 2.1, each written out. -/
def Obligations.SampleWordsDecode : Prop :=
  decodeWord 0x0000 = some .reset ∧ decodeWord 0x2000 = some .start ∧ decodeWord 0x4000 = some .stop ∧
  decodeWord 0x6000 = some .rdata ∧ decodeWord 0x8100 = some (.rreg 0x01) ∧
  decodeWord 0x9F00 = some (.rreg 0x1F) ∧ decodeWord 0xA311 = some (.wreg 0x03 0x11) ∧
  decodeWord 0xC034 = some (.setmux 3 4) ∧ decodeWord 0xC107 = some (.setgain 7) ∧
  decodeWord 0xC210 = some (.setrate 16) ∧ decodeWord 0xC30A = some (.setref 10) ∧
  decodeWord 0xE000 = some .cycle ∧ decodeWord 0xE100 = some .tare ∧
  decodeWord 0x8101 = none ∧ decodeWord 0xC400 = none ∧ decodeWord 0xE001 = none ∧ decodeWord 0xE200 = none

/-- The assembler accepts exactly the lines whose operands are in range, and then writes the operation's
command word (30 R95). -/
def Obligations.AssemblerWritesCommandWords : Prop :=
  (∀ l, (assemble l).isSome = l.wf) ∧
  (assemble .reset = some (encode .reset) ∧ assemble .start = some (encode .start) ∧
    assemble .stop = some (encode .stop) ∧ assemble .rdata = some (encode .rdata) ∧
    assemble .cycle = some (encode .cycle) ∧ assemble .tare = some (encode .tare)) ∧
  (∀ a : RegAddr, assemble (.rreg a.toNat) = some (encode (.rreg a))) ∧
  (∀ (a : RegAddr) (v : Byte), assemble (.wreg a.toNat v.toNat) = some (encode (.wreg a v))) ∧
  (∀ p n : InputCode, assemble (.setmux p.toNat n.toNat) = some (encode (.setmux p n))) ∧
  (∀ c : Byte, assemble (.setgain c.toNat) = some (encode (.setgain c)) ∧
    assemble (.setrate c.toNat) = some (encode (.setrate c)) ∧
    assemble (.setref c.toNat) = some (encode (.setref c)))

/-! ## Operand and number operations -/

/-- `Decode24` is sign extension from bit 23, total and injective (40 R116). -/
def Obligations.SampleDecodeSignExtends : Prop :=
  (∀ b2 b1 b0 : Byte,
    let u : Int := b2.toNat * 65536 + b1.toNat * 256 + b0.toNat
    (decode24 b2 b1 b0).toInt = if u ≥ 2 ^ 23 then u - 2 ^ 24 else u) ∧
  (∀ b2 b1 b0 c2 c1 c0 : Byte,
    decode24 b2 b1 b0 = decode24 c2 c1 c0 → b2 = c2 ∧ b1 = c1 ∧ b0 = c0)

/-- `rha(n, d)` is the integer nearest to n/d, ties going away from zero, by the formula given (00 R10), and
`clamp16` saturates to the signed 16-bit range and changes nothing inside it (00 R11). -/
def Obligations.RoundingAndClampingLaws : Prop :=
  (∀ n d : Int, 0 < d →
    2 * |n - d * rha n d| ≤ d ∧ (2 * |n - d * rha n d| = d → |n| < |d * rha n d|) ∧
    (0 ≤ n → rha n d = (2 * n + d) / (2 * d)) ∧ (n < 0 → rha n d = -((2 * (-n) + d) / (2 * d)))) ∧
  (∀ q : Int, (q < -32768 → clamp16 q = -32768) ∧ (32767 < q → clamp16 q = 32767) ∧
    (-32768 ≤ q → q ≤ 32767 → clamp16 q = q))

/-- `insert` replaces the field under the mask and keeps every other bit (00 R12). -/
def Obligations.FieldInsertKeepsOtherBits : Prop :=
  ∀ (b mask code : Byte) (shift k : Nat), k < 8 →
    (insertField b mask shift code).getLsbD k =
      if mask.getLsbD k then (decide (shift ≤ k) && code.getLsbD (k - shift)) else b.getLsbD k

/-- After the encode step the consumer reads back, for every channel, ten times the smoothed physical value,
rounded once and clamped, 0 for an empty buffer (44 R200, R201, R211, R213), and the low 16 bits of `NOW`
(44 R202, R203). -/
def Obligations.PacketReadsBackByConsumer : Prop :=
  ∀ s : State, s.cfg.n ≤ 8 → Memory.wf pktDefault s.pkt = true →
    consumerElapsed s.cfg.pktLe s.encodePacket.packet = s.now.toNat % 65536 ∧
    (∀ i, i < s.cfg.n →
      consumerValue s.cfg.pktLe s.encodePacket.packet i =
        clamp16 (if (s.chan i).cnt.toNat = 0 then 0
          else rha (10 * (s.chan i).sum.toInt) ((s.chan i).cnt.toNat * 2147483392)) ∧
      consumerValue s.cfg.pktLe s.encodePacket.packet i = (s.chan i).packetValue ∧
      -32768 ≤ (s.chan i).packetValue ∧ (s.chan i).packetValue ≤ 32767) ∧
    s.encodePacket.packet.length = 2 * s.cfg.n + 2

/-- The method in force is computed from configuration, with the fallback from the interrupt-driven to the
polled line, and no step changes it (42 R155). -/
def Obligations.ReadyMethodFallsBack : Prop :=
  (∀ c : Cfg,
    (c.readyMethod = .lineEdge → c.irqOk = true → readyMethodInForce c = .lineEdge) ∧
    (c.readyMethod = .lineEdge → c.irqOk = false → readyMethodInForce c = .lineLevel) ∧
    (c.readyMethod ≠ .lineEdge → readyMethodInForce c = c.readyMethod)) ∧
  (∀ s t : State, step s = .next t → readyMethodInForce t.cfg = readyMethodInForce s.cfg)

/-! ## The step -/

/-- A step runs the decoded operation: with no event due, the engine idle and unheld, no tick pending and
a legal word on the host port, the step is that operation's `exec` in the accepted state (40 R101). -/
def Obligations.StepRunsDecodedHostWord : Prop :=
  ∀ (s : State) (i : Instr), s.cfg.wf = true → s.eventDue = false → s.eng = .idle → s.settleCnt = 0 →
    s.tickPend = false → s.hcmdValid = true → decodeWord s.hcmdWord = some i →
    step s = exec i { s with
      hresValid := false, eng := .host, curW := s.hcmdWord, sched := schedNearer s.sched }

/-- A busy engine goes on with the operation in `CUR_W`, whatever is on the host port or pending (40 R100,
20 R77). -/
def Obligations.StepResumesOperation : Prop :=
  ∀ (s : State) (i : Instr), s.cfg.wf = true → s.eventDue = false → s.eng ≠ .idle →
    decodeWord s.curW = some i → step s = exec i { s with hresValid := false }

/-- Acceptance: enabled when idle and unheld with a tick or a word; the tick wins; an illegal word completes
at once with InvalidArgument; otherwise nothing is accepted (40 R101, R102). That an engine with nothing to
accept, which the spec calls one with no enabled step (60 R235), answers a next state with only the next event
due is the model's choice (DESIGN CHOICE, log 8). -/
def Obligations.AcceptanceOrder : Prop :=
  ∀ s : State, s.cfg.wf = true → s.eventDue = false → s.eng = .idle →
    (s.settleCnt = 0 → s.tickPend = true →
      step s = exec .cycle { s with
        hresValid := false, tickPend := false, eng := .tick, curW := 0xE000,
        sched := schedNearer s.sched }) ∧
    (s.settleCnt = 0 → s.tickPend = false → s.hcmdValid = true →
      (∀ i, decodeWord s.hcmdWord = some i →
        step s = exec i { s with
          hresValid := false, eng := .host, curW := s.hcmdWord, sched := schedNearer s.sched }) ∧
      (decodeWord s.hcmdWord = none →
        step s = .next { s with
          hresValid := true, hcmdValid := false, curW := s.hcmdWord, resStatus := .invalidArgument,
          resData := 0, sched := schedNearer s.sched })) ∧
    (s.settleCnt ≠ 0 ∨ (s.tickPend = false ∧ s.hcmdValid = false) →
      step s = .next { s with hresValid := false, sched := schedDue s.sched })

/-- While an operation is in progress no other is accepted: the command word and its requester stay until it
completes; only `rst` ends it early (40 R100). -/
def Obligations.BusyEngineAcceptsNothing : Prop :=
  ∀ s t : State, s.eng ≠ .idle → step s = .next t → (∀ es, s.sched ≠ ⟨0, .rst⟩ :: es) →
    t.curW = s.curW ∧ (t.eng = s.eng ∨ t.eng = .idle)

/-! ## Events of the environment -/

/-- `DrdyChange(b)`: the flag is set by an inactive-to-active change only, then the level is taken; nothing
else changes (42 R164). -/
def Obligations.DrdyChangeLatchesActiveEdge : Prop :=
  ∀ (s : State) (b : Bool) (es : List Scheduled), s.cfg.wf = true → s.sched = ⟨0, .drdyChange b⟩ :: es →
    step s = .next { s with
      hresValid := false, sched := es, drdySync := b,
      rdyFlag := if b = true ∧ s.drdySync = false then true else s.rdyFlag }

/-- The time events: `ms_tick` counts NOW modulo 2^32 and the two down-counters to 0, where they stop (42
R165); `tick` sets the one pending slot, and changes nothing when it is set (42 R166). -/
def Obligations.TimeEventsCountAndPend : Prop :=
  ∀ (s : State) (es : List Scheduled), s.cfg.wf = true →
    (s.sched = ⟨0, .msTick⟩ :: es →
      ∃ t, step s = .next t ∧ t.now.toNat = (s.now.toNat + 1) % 2 ^ 32 ∧
        t.tmoCnt.toNat = s.tmoCnt.toNat - 1 ∧ t.settleCnt.toNat = s.settleCnt.toNat - 1 ∧
        t = { s with
          hresValid := false, sched := es, now := t.now, tmoCnt := t.tmoCnt, settleCnt := t.settleCnt }) ∧
    (s.sched = ⟨0, .tick⟩ :: es →
      step s = .next { s with hresValid := false, sched := es, tickPend := true })

/-- The four subscriber events (44 R205 to R208). -/
def Obligations.SubscriberEventsMoveFlags : Prop :=
  ∀ (s : State) (es : List Scheduled), s.cfg.wf = true →
    (s.sched = ⟨0, .connect⟩ :: es →
      step s = .next { s with hresValid := false, sched := es, connected := true }) ∧
    (s.sched = ⟨0, .disconnect⟩ :: es →
      step s = .next { s with hresValid := false, sched := es, connected := false, notifyEn := false }) ∧
    (s.sched = ⟨0, .subscribe⟩ :: es →
      step s = .next { s with
        hresValid := false, sched := es, notifyEn := if s.connected then true else s.notifyEn }) ∧
    (s.sched = ⟨0, .unsubscribe⟩ :: es →
      step s = .next { s with hresValid := false, sched := es, notifyEn := false })

/-- The host presenting a word (10 R20): with none outstanding the port takes it and nothing else changes. A
second word is refused by name, which is the model's reading of 93 U17 (log 9). -/
def Obligations.HostPresentsOneWord : Prop :=
  ∀ (s : State) (w : CmdWord) (es : List Scheduled), s.cfg.wf = true →
    s.sched = ⟨0, .hostWord w⟩ :: es →
    (s.hcmdValid = false →
      step s = .next { s with hresValid := false, sched := es, hcmdValid := true, hcmdWord := w }) ∧
    (s.hcmdValid = true → step s = .refused .hostWordOutstanding)

/-- `rst`: every register takes its reset value, an operation in progress is abandoned without a response,
and the trace gains only the `DESEL` that a raised `CS` falling implies (10 R25). -/
def Obligations.BlockResetEvent : Prop :=
  ∀ (s : State) (es : List Scheduled), s.cfg.wf = true → s.sched = ⟨0, .rst⟩ :: es →
    ∃ t, step s = .next t ∧ t.cfg = s.cfg ∧ t.hresValid = false ∧
      t.busTrace = (if s.cs then s.busTrace ++ [.desel] else s.busTrace) ∧ t.sinkTrace = s.sinkTrace ∧
      t.eng = .idle ∧ t.curW = 0 ∧ t.fsm = .idle ∧ t.ch = 0 ∧ t.byteIdx = 0 ∧ t.cs = false ∧
      t.resStatus = .ok ∧ t.resData = 0 ∧ (∀ a : RegAddr, t.shadowAt a = s.cfg.regDefault a.toNat) ∧
      t.settleCnt = 0 ∧ t.drdySync = false ∧ t.rdyFlag = false ∧ t.tmoCnt = 0 ∧ t.tickPend = false ∧
      t.now = 0 ∧ t.chans = List.replicate s.cfg.n (Chan.reset s.cfg.w) ∧ (∀ j, t.pktAt j = 0) ∧
      t.connected = false ∧ t.notifyEn = false ∧ t.ntfStatus = .ok

/-- The registers after reset, for every configuration and every channel (10 R49). -/
def Obligations.ResetRegisterValues : Prop :=
  ∀ c : Cfg,
    let s := State.resetWith c
    (s.eng = .idle ∧ s.curW = 0 ∧ s.fsm = .idle ∧ s.ch = 0 ∧ s.byteIdx = 0 ∧ s.cs = false ∧
      s.resStatus = .ok ∧ s.resData = 0 ∧ s.settleCnt = 0 ∧ s.drdySync = false ∧ s.rdyFlag = false ∧
      s.tmoCnt = 0 ∧ s.tickPend = false ∧ s.now = 0 ∧ s.connected = false ∧ s.notifyEn = false ∧
      s.ntfStatus = .ok) ∧
    (∀ a : RegAddr, s.shadowAt a = c.regDefault a.toNat) ∧ (∀ j, s.pktAt j = 0) ∧
    (∀ i, i < c.n →
      (s.chan i).raw = 0 ∧ (s.chan i).ts = 0 ∧ (s.chan i).valid = false ∧ (s.chan i).err = .ok ∧
      (s.chan i).offset = 0 ∧ (s.chan i).phys = 0 ∧ (∀ k, k < c.w → (s.chan i).slot k = 0) ∧
      (s.chan i).head = 0 ∧ (s.chan i).cnt = 0 ∧ (s.chan i).sum = 0)

/-! ## The wire commands -/

/-- RESET (40 R110): one exchange; on success every shadow register takes its default and the settle hold
begins, on failure neither changes; nothing else changes but the result registers and the bus. -/
def Obligations.ResetCommandEffect : Prop :=
  ∀ (s : State) (r : Byte) (rest : List Answer), s.begun → s.calm 3 = true →
    (Memory.wf s.cfg.regDefault s.shadow = true → s.busAnswers = ⟨true, r⟩ :: rest →
      ∃ t, exec .reset s = .next t ∧
        (∀ a, s.cfg.regLegal a = true → t.shadowAt a = s.cfg.regDefault a.toNat) ∧
        t.settleCnt = s.cfg.resetSettle ∧
        t = { s.answered .ok 0 with
          byteIdx := 1, kept := [], xferFailed := false, busAnswers := rest,
          busTrace := s.busTrace ++ [.sel, .x s.cfg.opReset r true, .desel],
          sched := schedAfter 3 s.sched, shadow := t.shadow, settleCnt := t.settleCnt }) ∧
    (s.busAnswers = ⟨false, r⟩ :: rest →
      exec .reset s = .next { s.answered .transportFailure 0 with
        byteIdx := 1, kept := [], xferFailed := false, busAnswers := rest,
        busTrace := s.busTrace ++ [.sel, .x s.cfg.opReset r false, .desel],
        sched := schedAfter 3 s.sched })

/-- START and STOP (40 R111, R112): one exchange of the command's own opcode, no data; no flag is written,
`RDY_FLAG` among them, and nothing else changes but the result registers and the bus. -/
def Obligations.StartAndStopEffect : Prop :=
  ∀ (s : State) (ok : Bool) (r : Byte) (rest : List Answer), s.begun → s.calm 3 = true →
    s.busAnswers = ⟨ok, r⟩ :: rest →
    exec .start s = .next { s.answered (if ok then .ok else .transportFailure) 0 with
      byteIdx := 1, kept := [], xferFailed := false, busAnswers := rest,
      busTrace := s.busTrace ++ [.sel, .x s.cfg.opStart r ok, .desel], sched := schedAfter 3 s.sched } ∧
    exec .stop s = .next { s.answered (if ok then .ok else .transportFailure) 0 with
      byteIdx := 1, kept := [], xferFailed := false, busAnswers := rest,
      busTrace := s.busTrace ++ [.sel, .x s.cfg.opStop r ok, .desel], sched := schedAfter 3 s.sched }

/-- RDATA (40 R113, R116, 20 R66): after the fill bytes, three data bytes most significant first; the sample
is answered sign-extended, and no measurement register changes. -/
def Obligations.ReadDataEffect : Prop :=
  ∀ (s : State) (r0 : Byte) (ds : List Byte) (b2 b1 b0 : Byte) (rest : List Answer), s.begun →
    s.cfg.rdataDummy ≤ 2 → ds.length = s.cfg.rdataDummy → s.calm (6 + s.cfg.rdataDummy) = true →
    s.busAnswers =
      ⟨true, r0⟩ :: ds.map (Answer.mk true) ++ [⟨true, b2⟩, ⟨true, b1⟩, ⟨true, b0⟩] ++ rest →
    exec .rdata s = .next { s.answered .ok (decode24 b2 b1 b0) with
      byteIdx := BitVec.ofNat 3 (4 + s.cfg.rdataDummy), kept := [], xferFailed := false,
      busAnswers := rest,
      busTrace := s.busTrace ++ .sel :: .x s.cfg.opRdata r0 true ::
        ds.map (fun r => .x s.cfg.txFill r true) ++
        [.x s.cfg.txFill b2 true, .x s.cfg.txFill b1 true, .x s.cfg.txFill b0 true, .desel],
      sched := schedAfter (6 + s.cfg.rdataDummy) s.sched }

/-- RREG a (40 R114): opcode with the address, dummy byte, data byte, answered zero-extended; `SHADOW` and
everything else is left alone. -/
def Obligations.ReadRegisterEffect : Prop :=
  ∀ (s : State) (a : RegAddr) (r0 r1 b : Byte) (rest : List Answer), s.begun →
    s.cfg.regLegal a = true → s.calm 5 = true →
    s.busAnswers = ⟨true, r0⟩ :: ⟨true, r1⟩ :: ⟨true, b⟩ :: rest →
    exec (.rreg a) s = .next { s.answered .ok (b.setWidth 32) with
      byteIdx := 3, kept := [], xferFailed := false, busAnswers := rest,
      busTrace := s.busTrace ++ [.sel, .x (s.cfg.opRreg ||| a.setWidth 8) r0 true,
        .x s.cfg.txFill r1 true, .x s.cfg.txFill b true, .desel],
      sched := schedAfter 5 s.sched }

/-- WREG a, v (40 R115): opcode with the address, then the value; on success `SHADOW[a]` takes it and no
other shadow register, nor anything else, changes. -/
def Obligations.WriteRegisterEffect : Prop :=
  ∀ (s : State) (a : RegAddr) (v r0 r1 : Byte) (rest : List Answer), s.begun →
    s.cfg.regLegal a = true → Memory.wf s.cfg.regDefault s.shadow = true → s.calm 4 = true →
    s.busAnswers = ⟨true, r0⟩ :: ⟨true, r1⟩ :: rest →
    ∃ t, exec (.wreg a v) s = .next t ∧
      (∀ b, t.shadowAt b = if b = a then v else s.shadowAt b) ∧
      t = { s.answered .ok 0 with
        byteIdx := 2, kept := [], xferFailed := false, busAnswers := rest,
        busTrace := s.busTrace ++ [.sel, .x (s.cfg.opWreg ||| a.setWidth 8) r0 true, .x v r1 true, .desel],
        sched := schedAfter 4 s.sched, shadow := t.shadow }

/-- SETMUX p, n (41 R131, 30 R88): one WREG of the packed value to the multiplexer register. -/
def Obligations.SetMuxEffect : Prop :=
  ∀ (s : State) (p n : InputCode) (r0 r1 : Byte) (rest : List Answer), s.begun → s.cfg.wf = true →
    Instr.wf s.cfg (.setmux p n) = true → Memory.wf s.cfg.regDefault s.shadow = true →
    s.calm 4 = true → s.busAnswers = ⟨true, r0⟩ :: ⟨true, r1⟩ :: rest →
    ∃ t, exec (.setmux p n) s = .next t ∧
      (let v := (p.setWidth 8 <<< s.cfg.fMux.posShift) ||| (n.setWidth 8 <<< s.cfg.fMux.negShift)
       (∀ b, t.shadowAt b = if b = s.cfg.fMux.addr then v else s.shadowAt b) ∧
       t = { s.answered .ok 0 with
         byteIdx := 2, kept := [], xferFailed := false, busAnswers := rest,
         busTrace := s.busTrace ++ [.sel, .x (s.cfg.opWreg ||| s.cfg.fMux.addr.setWidth 8) r0 true,
           .x v r1 true, .desel],
         sched := schedAfter 4 s.sched, shadow := t.shadow })

/-- SETGAIN, SETRATE, SETREF (41 R132 to R134, 30 R89): one WREG of the shadow byte with the field
replaced. -/
def Obligations.FieldHelperEffect : Prop :=
  ∀ (s : State) (i : Instr) (f : RegField) (code r0 r1 : Byte) (rest : List Answer), s.begun →
    s.cfg.wf = true →
    (i = .setgain code ∧ f = s.cfg.fGain ∨ i = .setrate code ∧ f = s.cfg.fRate ∨
      i = .setref code ∧ f = s.cfg.fRef) →
    i.wf s.cfg = true → Memory.wf s.cfg.regDefault s.shadow = true →
    s.calm 4 = true → s.busAnswers = ⟨true, r0⟩ :: ⟨true, r1⟩ :: rest →
    ∃ t, exec i s = .next t ∧
      (let v := insertField (s.shadowAt f.addr) f.mask f.shift code
       (∀ b, t.shadowAt b = if b = f.addr then v else s.shadowAt b) ∧
       t = { s.answered .ok 0 with
         byteIdx := 2, kept := [], xferFailed := false, busAnswers := rest,
         busTrace := s.busTrace ++ [.sel, .x (s.cfg.opWreg ||| f.addr.setWidth 8) r0 true,
           .x v r1 true, .desel],
         sched := schedAfter 4 s.sched, shadow := t.shadow })

/-- A host operation whose exchange number `answers.length + 1` fails: the boundary is released at once, the
answer is (TransportFailure, 0), and nothing else changes, `SHADOW` and `SETTLE_CNT` among it (40 R107,
R110 to R115, 60 R222). -/
def Obligations.FailedExchangeEndsOperation : Prop :=
  ∀ (s : State) (i : Instr) (frame : Frame) (answers rest : List Answer) (rx : Byte), s.begun →
    s.cfg.wf = true → hostFrame s i = some frame → s.busAnswers = answers ++ ⟨false, rx⟩ :: rest →
    answers.length < frame.length → (∀ a ∈ answers, a.ok = true) → s.calm (answers.length + 3) = true →
    exec i s =
      .next ((s.afterFrame frame (answers ++ [⟨false, rx⟩])).answered .transportFailure 0)

/-- An operation with an operand outside its legal set answers (InvalidArgument, 0) before any bus activity:
nothing but the result registers changes (40 R108). That this is an engine step of its own after acceptance
is the model's reading (log 23). -/
def Obligations.IllegalOperandsAnswered : Prop :=
  ∀ (s : State) (i : Instr), s.begun → i.wf s.cfg = false → s.calm 1 = true →
    exec i s = .next { s.answered .invalidArgument 0 with sched := schedAfter 1 s.sched }

/-- An exchange the transport never answers leaves the operation in progress with the boundary asserted, no
response, and nothing else changed: the engine waits (93 U15, 60 R235). The empty answer list stands for it
(log 1), and the wait is a next state (log 8). -/
def Obligations.UnansweredExchangeWaits : Prop :=
  ∀ (s : State) (i : Instr) (frame : Frame), s.begun → s.cfg.wf = true →
    hostFrame s i = some frame → s.busAnswers = [] → s.calm 1 = true →
    exec i s = .next { s with
      cs := true, byteIdx := 0, kept := [], xferFailed := false, busTrace := s.busTrace ++ [.sel],
      sched := schedDue (schedAfter 1 s.sched) }

/-- TARE (43 R187): every channel's offset takes its raw sample, valid or not, in one step, answered
(OK, 0); no bus activity, and nothing else changes. -/
def Obligations.TareEffect : Prop :=
  ∀ s : State, s.eng = .host → s.chans.length = s.cfg.n → s.calm 1 = true →
    ∃ t, exec .tare s = .next t ∧
      (∀ i, i < s.cfg.n → t.chan i = { s.chan i with offset := (s.chan i).raw }) ∧
      t.chans.length = s.cfg.n ∧
      t = { s.answered .ok 0 with chans := t.chans, sched := schedAfter 1 s.sched }

/-! ## The acquisition cycle, state by state -/

/-- The start of a CYCLE is the start of the visit of channel 0 (42 R150, R151). -/
def Obligations.CycleBeginsWithChannelZero : Prop :=
  ∀ s : State, s.fsm = .idle → s.eventAfter 1 → 0 < s.cfg.n → s.chans.length = s.cfg.n →
    ∃ t, exec .cycle s = .next t ∧ t.chan 0 = { s.chan 0 with valid := false } ∧
      (∀ i, 0 < i → t.chan i = s.chan i) ∧
      t = { s with fsm := .selectChannel, ch := 0, chans := t.chans, sched := schedAfter 1 s.sched }

/-- SELECT_CHANNEL (42 R152): the descriptor is written to the multiplexer register; on success `RDY_FLAG` is
cleared in the step of the `Deselect()` and START follows; on a failure of either exchange the visit is
aborted (42 R161) with `RDY_FLAG` and `SHADOW` as they were. The model's readings: FSM or the error is
written in the step of the `Deselect()` too (log 22), and the next visit is begun in it (log 5). -/
def Obligations.SelectChannelWritesDescriptor : Prop :=
  ∀ (s : State) (p n : InputCode) (r0 r1 : Byte) (rest : List Answer), s.cfg.wf = true →
    s.fsm = .selectChannel → s.cs = false → s.cfg.chDesc[s.ch.toNat]? = some (p, n) →
    Memory.wf s.cfg.regDefault s.shadow = true →
    (s.eventAfter 4 → s.busAnswers = ⟨true, r0⟩ :: ⟨true, r1⟩ :: rest →
      ∃ t, exec .cycle s = .next t ∧
        (∀ b, t.shadowAt b = if b = s.cfg.fMux.addr then muxValue s.cfg.fMux p n else s.shadowAt b) ∧
        t = { s with
          fsm := .start, rdyFlag := false, shadow := t.shadow, byteIdx := 2, kept := [],
          xferFailed := false, busAnswers := rest, sched := schedAfter 4 s.sched,
          busTrace := s.busTrace ++ [.sel, .x (s.cfg.opWreg ||| s.cfg.fMux.addr.setWidth 8) r0 true,
            .x (muxValue s.cfg.fMux p n) r1 true, .desel] }) ∧
    (s.eventAfter 3 → s.busAnswers = ⟨false, r0⟩ :: rest →
      exec .cycle s = .next (({ s with
        byteIdx := 1, kept := [], xferFailed := false, busAnswers := rest, sched := schedAfter 3 s.sched,
        busTrace := s.busTrace ++
          [.sel, .x (s.cfg.opWreg ||| s.cfg.fMux.addr.setWidth 8) r0 false, .desel] } : State).abortVisit
        .transportFailure)) ∧
    (s.eventAfter 4 → s.busAnswers = ⟨true, r0⟩ :: ⟨false, r1⟩ :: rest →
      ∃ t, exec .cycle s = .next t ∧ t.byteIdx = 2 ∧ t.rdyFlag = s.rdyFlag ∧ t.shadow = s.shadow ∧
        t = ({ s with
          byteIdx := 2, kept := [], xferFailed := false, busAnswers := rest, sched := schedAfter 4 s.sched,
          busTrace := s.busTrace ++ [.sel, .x (s.cfg.opWreg ||| s.cfg.fMux.addr.setWidth 8) r0 true,
            .x (muxValue s.cfg.fMux p n) r1 false, .desel] } : State).abortVisit .transportFailure)

/-- START (42 R153, R154): the START command in pulse mode, nothing in continuous mode, then AWAIT_READY with
the timeout counter loaded; a failed START aborts the visit and loads nothing (42 R161). The model's
readings: entry to AWAIT_READY is in the step of the `Deselect()` in pulse mode, and an engine step of its own
in continuous mode (log 22), and an aborted visit gives way to the next in the same step (log 5). -/
def Obligations.StartStateByConversionMode : Prop :=
  ∀ (s : State) (r : Byte) (rest : List Answer), s.fsm = .start → s.cs = false →
    (s.cfg.convMode = .continuous → s.eventAfter 1 →
      exec .cycle s = .next { s with
        fsm := .awaitReady, tmoCnt := s.cfg.readyTimeout, sched := schedAfter 1 s.sched }) ∧
    (s.cfg.convMode = .pulse → s.eventAfter 3 → s.busAnswers = ⟨true, r⟩ :: rest →
      exec .cycle s = .next { s with
        fsm := .awaitReady, tmoCnt := s.cfg.readyTimeout, byteIdx := 1, kept := [], xferFailed := false,
        busAnswers := rest, sched := schedAfter 3 s.sched,
        busTrace := s.busTrace ++ [.sel, .x s.cfg.opStart r true, .desel] }) ∧
    (s.cfg.convMode = .pulse → s.eventAfter 3 → s.busAnswers = ⟨false, r⟩ :: rest →
      exec .cycle s = .next (({ s with
        byteIdx := 1, kept := [], xferFailed := false, busAnswers := rest, sched := schedAfter 3 s.sched,
        busTrace := s.busTrace ++ [.sel, .x s.cfg.opStart r false, .desel] } : State).abortVisit
        .transportFailure))

/-- AWAIT_READY on the edge latch (42 R156): ready consumes the flag and wins over the timeout; with neither
the engine has no step and waits for the next event. The model's readings: a visit that timed out (42 R159)
gives way to the next in the same step (log 5), and the wait is a next state (log 8). -/
def Obligations.LineEdgeWait : Prop :=
  ∀ s : State, s.fsm = .awaitReady → readyMethodInForce s.cfg = .lineEdge → s.eventAfter 1 →
    (s.rdyFlag = true →
      exec .cycle s = .next { s with rdyFlag := false, fsm := .read, sched := schedAfter 1 s.sched }) ∧
    (s.rdyFlag = false → s.tmoCnt = 0 →
      exec .cycle s = .next { s.abortVisit .timeout with sched := schedAfter 1 s.sched }) ∧
    (s.rdyFlag = false → s.tmoCnt ≠ 0 → exec .cycle s = .next { s with sched := schedDue s.sched })

/-- AWAIT_READY on the polled line (42 R157): as on the latch, but by the level, and `RDY_FLAG` is neither
read nor written. The model's readings are those of the edge latch (logs 5 and 8). -/
def Obligations.LineLevelWait : Prop :=
  ∀ s : State, s.fsm = .awaitReady → readyMethodInForce s.cfg = .lineLevel → s.eventAfter 1 →
    (s.drdySync = true →
      exec .cycle s = .next { s with fsm := .read, sched := schedAfter 1 s.sched }) ∧
    (s.drdySync = false → s.tmoCnt = 0 →
      exec .cycle s = .next { s.abortVisit .timeout with sched := schedAfter 1 s.sched }) ∧
    (s.drdySync = false → s.tmoCnt ≠ 0 → exec .cycle s = .next { s with sched := schedDue s.sched })

/-- AWAIT_READY on the status bit (42 R158): a whole RREG command cycle, then the test of its byte: ready
first, then the timeout, else the next poll; a failed exchange of the poll aborts the visit (42 R161). The
model's readings: the test is an engine step of its own (log 6), a failed poll is recorded in the step of its
`Deselect()` (log 22), and a visit that ends gives way to the next in the same step (log 5). -/
def Obligations.StatusPollWait : Prop :=
  ∀ (s : State) (r0 r1 b : Byte) (rest : List Answer), s.cfg.wf = true → s.fsm = .awaitReady →
    s.cs = false → readyMethodInForce s.cfg = .statusBit →
    (s.poll = none → s.eventAfter 5 →
      s.busAnswers = ⟨true, r0⟩ :: ⟨true, r1⟩ :: ⟨true, b⟩ :: rest →
      exec .cycle s = .next { s with
        poll := some b, byteIdx := 3, kept := [], xferFailed := false, busAnswers := rest,
        sched := schedAfter 5 s.sched,
        busTrace := s.busTrace ++ [.sel, .x (s.cfg.opRreg ||| s.cfg.addrStatus.setWidth 8) r0 true,
          .x s.cfg.txFill r1 true, .x s.cfg.txFill b true, .desel] }) ∧
    (s.poll = some b → s.eventAfter 1 →
      (b &&& s.cfg.statusDrdyMask ≠ 0 →
        exec .cycle s = .next { s with poll := none, fsm := .read, sched := schedAfter 1 s.sched }) ∧
      (b &&& s.cfg.statusDrdyMask = 0 → s.tmoCnt = 0 →
        exec .cycle s = .next { s.abortVisit .timeout with
          poll := none, sched := schedAfter 1 s.sched }) ∧
      (b &&& s.cfg.statusDrdyMask = 0 → s.tmoCnt ≠ 0 →
        exec .cycle s = .next { s with poll := none, sched := schedAfter 1 s.sched })) ∧
    (∀ (answers : List Answer) (rx : Byte), s.poll = none → (∀ a ∈ answers, a.ok = true) →
      answers.length < 3 → s.eventAfter (answers.length + 3) → s.busAnswers = answers ++ ⟨false, rx⟩ :: rest →
      exec .cycle s = .next ((s.afterFrame (rregFrame s.cfg s.cfg.addrStatus)
        (answers ++ [⟨false, rx⟩])).abortVisit .transportFailure))

/-- READ (42 R160): the sample, the time, the valid bit and OK are written in the step of the `Deselect()`,
and the visit ends: the next channel's begins, its valid bit cleared (42 R151, R162), or CYCLE_COMPLETE is
reached. A failed exchange aborts the visit (42 R161): only the channel's error is recorded, its sample, time
and physical value stay. The model's readings: that error is recorded in the step of the `Deselect()` (log
22), and the visit gives way to what follows in the same step (log 5). -/
def Obligations.ReadStateCaptures : Prop :=
  ∀ (s : State) (rest : List Answer), s.cfg.wf = true → s.fsm = .read → s.cs = false →
    s.chans.length = s.cfg.n → s.ch.toNat < s.cfg.n →
    (∀ (r0 : Byte) (ds : List Byte) (b2 b1 b0 : Byte), ds.length = s.cfg.rdataDummy →
      s.eventAfter (6 + s.cfg.rdataDummy) →
      s.busAnswers =
        ⟨true, r0⟩ :: ds.map (Answer.mk true) ++ [⟨true, b2⟩, ⟨true, b1⟩, ⟨true, b0⟩] ++ rest →
      ∃ t, exec .cycle s = .next t ∧
        t.chan s.ch.toNat =
          { s.chan s.ch.toNat with raw := decode24 b2 b1 b0, ts := s.now, valid := true, err := .ok } ∧
        (s.ch.toNat + 1 < s.cfg.n → t.fsm = .selectChannel ∧ t.ch.toNat = s.ch.toNat + 1 ∧
          t.chan (s.ch.toNat + 1) = { s.chan (s.ch.toNat + 1) with valid := false } ∧ t.phase = s.phase) ∧
        (s.ch.toNat + 1 = s.cfg.n → t.fsm = .cycleComplete ∧ t.ch = s.ch ∧ t.phase = .calibrate) ∧
        (∀ i, i ≠ s.ch.toNat → i ≠ s.ch.toNat + 1 → t.chan i = s.chan i) ∧
        t.chans.length = s.cfg.n ∧
        t = { s with
          fsm := t.fsm, ch := t.ch, phase := t.phase, chans := t.chans,
          byteIdx := BitVec.ofNat 3 (4 + s.cfg.rdataDummy), kept := [], xferFailed := false,
          busAnswers := rest, sched := schedAfter (6 + s.cfg.rdataDummy) s.sched,
          busTrace := s.busTrace ++ .sel :: .x s.cfg.opRdata r0 true ::
            ds.map (fun r => .x s.cfg.txFill r true) ++
            [.x s.cfg.txFill b2 true, .x s.cfg.txFill b1 true, .x s.cfg.txFill b0 true, .desel] }) ∧
    (∀ (answers : List Answer) (rx : Byte), (∀ a ∈ answers, a.ok = true) →
      answers.length < 4 + s.cfg.rdataDummy → s.eventAfter (answers.length + 3) →
      s.busAnswers = answers ++ ⟨false, rx⟩ :: rest →
      ∃ t, exec .cycle s = .next t ∧
        t.chan s.ch.toNat = { s.chan s.ch.toNat with err := .transportFailure } ∧
        t = (s.afterFrame (rdataFrame s.cfg) (answers ++ [⟨false, rx⟩])).abortVisit .transportFailure)

/-- The end of a visit with an error (42 R159, R161, R162): the error is recorded, the valid bit and the
sample stay, and the next channel's visit begins, or CYCLE_COMPLETE is reached after the last, in the same
step by the model's reading (log 5). -/
def Obligations.VisitErrorAdvances : Prop :=
  ∀ (s : State) (st : Status), s.cfg.wf = true → s.chans.length = s.cfg.n → s.ch.toNat < s.cfg.n →
    (s.abortVisit st).chan s.ch.toNat = { s.chan s.ch.toNat with err := st } ∧
    (s.ch.toNat + 1 < s.cfg.n →
      (s.abortVisit st).fsm = .selectChannel ∧ (s.abortVisit st).ch.toNat = s.ch.toNat + 1 ∧
      (s.abortVisit st).chan (s.ch.toNat + 1) = { s.chan (s.ch.toNat + 1) with valid := false } ∧
      ∀ i, i ≠ s.ch.toNat → i ≠ s.ch.toNat + 1 → (s.abortVisit st).chan i = s.chan i) ∧
    (s.ch.toNat + 1 = s.cfg.n →
      (s.abortVisit st).fsm = .cycleComplete ∧ (s.abortVisit st).ch = s.ch ∧
      ∀ i, i ≠ s.ch.toNat → (s.abortVisit st).chan i = s.chan i)

/-- CYCLE_COMPLETE (42 R163): the calibration step, then the encode step, each with the rest of the machine
as it was (43 R186, 44 R203). -/
def Obligations.CycleCompleteCalibratesThenEncodes : Prop :=
  ∀ s : State, s.fsm = .cycleComplete → s.eventAfter 1 →
    (s.phase = .calibrate → s.chans.length = s.cfg.n →
      ∃ t, exec .cycle s = .next t ∧
        (∀ i, i < s.cfg.n →
          t.chan i = if (s.chan i).valid then
              (let phys := BitVec.ofInt 64 (((s.chan i).raw.toInt - (s.chan i).offset.toInt) *
                (s.cfg.scale.getD i 0).toInt)
               Chan.ringInsert s.cfg.w phys { s.chan i with phys := phys })
            else s.chan i) ∧
        t = { s with phase := .encode, chans := t.chans, sched := schedAfter 1 s.sched }) ∧
    (s.phase = .encode →
      ∃ t, exec .cycle s = .next t ∧ t.packet = s.encodePacket.packet ∧
        t = { s with phase := .notify, pkt := t.pkt, sched := schedAfter 1 s.sched })

/-- The notify step (44 R204) and the end of the CYCLE (42 R163): one send, not retried, only when connected
and subscribed; then idle, and for a host CYCLE the answer OK with the valid mask and the notify status.
A send that is not answered counts as made: the CYCLE waits for the answer, and no subscriber event calls
it back (44 R204, 93 U15). The model's readings: the CYCLE completes in the notify step (log 7), and the
request of an unanswered send is an engine step, after which the wait is a next state (logs 8 and 24). -/
def Obligations.NotifyGateEndsCycle : Prop :=
  ∀ (s : State) (ok : Bool) (rest : List Bool), s.cfg.n ≤ 8 → s.chans.length = s.cfg.n →
    s.fsm = .cycleComplete → s.calm 1 = true →
    (s.phase = .notify ∧ s.connected = true ∧ s.notifyEn = true ∨ s.phase = .sending →
      s.sinkAnswers = ok :: rest →
      ∃ t, exec .cycle s = .next t ∧ t.ntfStatus = (if ok then .ok else .sinkFailure) ∧
        t.sinkTrace = s.sinkTrace ++ [⟨s.packet, ok⟩] ∧ t.sinkAnswers = rest ∧ t.eng = .idle ∧
        t.fsm = .idle ∧ t.chans = s.chans ∧ t.pkt = s.pkt ∧ t.shadow = s.shadow) ∧
    (s.phase = .notify → s.connected = false ∨ s.notifyEn = false →
      ∃ t, exec .cycle s = .next t ∧ t.ntfStatus = .notReady ∧ t.sinkTrace = s.sinkTrace ∧
        t.sinkAnswers = s.sinkAnswers ∧ t.eng = .idle ∧ t.fsm = .idle ∧ t.chans = s.chans ∧
        t.pkt = s.pkt ∧ t.shadow = s.shadow) ∧
    (s.phase = .notify → s.connected = true → s.notifyEn = true → s.sinkAnswers = [] →
      exec .cycle s = .next { s with phase := .sending, sched := schedDue (schedAfter 1 s.sched) }) ∧
    (s.phase = .sending → s.sinkAnswers = [] →
      exec .cycle s = .next { s with sched := schedDue s.sched }) ∧
    (∀ t, s.phase = .notify ∨ s.phase = .sending → exec .cycle s = .next t → t.eng = .idle →
      (s.eng = .tick → t.resStatus = s.resStatus ∧ t.resData = s.resData ∧ t.hresValid = s.hresValid ∧
        t.hcmdValid = s.hcmdValid) ∧
      (s.eng = .host → t.resStatus = .ok ∧ t.hresValid = true ∧ t.hcmdValid = false ∧
        (∀ k, k < s.cfg.n → t.resData.getLsbD k = (s.chan k).valid) ∧
        (∀ k, s.cfg.n ≤ k → k < 8 → t.resData.getLsbD k = false) ∧
        t.resData.extractLsb' 8 3 = statusCode t.ntfStatus ∧ t.resData.extractLsb' 11 21 = 0))

/-- A whole CYCLE on a line that is active throughout, with every exchange answered and nobody subscribed:
every channel, in order, gets its sample from the answers of its own visit, is calibrated, and is in the
packet; the host is answered the full valid mask with NotReady (42 R150 to R163, 43 R186, 44 R200 to
R204). -/
def Obligations.CycleCompletesEveryChannel : Prop :=
  ∀ (s : State) (ans rest : List Answer), s.cfg.wf = true → s.begun → s.fsm = .idle → s.sched = [] →
    s.chans.length = s.cfg.n → Memory.wf pktDefault s.pkt = true →
    readyMethodInForce s.cfg = .lineLevel → s.drdySync = true → s.subscribed = false →
    s.busAnswers = ans ++ rest → ans.length = s.cfg.n * visitExchanges s.cfg →
    (∀ a ∈ ans, a.ok = true) →
    ∃ t, exec .cycle s = .next t ∧ t.eng = .idle ∧ t.fsm = .idle ∧ t.cs = false ∧ t.busAnswers = rest ∧
      t.resStatus = .ok ∧ t.resData.toNat = 4 * 256 + (2 ^ s.cfg.n - 1) ∧ t.hresValid = true ∧
      t.hcmdValid = false ∧ t.ntfStatus = .notReady ∧ t.sinkTrace = s.sinkTrace ∧
      (∀ i, i < s.cfg.n →
        let rx := fun k => (ans.getD (i * visitExchanges s.cfg + (visitExchanges s.cfg - 3) + k)
          ⟨false, 0⟩).rx
        t.chan i = Chan.calibrate s.cfg.w (chanScale s.cfg i)
          { s.chan i with raw := decode24 (rx 0) (rx 1) (rx 2), ts := s.now, valid := true, err := .ok } ∧
        consumerValue s.cfg.pktLe t.packet i = (t.chan i).packetValue) ∧
      consumerElapsed s.cfg.pktLe t.packet = s.now.toNat % 65536 ∧ t.now = s.now ∧
      t.settleCnt = s.settleCnt ∧ t.connected = s.connected ∧ t.notifyEn = s.notifyEn ∧
      t.drdySync = true ∧ t.tickPend = s.tickPend

/-! ## Calibration -/

/-- The calibration of a channel is exact in the registers' widths (43 R182, R186, R190): the physical value
is the integer product, whatever the scale, and the channel's invariants are kept. -/
def Obligations.CalibrationIsExact : Prop :=
  ∀ (w : Nat) (scale : BitVec 32) (c : Chan), 1 ≤ w → w ≤ 16 → c.Inv w →
    (c.calibrate w scale.toInt).Inv w ∧
    (c.valid = true →
      (c.calibrate w scale.toInt).phys.toInt = (c.raw.toInt - c.offset.toInt) * scale.toInt) ∧
    (c.valid = false → c.calibrate w scale.toInt = c)

/-- The moving average (43 R184, R185): after any values are inserted into an empty buffer, the count is how
many of them the buffer can hold and the sum is that of the latest so many. -/
def Obligations.MovingAverageHoldsLatest : Prop :=
  ∀ (w : Nat) (xs : List (BitVec 64)), 1 ≤ w → w ≤ 16 → (∀ x ∈ xs, |x.toInt| ≤ physBound) →
    let c := xs.foldl (fun c x => c.ringInsert w x) (Chan.reset w)
    c.cnt.toNat = min w xs.length ∧
    c.sum.toInt = ((xs.drop (xs.length - w)).map BitVec.toInt).sum

/-- A ring insert (43 R184): a buffer that is not full takes the value at `HEAD` and counts it; a full one
evicts the oldest, which is at `HEAD`; `HEAD` moves on modulo `W`. -/
def Obligations.RingInsertEvictsOldest : Prop :=
  ∀ (w : Nat) (x : BitVec 64) (c : Chan), 1 ≤ w → w ≤ 16 → c.Inv w → |x.toInt| ≤ physBound →
    (c.ringInsert w x).Inv w ∧
    (c.ringInsert w x).head.toNat = (c.head.toNat + 1) % w ∧
    (c.ringInsert w x).slot c.head.toNat = x.toInt ∧
    (∀ k, k ≠ c.head.toNat → (c.ringInsert w x).slot k = c.slot k) ∧
    (c.cnt.toNat < w → (c.ringInsert w x).sum.toInt = c.sum.toInt + x.toInt ∧
      (c.ringInsert w x).cnt.toNat = c.cnt.toNat + 1) ∧
    (c.cnt.toNat = w → (c.ringInsert w x).sum.toInt = c.sum.toInt + x.toInt - c.slot c.head.toNat ∧
      (c.ringInsert w x).cnt = c.cnt)

/-- The tare law (43 R192): a sample repeated after its tare calibrates to exactly 0, for every scale. -/
def Obligations.TareThenSameSampleIsZero : Prop :=
  ∀ (s t : State) (i : Nat) (w : Nat) (scale : Int) (c : Chan), s.chans.length = s.cfg.n → i < s.cfg.n →
    s.calm 1 = true → exec .tare s = .next t → c.offset = (t.chan i).offset → c.raw = (s.chan i).raw →
    c.valid = true → (c.calibrate w scale).phys = 0

/-! ## What operations leave alone -/

/-- No operation writes `NOW`, the ready-line register, the subscriber flags, the pending tick, the host's
word or the configuration (10 R37, R45, R51, R36, 00 R5). -/
def Obligations.OperationsLeaveEventRegisters : Prop :=
  ∀ (i : Instr) (s t : State), exec i s = .next t →
    t.cfg = s.cfg ∧ t.now = s.now ∧ t.drdySync = s.drdySync ∧ t.connected = s.connected ∧
    t.notifyEn = s.notifyEn ∧ t.tickPend = s.tickPend ∧ t.hcmdWord = s.hcmdWord ∧ t.curW = s.curW

/-- Only CYCLE writes the measurement and framing registers (10 R38 to R44, R46, R50, R51, 00 R13) and the registers
`FSM`, `CH` (10 R27), `RDY_FLAG` (10 R34) and `TMO_CNT` (10 R35); of them TARE writes only the offsets (10 R41).
The other sequencing registers, `BYTE_IDX`, `CS` and `ENG`, are not claimed: wire commands write them. -/
def Obligations.OnlyCycleWritesMeasurements : Prop :=
  ∀ (i : Instr) (s t : State), i ≠ .cycle → exec i s = .next t →
    (i ≠ .tare → t.chans = s.chans) ∧
    (∀ k, (t.chan k).raw = (s.chan k).raw ∧ (t.chan k).ts = (s.chan k).ts ∧
      (t.chan k).valid = (s.chan k).valid ∧ (t.chan k).err = (s.chan k).err ∧
      (t.chan k).phys = (s.chan k).phys ∧ (t.chan k).ring = (s.chan k).ring ∧
      (t.chan k).head = (s.chan k).head ∧ (t.chan k).cnt = (s.chan k).cnt ∧
      (t.chan k).sum = (s.chan k).sum) ∧
    (∀ j, t.pktAt j = s.pktAt j) ∧ t.ntfStatus = s.ntfStatus ∧ t.sinkTrace = s.sinkTrace ∧
    t.fsm = s.fsm ∧ t.ch = s.ch ∧ t.rdyFlag = s.rdyFlag ∧ t.tmoCnt = s.tmoCnt

/-- `SHADOW` is written by WREG, the helpers, RESET and the multiplexer write of CYCLE only, and by WREG at
its own address only (10 R30). -/
def Obligations.OnlyConfigurationWritesShadow : Prop :=
  ∀ (i : Instr) (s t : State), Memory.wf s.cfg.regDefault s.shadow = true → exec i s = .next t →
    (i ∈ [.start, .stop, .rdata, .tare] ∨ (∃ a, i = .rreg a) →
      ∀ b, t.shadowAt b = s.shadowAt b) ∧
    (∀ a v, i = .wreg a v → ∀ b, b ≠ a → t.shadowAt b = s.shadowAt b) ∧
    (i ≠ .reset → t.settleCnt = s.settleCnt)

/-! ## Invariants -/

/-- The configuration is not state: no step changes it (00 R5). -/
def Obligations.StepNeverChangesConfiguration : Prop :=
  ∀ s t : State, step s = .next t → t.cfg = s.cfg

/-- `NOTIFY_EN = 1` implies `CONNECTED = 1` (10 R45), kept by every step. -/
def Obligations.StepKeepsSubscriberInvariant : Prop :=
  ∀ s t : State, s.SubscriberInv → step s = .next t → t.SubscriberInv

/-- `SHADOW` and `PKT` keep their canonical form and list only locations that exist. -/
def Obligations.StepKeepsMemories : Prop :=
  ∀ s t : State, s.MemoryInv → step s = .next t → t.MemoryInv

/-- The registers of every channel keep the ranges and relations of 10 R38, R41 to R43 and 43 R184: no step
overflows, and `SUM[i]` is always the sum of the held slots. -/
def Obligations.StepKeepsChannels : Prop :=
  ∀ s t : State, s.ChannelInv → step s = .next t → t.ChannelInv

/-- The sequencing registers keep agreeing: `CS = 1` only inside a command cycle and `CS = 0` whenever the
engine is idle (10 R28), `FSM` is IDLE whenever no CYCLE is in progress and `CH < N` while it is not
(10 R27). -/
def Obligations.StepKeepsSequencing : Prop :=
  ∀ s t : State, s.SequenceInv → step s = .next t → t.SequenceInv

/-- Every bus trace is a sequence of well-bracketed groups `SEL X* DESEL` with at least one `X` in each, of
which at most the last failed (40 R107), in a run without `rst`. -/
def Obligations.StepKeepsTraceBracketed : Prop :=
  ∀ s t : State, s.TraceInv → step s = .next t → t.TraceInv

/-- Every invariant holds right after reset, for every well-formed configuration, that of `State.reset`
among them. -/
def Obligations.ResetMeetsInvariants : Prop :=
  Cfg.test.wf = true ∧
  ∀ c : Cfg, c.wf = true →
    (State.resetWith c).SubscriberInv ∧ (State.resetWith c).MemoryInv ∧ (State.resetWith c).ChannelInv ∧
    (State.resetWith c).SequenceInv ∧ (State.resetWith c).TraceInv

/-- In a state that meets the sequencing invariant, and with a host that keeps its word on the port, every
step has a next state: nothing is refused, and nothing faults (60 R230, R226). This is the model's choice and
not the spec's words: the spec calls a waiting engine one with no enabled step (60 R235), and stuck where
nothing comes to end the wait (93 U14, U15), and the model answers a next state there (DESIGN CHOICE, log 8).
That the host keeps its word is 10 R20; that breaking it is a refusal, with the form of the port, is log 9
(93 U17, DESIGN CHOICE). -/
def Obligations.SequencedStatesAlwaysStep : Prop :=
  ∀ s : State, s.SequenceInv → s.hostKeepsWord → ∃ t, step s = .next t

/-- An operation runs on until it has completed, an event is due, or it waits for the environment with no
event to come: it never pauses for any other reason (40 R100, R103); the bound on engine steps that log 19
puts on `exec` never cuts it short. That a wait, in which the spec has no enabled step (60 R235), is a next
state, here one that `exec` answers again unchanged, is the model's choice (DESIGN CHOICE, log 8). -/
def Obligations.OperationRunsUntilItMustWait : Prop :=
  ∀ (s t : State) (i : Instr), s.SequenceInv → s.eng ≠ .idle → decodeWord s.curW = some i →
    exec i s = .next t → t.eng = .idle ∨ t.eventDue = true ∨ exec i t = .next t

/-! ## Encodings of the enumerated registers -/

/-- The codes of the statuses (60 R220), of `ENG` (10 R26) and of `FSM` (10 R27), each with no other value
for any of its registers: the codes 6 and 7, `ENG = 3` and `FSM` 6 and 7 are never produced. -/
def Obligations.RegisterEncodings : Prop :=
  ([Status.ok, .invalidArgument, .transportFailure, .timeout, .notReady, .sinkFailure].map statusCode =
      [0, 1, 2, 3, 4, 5] ∧ ∀ st, (statusCode st).toNat ≤ 5) ∧
  ([Eng.idle, .host, .tick].map engCode = [0, 1, 2] ∧ ∀ e, (engCode e).toNat ≤ 2) ∧
  ([Fsm.idle, .selectChannel, .start, .awaitReady, .read, .cycleComplete].map fsmCode =
      [0, 1, 2, 3, 4, 5] ∧ ∀ f, (fsmCode f).toNat ≤ 5)
end

