-- ==== Sys2Proof/Laws/State.lean ====
section
/-! SUPPORT. The small lemmas of every update of the state: for each update one lemma per field it
writes, and one frame lemma whose conjuncts simp uses as one rewrite rule per field it leaves alone. -/

namespace Sys2Proof.Machine

/-- What `State.setShadow` leaves unchanged. -/
@[simp] theorem State.setShadow_frame (s : State) (a : RegAddr) (v : Byte) :
    (s.setShadow a v).cfg = s.cfg ∧
    (s.setShadow a v).eng = s.eng ∧
    (s.setShadow a v).curW = s.curW ∧
    (s.setShadow a v).fsm = s.fsm ∧
    (s.setShadow a v).ch = s.ch ∧
    (s.setShadow a v).byteIdx = s.byteIdx ∧
    (s.setShadow a v).cs = s.cs ∧
    (s.setShadow a v).resStatus = s.resStatus ∧
    (s.setShadow a v).resData = s.resData ∧
    (s.setShadow a v).hresValid = s.hresValid ∧
    (s.setShadow a v).hcmdValid = s.hcmdValid ∧
    (s.setShadow a v).hcmdWord = s.hcmdWord ∧
    (s.setShadow a v).settleCnt = s.settleCnt ∧
    (s.setShadow a v).drdySync = s.drdySync ∧
    (s.setShadow a v).rdyFlag = s.rdyFlag ∧
    (s.setShadow a v).tmoCnt = s.tmoCnt ∧
    (s.setShadow a v).tickPend = s.tickPend ∧
    (s.setShadow a v).now = s.now ∧
    (s.setShadow a v).chans = s.chans ∧
    (s.setShadow a v).pkt = s.pkt ∧
    (s.setShadow a v).connected = s.connected ∧
    (s.setShadow a v).notifyEn = s.notifyEn ∧
    (s.setShadow a v).ntfStatus = s.ntfStatus ∧
    (s.setShadow a v).kept = s.kept ∧
    (s.setShadow a v).xferFailed = s.xferFailed ∧
    (s.setShadow a v).poll = s.poll ∧
    (s.setShadow a v).phase = s.phase ∧
    (s.setShadow a v).busAnswers = s.busAnswers ∧
    (s.setShadow a v).sinkAnswers = s.sinkAnswers ∧
    (s.setShadow a v).sched = s.sched ∧
    (s.setShadow a v).busTrace = s.busTrace ∧
    (s.setShadow a v).sinkTrace = s.sinkTrace :=
  ⟨rfl, rfl, rfl, rfl, rfl, rfl, rfl, rfl, rfl, rfl, rfl, rfl, rfl, rfl, rfl, rfl, rfl, rfl, rfl, rfl, rfl, rfl, rfl, rfl, rfl, rfl, rfl, rfl, rfl, rfl, rfl, rfl⟩

@[simp] theorem State.setShadow_shadow (s : State) (a : RegAddr) (v : Byte) : (s.setShadow a v).shadow = Memory.write s.cfg.regDefault s.shadow a.toNat v := rfl

/-- What `State.modChan` leaves unchanged. -/
@[simp] theorem State.modChan_frame (s : State) (i : Nat) (f : Chan → Chan) :
    (s.modChan i f).cfg = s.cfg ∧
    (s.modChan i f).eng = s.eng ∧
    (s.modChan i f).curW = s.curW ∧
    (s.modChan i f).fsm = s.fsm ∧
    (s.modChan i f).ch = s.ch ∧
    (s.modChan i f).byteIdx = s.byteIdx ∧
    (s.modChan i f).cs = s.cs ∧
    (s.modChan i f).resStatus = s.resStatus ∧
    (s.modChan i f).resData = s.resData ∧
    (s.modChan i f).hresValid = s.hresValid ∧
    (s.modChan i f).hcmdValid = s.hcmdValid ∧
    (s.modChan i f).hcmdWord = s.hcmdWord ∧
    (s.modChan i f).shadow = s.shadow ∧
    (s.modChan i f).settleCnt = s.settleCnt ∧
    (s.modChan i f).drdySync = s.drdySync ∧
    (s.modChan i f).rdyFlag = s.rdyFlag ∧
    (s.modChan i f).tmoCnt = s.tmoCnt ∧
    (s.modChan i f).tickPend = s.tickPend ∧
    (s.modChan i f).now = s.now ∧
    (s.modChan i f).pkt = s.pkt ∧
    (s.modChan i f).connected = s.connected ∧
    (s.modChan i f).notifyEn = s.notifyEn ∧
    (s.modChan i f).ntfStatus = s.ntfStatus ∧
    (s.modChan i f).kept = s.kept ∧
    (s.modChan i f).xferFailed = s.xferFailed ∧
    (s.modChan i f).poll = s.poll ∧
    (s.modChan i f).phase = s.phase ∧
    (s.modChan i f).busAnswers = s.busAnswers ∧
    (s.modChan i f).sinkAnswers = s.sinkAnswers ∧
    (s.modChan i f).sched = s.sched ∧
    (s.modChan i f).busTrace = s.busTrace ∧
    (s.modChan i f).sinkTrace = s.sinkTrace :=
  ⟨rfl, rfl, rfl, rfl, rfl, rfl, rfl, rfl, rfl, rfl, rfl, rfl, rfl, rfl, rfl, rfl, rfl, rfl, rfl, rfl, rfl, rfl, rfl, rfl, rfl, rfl, rfl, rfl, rfl, rfl, rfl, rfl⟩

@[simp] theorem State.modChan_chans (s : State) (i : Nat) (f : Chan → Chan) : (s.modChan i f).chans = s.chans.modify i f := rfl

/-- What `State.select` leaves unchanged. -/
@[simp] theorem State.select_frame (s : State) :
    (s.select).cfg = s.cfg ∧
    (s.select).eng = s.eng ∧
    (s.select).curW = s.curW ∧
    (s.select).fsm = s.fsm ∧
    (s.select).ch = s.ch ∧
    (s.select).resStatus = s.resStatus ∧
    (s.select).resData = s.resData ∧
    (s.select).hresValid = s.hresValid ∧
    (s.select).hcmdValid = s.hcmdValid ∧
    (s.select).hcmdWord = s.hcmdWord ∧
    (s.select).shadow = s.shadow ∧
    (s.select).settleCnt = s.settleCnt ∧
    (s.select).drdySync = s.drdySync ∧
    (s.select).rdyFlag = s.rdyFlag ∧
    (s.select).tmoCnt = s.tmoCnt ∧
    (s.select).tickPend = s.tickPend ∧
    (s.select).now = s.now ∧
    (s.select).chans = s.chans ∧
    (s.select).pkt = s.pkt ∧
    (s.select).connected = s.connected ∧
    (s.select).notifyEn = s.notifyEn ∧
    (s.select).ntfStatus = s.ntfStatus ∧
    (s.select).poll = s.poll ∧
    (s.select).phase = s.phase ∧
    (s.select).busAnswers = s.busAnswers ∧
    (s.select).sinkAnswers = s.sinkAnswers ∧
    (s.select).sched = s.sched ∧
    (s.select).sinkTrace = s.sinkTrace :=
  ⟨rfl, rfl, rfl, rfl, rfl, rfl, rfl, rfl, rfl, rfl, rfl, rfl, rfl, rfl, rfl, rfl, rfl, rfl, rfl, rfl, rfl, rfl, rfl, rfl, rfl, rfl, rfl, rfl⟩

@[simp] theorem State.select_cs (s : State) : (s.select).cs = true := rfl

@[simp] theorem State.select_byteIdx (s : State) : (s.select).byteIdx = 0 := rfl

@[simp] theorem State.select_kept (s : State) : (s.select).kept = [] := rfl

@[simp] theorem State.select_xferFailed (s : State) : (s.select).xferFailed = false := rfl

@[simp] theorem State.select_busTrace (s : State) : (s.select).busTrace = s.busTrace ++ [.sel] := rfl

/-- What `State.deselect` leaves unchanged. -/
@[simp] theorem State.deselect_frame (s : State) :
    (s.deselect).cfg = s.cfg ∧
    (s.deselect).eng = s.eng ∧
    (s.deselect).curW = s.curW ∧
    (s.deselect).fsm = s.fsm ∧
    (s.deselect).ch = s.ch ∧
    (s.deselect).byteIdx = s.byteIdx ∧
    (s.deselect).resStatus = s.resStatus ∧
    (s.deselect).resData = s.resData ∧
    (s.deselect).hresValid = s.hresValid ∧
    (s.deselect).hcmdValid = s.hcmdValid ∧
    (s.deselect).hcmdWord = s.hcmdWord ∧
    (s.deselect).shadow = s.shadow ∧
    (s.deselect).settleCnt = s.settleCnt ∧
    (s.deselect).drdySync = s.drdySync ∧
    (s.deselect).rdyFlag = s.rdyFlag ∧
    (s.deselect).tmoCnt = s.tmoCnt ∧
    (s.deselect).tickPend = s.tickPend ∧
    (s.deselect).now = s.now ∧
    (s.deselect).chans = s.chans ∧
    (s.deselect).pkt = s.pkt ∧
    (s.deselect).connected = s.connected ∧
    (s.deselect).notifyEn = s.notifyEn ∧
    (s.deselect).ntfStatus = s.ntfStatus ∧
    (s.deselect).poll = s.poll ∧
    (s.deselect).phase = s.phase ∧
    (s.deselect).busAnswers = s.busAnswers ∧
    (s.deselect).sinkAnswers = s.sinkAnswers ∧
    (s.deselect).sched = s.sched ∧
    (s.deselect).sinkTrace = s.sinkTrace :=
  ⟨rfl, rfl, rfl, rfl, rfl, rfl, rfl, rfl, rfl, rfl, rfl, rfl, rfl, rfl, rfl, rfl, rfl, rfl, rfl, rfl, rfl, rfl, rfl, rfl, rfl, rfl, rfl, rfl, rfl⟩

@[simp] theorem State.deselect_cs (s : State) : (s.deselect).cs = false := rfl

@[simp] theorem State.deselect_kept (s : State) : (s.deselect).kept = [] := rfl

@[simp] theorem State.deselect_xferFailed (s : State) : (s.deselect).xferFailed = false := rfl

@[simp] theorem State.deselect_busTrace (s : State) : (s.deselect).busTrace = s.busTrace ++ [.desel] := rfl

/-- What `State.xfer` leaves unchanged. -/
@[simp] theorem State.xfer_frame (s : State) (tx : Byte) (keep : Bool) (ans : Answer) :
    (s.xfer tx keep ans).cfg = s.cfg ∧
    (s.xfer tx keep ans).eng = s.eng ∧
    (s.xfer tx keep ans).curW = s.curW ∧
    (s.xfer tx keep ans).fsm = s.fsm ∧
    (s.xfer tx keep ans).ch = s.ch ∧
    (s.xfer tx keep ans).cs = s.cs ∧
    (s.xfer tx keep ans).resStatus = s.resStatus ∧
    (s.xfer tx keep ans).resData = s.resData ∧
    (s.xfer tx keep ans).hresValid = s.hresValid ∧
    (s.xfer tx keep ans).hcmdValid = s.hcmdValid ∧
    (s.xfer tx keep ans).hcmdWord = s.hcmdWord ∧
    (s.xfer tx keep ans).shadow = s.shadow ∧
    (s.xfer tx keep ans).settleCnt = s.settleCnt ∧
    (s.xfer tx keep ans).drdySync = s.drdySync ∧
    (s.xfer tx keep ans).rdyFlag = s.rdyFlag ∧
    (s.xfer tx keep ans).tmoCnt = s.tmoCnt ∧
    (s.xfer tx keep ans).tickPend = s.tickPend ∧
    (s.xfer tx keep ans).now = s.now ∧
    (s.xfer tx keep ans).chans = s.chans ∧
    (s.xfer tx keep ans).pkt = s.pkt ∧
    (s.xfer tx keep ans).connected = s.connected ∧
    (s.xfer tx keep ans).notifyEn = s.notifyEn ∧
    (s.xfer tx keep ans).ntfStatus = s.ntfStatus ∧
    (s.xfer tx keep ans).poll = s.poll ∧
    (s.xfer tx keep ans).phase = s.phase ∧
    (s.xfer tx keep ans).sinkAnswers = s.sinkAnswers ∧
    (s.xfer tx keep ans).sched = s.sched ∧
    (s.xfer tx keep ans).sinkTrace = s.sinkTrace :=
  ⟨rfl, rfl, rfl, rfl, rfl, rfl, rfl, rfl, rfl, rfl, rfl, rfl, rfl, rfl, rfl, rfl, rfl, rfl, rfl, rfl, rfl, rfl, rfl, rfl, rfl, rfl, rfl, rfl⟩

@[simp] theorem State.xfer_busAnswers (s : State) (tx : Byte) (keep : Bool) (ans : Answer) : (s.xfer tx keep ans).busAnswers = s.busAnswers.tail := rfl

@[simp] theorem State.xfer_byteIdx (s : State) (tx : Byte) (keep : Bool) (ans : Answer) : (s.xfer tx keep ans).byteIdx = s.byteIdx + 1 := rfl

@[simp] theorem State.xfer_kept (s : State) (tx : Byte) (keep : Bool) (ans : Answer) : (s.xfer tx keep ans).kept = if keep && ans.ok then s.kept ++ [ans.rx] else s.kept := rfl

@[simp] theorem State.xfer_xferFailed (s : State) (tx : Byte) (keep : Bool) (ans : Answer) : (s.xfer tx keep ans).xferFailed = !ans.ok := rfl

@[simp] theorem State.xfer_busTrace (s : State) (tx : Byte) (keep : Bool) (ans : Answer) : (s.xfer tx keep ans).busTrace = s.busTrace ++ [.x tx ans.rx ans.ok] := rfl

/-- What `State.respond` leaves unchanged. -/
@[simp] theorem State.respond_frame (s : State) (st : Status) (d : BitVec 32) :
    (s.respond st d).cfg = s.cfg ∧
    (s.respond st d).eng = s.eng ∧
    (s.respond st d).curW = s.curW ∧
    (s.respond st d).fsm = s.fsm ∧
    (s.respond st d).ch = s.ch ∧
    (s.respond st d).byteIdx = s.byteIdx ∧
    (s.respond st d).cs = s.cs ∧
    (s.respond st d).hcmdWord = s.hcmdWord ∧
    (s.respond st d).shadow = s.shadow ∧
    (s.respond st d).settleCnt = s.settleCnt ∧
    (s.respond st d).drdySync = s.drdySync ∧
    (s.respond st d).rdyFlag = s.rdyFlag ∧
    (s.respond st d).tmoCnt = s.tmoCnt ∧
    (s.respond st d).tickPend = s.tickPend ∧
    (s.respond st d).now = s.now ∧
    (s.respond st d).chans = s.chans ∧
    (s.respond st d).pkt = s.pkt ∧
    (s.respond st d).connected = s.connected ∧
    (s.respond st d).notifyEn = s.notifyEn ∧
    (s.respond st d).ntfStatus = s.ntfStatus ∧
    (s.respond st d).kept = s.kept ∧
    (s.respond st d).xferFailed = s.xferFailed ∧
    (s.respond st d).poll = s.poll ∧
    (s.respond st d).phase = s.phase ∧
    (s.respond st d).busAnswers = s.busAnswers ∧
    (s.respond st d).sinkAnswers = s.sinkAnswers ∧
    (s.respond st d).sched = s.sched ∧
    (s.respond st d).busTrace = s.busTrace ∧
    (s.respond st d).sinkTrace = s.sinkTrace :=
  ⟨rfl, rfl, rfl, rfl, rfl, rfl, rfl, rfl, rfl, rfl, rfl, rfl, rfl, rfl, rfl, rfl, rfl, rfl, rfl, rfl, rfl, rfl, rfl, rfl, rfl, rfl, rfl, rfl, rfl⟩

@[simp] theorem State.respond_resStatus (s : State) (st : Status) (d : BitVec 32) : (s.respond st d).resStatus = st := rfl

@[simp] theorem State.respond_resData (s : State) (st : Status) (d : BitVec 32) : (s.respond st d).resData = d := rfl

@[simp] theorem State.respond_hresValid (s : State) (st : Status) (d : BitVec 32) : (s.respond st d).hresValid = true := rfl

@[simp] theorem State.respond_hcmdValid (s : State) (st : Status) (d : BitVec 32) : (s.respond st d).hcmdValid = false := rfl

/-- What `State.calibrate` leaves unchanged. -/
@[simp] theorem State.calibrate_frame (s : State) :
    (s.calibrate).cfg = s.cfg ∧
    (s.calibrate).eng = s.eng ∧
    (s.calibrate).curW = s.curW ∧
    (s.calibrate).fsm = s.fsm ∧
    (s.calibrate).ch = s.ch ∧
    (s.calibrate).byteIdx = s.byteIdx ∧
    (s.calibrate).cs = s.cs ∧
    (s.calibrate).resStatus = s.resStatus ∧
    (s.calibrate).resData = s.resData ∧
    (s.calibrate).hresValid = s.hresValid ∧
    (s.calibrate).hcmdValid = s.hcmdValid ∧
    (s.calibrate).hcmdWord = s.hcmdWord ∧
    (s.calibrate).shadow = s.shadow ∧
    (s.calibrate).settleCnt = s.settleCnt ∧
    (s.calibrate).drdySync = s.drdySync ∧
    (s.calibrate).rdyFlag = s.rdyFlag ∧
    (s.calibrate).tmoCnt = s.tmoCnt ∧
    (s.calibrate).tickPend = s.tickPend ∧
    (s.calibrate).now = s.now ∧
    (s.calibrate).pkt = s.pkt ∧
    (s.calibrate).connected = s.connected ∧
    (s.calibrate).notifyEn = s.notifyEn ∧
    (s.calibrate).ntfStatus = s.ntfStatus ∧
    (s.calibrate).kept = s.kept ∧
    (s.calibrate).xferFailed = s.xferFailed ∧
    (s.calibrate).poll = s.poll ∧
    (s.calibrate).phase = s.phase ∧
    (s.calibrate).busAnswers = s.busAnswers ∧
    (s.calibrate).sinkAnswers = s.sinkAnswers ∧
    (s.calibrate).sched = s.sched ∧
    (s.calibrate).busTrace = s.busTrace ∧
    (s.calibrate).sinkTrace = s.sinkTrace :=
  ⟨rfl, rfl, rfl, rfl, rfl, rfl, rfl, rfl, rfl, rfl, rfl, rfl, rfl, rfl, rfl, rfl, rfl, rfl, rfl, rfl, rfl, rfl, rfl, rfl, rfl, rfl, rfl, rfl, rfl, rfl, rfl, rfl⟩

@[simp] theorem State.calibrate_chans (s : State) : (s.calibrate).chans = s.chans.mapIdx fun i c => if i < s.cfg.n then c.calibrate s.cfg.w (chanScale s.cfg i) else c := rfl

/-- What `State.tareAll` leaves unchanged. -/
@[simp] theorem State.tareAll_frame (s : State) :
    (s.tareAll).cfg = s.cfg ∧
    (s.tareAll).eng = s.eng ∧
    (s.tareAll).curW = s.curW ∧
    (s.tareAll).fsm = s.fsm ∧
    (s.tareAll).ch = s.ch ∧
    (s.tareAll).byteIdx = s.byteIdx ∧
    (s.tareAll).cs = s.cs ∧
    (s.tareAll).resStatus = s.resStatus ∧
    (s.tareAll).resData = s.resData ∧
    (s.tareAll).hresValid = s.hresValid ∧
    (s.tareAll).hcmdValid = s.hcmdValid ∧
    (s.tareAll).hcmdWord = s.hcmdWord ∧
    (s.tareAll).shadow = s.shadow ∧
    (s.tareAll).settleCnt = s.settleCnt ∧
    (s.tareAll).drdySync = s.drdySync ∧
    (s.tareAll).rdyFlag = s.rdyFlag ∧
    (s.tareAll).tmoCnt = s.tmoCnt ∧
    (s.tareAll).tickPend = s.tickPend ∧
    (s.tareAll).now = s.now ∧
    (s.tareAll).pkt = s.pkt ∧
    (s.tareAll).connected = s.connected ∧
    (s.tareAll).notifyEn = s.notifyEn ∧
    (s.tareAll).ntfStatus = s.ntfStatus ∧
    (s.tareAll).kept = s.kept ∧
    (s.tareAll).xferFailed = s.xferFailed ∧
    (s.tareAll).poll = s.poll ∧
    (s.tareAll).phase = s.phase ∧
    (s.tareAll).busAnswers = s.busAnswers ∧
    (s.tareAll).sinkAnswers = s.sinkAnswers ∧
    (s.tareAll).sched = s.sched ∧
    (s.tareAll).busTrace = s.busTrace ∧
    (s.tareAll).sinkTrace = s.sinkTrace :=
  ⟨rfl, rfl, rfl, rfl, rfl, rfl, rfl, rfl, rfl, rfl, rfl, rfl, rfl, rfl, rfl, rfl, rfl, rfl, rfl, rfl, rfl, rfl, rfl, rfl, rfl, rfl, rfl, rfl, rfl, rfl, rfl, rfl⟩

@[simp] theorem State.tareAll_chans (s : State) : (s.tareAll).chans = s.chans.mapIdx fun i c => if i < s.cfg.n then { c with offset := c.raw } else c := rfl

/-- What `State.sinkSend` leaves unchanged. -/
@[simp] theorem State.sinkSend_frame (s : State) (ok : Bool) :
    (s.sinkSend ok).cfg = s.cfg ∧
    (s.sinkSend ok).eng = s.eng ∧
    (s.sinkSend ok).curW = s.curW ∧
    (s.sinkSend ok).fsm = s.fsm ∧
    (s.sinkSend ok).ch = s.ch ∧
    (s.sinkSend ok).byteIdx = s.byteIdx ∧
    (s.sinkSend ok).cs = s.cs ∧
    (s.sinkSend ok).resStatus = s.resStatus ∧
    (s.sinkSend ok).resData = s.resData ∧
    (s.sinkSend ok).hresValid = s.hresValid ∧
    (s.sinkSend ok).hcmdValid = s.hcmdValid ∧
    (s.sinkSend ok).hcmdWord = s.hcmdWord ∧
    (s.sinkSend ok).shadow = s.shadow ∧
    (s.sinkSend ok).settleCnt = s.settleCnt ∧
    (s.sinkSend ok).drdySync = s.drdySync ∧
    (s.sinkSend ok).rdyFlag = s.rdyFlag ∧
    (s.sinkSend ok).tmoCnt = s.tmoCnt ∧
    (s.sinkSend ok).tickPend = s.tickPend ∧
    (s.sinkSend ok).now = s.now ∧
    (s.sinkSend ok).chans = s.chans ∧
    (s.sinkSend ok).pkt = s.pkt ∧
    (s.sinkSend ok).connected = s.connected ∧
    (s.sinkSend ok).notifyEn = s.notifyEn ∧
    (s.sinkSend ok).kept = s.kept ∧
    (s.sinkSend ok).xferFailed = s.xferFailed ∧
    (s.sinkSend ok).poll = s.poll ∧
    (s.sinkSend ok).phase = s.phase ∧
    (s.sinkSend ok).busAnswers = s.busAnswers ∧
    (s.sinkSend ok).sched = s.sched ∧
    (s.sinkSend ok).busTrace = s.busTrace :=
  ⟨rfl, rfl, rfl, rfl, rfl, rfl, rfl, rfl, rfl, rfl, rfl, rfl, rfl, rfl, rfl, rfl, rfl, rfl, rfl, rfl, rfl, rfl, rfl, rfl, rfl, rfl, rfl, rfl, rfl, rfl⟩

@[simp] theorem State.sinkSend_sinkAnswers (s : State) (ok : Bool) : (s.sinkSend ok).sinkAnswers = s.sinkAnswers.tail := rfl

@[simp] theorem State.sinkSend_sinkTrace (s : State) (ok : Bool) : (s.sinkSend ok).sinkTrace = s.sinkTrace ++ [⟨s.packet, ok⟩] := rfl

@[simp] theorem State.sinkSend_ntfStatus (s : State) (ok : Bool) : (s.sinkSend ok).ntfStatus = if ok then .ok else .sinkFailure := rfl

/-- What `State.beginVisit` leaves unchanged. -/
@[simp] theorem State.beginVisit_frame (s : State) (i : Nat) :
    (s.beginVisit i).cfg = s.cfg ∧
    (s.beginVisit i).eng = s.eng ∧
    (s.beginVisit i).curW = s.curW ∧
    (s.beginVisit i).byteIdx = s.byteIdx ∧
    (s.beginVisit i).cs = s.cs ∧
    (s.beginVisit i).resStatus = s.resStatus ∧
    (s.beginVisit i).resData = s.resData ∧
    (s.beginVisit i).hresValid = s.hresValid ∧
    (s.beginVisit i).hcmdValid = s.hcmdValid ∧
    (s.beginVisit i).hcmdWord = s.hcmdWord ∧
    (s.beginVisit i).shadow = s.shadow ∧
    (s.beginVisit i).settleCnt = s.settleCnt ∧
    (s.beginVisit i).drdySync = s.drdySync ∧
    (s.beginVisit i).rdyFlag = s.rdyFlag ∧
    (s.beginVisit i).tmoCnt = s.tmoCnt ∧
    (s.beginVisit i).tickPend = s.tickPend ∧
    (s.beginVisit i).now = s.now ∧
    (s.beginVisit i).pkt = s.pkt ∧
    (s.beginVisit i).connected = s.connected ∧
    (s.beginVisit i).notifyEn = s.notifyEn ∧
    (s.beginVisit i).ntfStatus = s.ntfStatus ∧
    (s.beginVisit i).kept = s.kept ∧
    (s.beginVisit i).xferFailed = s.xferFailed ∧
    (s.beginVisit i).poll = s.poll ∧
    (s.beginVisit i).phase = s.phase ∧
    (s.beginVisit i).busAnswers = s.busAnswers ∧
    (s.beginVisit i).sinkAnswers = s.sinkAnswers ∧
    (s.beginVisit i).sched = s.sched ∧
    (s.beginVisit i).busTrace = s.busTrace ∧
    (s.beginVisit i).sinkTrace = s.sinkTrace :=
  ⟨rfl, rfl, rfl, rfl, rfl, rfl, rfl, rfl, rfl, rfl, rfl, rfl, rfl, rfl, rfl, rfl, rfl, rfl, rfl, rfl, rfl, rfl, rfl, rfl, rfl, rfl, rfl, rfl, rfl, rfl⟩

@[simp] theorem State.beginVisit_chans (s : State) (i : Nat) : (s.beginVisit i).chans = s.chans.modify i (fun c => { c with valid := false }) := rfl

@[simp] theorem State.beginVisit_fsm (s : State) (i : Nat) : (s.beginVisit i).fsm = .selectChannel := rfl

@[simp] theorem State.beginVisit_ch (s : State) (i : Nat) : (s.beginVisit i).ch = BitVec.ofNat 3 i := rfl

/-- What `State.capture` leaves unchanged. -/
@[simp] theorem State.capture_frame (s : State) (raw : BitVec 32) :
    (s.capture raw).cfg = s.cfg ∧
    (s.capture raw).eng = s.eng ∧
    (s.capture raw).curW = s.curW ∧
    (s.capture raw).fsm = s.fsm ∧
    (s.capture raw).ch = s.ch ∧
    (s.capture raw).byteIdx = s.byteIdx ∧
    (s.capture raw).cs = s.cs ∧
    (s.capture raw).resStatus = s.resStatus ∧
    (s.capture raw).resData = s.resData ∧
    (s.capture raw).hresValid = s.hresValid ∧
    (s.capture raw).hcmdValid = s.hcmdValid ∧
    (s.capture raw).hcmdWord = s.hcmdWord ∧
    (s.capture raw).shadow = s.shadow ∧
    (s.capture raw).settleCnt = s.settleCnt ∧
    (s.capture raw).drdySync = s.drdySync ∧
    (s.capture raw).rdyFlag = s.rdyFlag ∧
    (s.capture raw).tmoCnt = s.tmoCnt ∧
    (s.capture raw).tickPend = s.tickPend ∧
    (s.capture raw).now = s.now ∧
    (s.capture raw).pkt = s.pkt ∧
    (s.capture raw).connected = s.connected ∧
    (s.capture raw).notifyEn = s.notifyEn ∧
    (s.capture raw).ntfStatus = s.ntfStatus ∧
    (s.capture raw).kept = s.kept ∧
    (s.capture raw).xferFailed = s.xferFailed ∧
    (s.capture raw).poll = s.poll ∧
    (s.capture raw).phase = s.phase ∧
    (s.capture raw).busAnswers = s.busAnswers ∧
    (s.capture raw).sinkAnswers = s.sinkAnswers ∧
    (s.capture raw).sched = s.sched ∧
    (s.capture raw).busTrace = s.busTrace ∧
    (s.capture raw).sinkTrace = s.sinkTrace :=
  ⟨rfl, rfl, rfl, rfl, rfl, rfl, rfl, rfl, rfl, rfl, rfl, rfl, rfl, rfl, rfl, rfl, rfl, rfl, rfl, rfl, rfl, rfl, rfl, rfl, rfl, rfl, rfl, rfl, rfl, rfl, rfl, rfl⟩

@[simp] theorem State.capture_chans (s : State) (raw : BitVec 32) : (s.capture raw).chans = s.chans.modify s.ch.toNat fun c => { c with raw := raw, ts := s.now, valid := true, err := .ok } := rfl

/-- What `State.enterAwait` leaves unchanged. -/
@[simp] theorem State.enterAwait_frame (s : State) :
    (s.enterAwait).cfg = s.cfg ∧
    (s.enterAwait).eng = s.eng ∧
    (s.enterAwait).curW = s.curW ∧
    (s.enterAwait).ch = s.ch ∧
    (s.enterAwait).byteIdx = s.byteIdx ∧
    (s.enterAwait).cs = s.cs ∧
    (s.enterAwait).resStatus = s.resStatus ∧
    (s.enterAwait).resData = s.resData ∧
    (s.enterAwait).hresValid = s.hresValid ∧
    (s.enterAwait).hcmdValid = s.hcmdValid ∧
    (s.enterAwait).hcmdWord = s.hcmdWord ∧
    (s.enterAwait).shadow = s.shadow ∧
    (s.enterAwait).settleCnt = s.settleCnt ∧
    (s.enterAwait).drdySync = s.drdySync ∧
    (s.enterAwait).rdyFlag = s.rdyFlag ∧
    (s.enterAwait).tickPend = s.tickPend ∧
    (s.enterAwait).now = s.now ∧
    (s.enterAwait).chans = s.chans ∧
    (s.enterAwait).pkt = s.pkt ∧
    (s.enterAwait).connected = s.connected ∧
    (s.enterAwait).notifyEn = s.notifyEn ∧
    (s.enterAwait).ntfStatus = s.ntfStatus ∧
    (s.enterAwait).kept = s.kept ∧
    (s.enterAwait).xferFailed = s.xferFailed ∧
    (s.enterAwait).poll = s.poll ∧
    (s.enterAwait).phase = s.phase ∧
    (s.enterAwait).busAnswers = s.busAnswers ∧
    (s.enterAwait).sinkAnswers = s.sinkAnswers ∧
    (s.enterAwait).sched = s.sched ∧
    (s.enterAwait).busTrace = s.busTrace ∧
    (s.enterAwait).sinkTrace = s.sinkTrace :=
  ⟨rfl, rfl, rfl, rfl, rfl, rfl, rfl, rfl, rfl, rfl, rfl, rfl, rfl, rfl, rfl, rfl, rfl, rfl, rfl, rfl, rfl, rfl, rfl, rfl, rfl, rfl, rfl, rfl, rfl, rfl, rfl⟩

@[simp] theorem State.enterAwait_fsm (s : State) : (s.enterAwait).fsm = .awaitReady := rfl

@[simp] theorem State.enterAwait_tmoCnt (s : State) : (s.enterAwait).tmoCnt = s.cfg.readyTimeout := rfl

/-- What `State.drdyChange` leaves unchanged. -/
@[simp] theorem State.drdyChange_frame (s : State) (b : Bool) :
    (s.drdyChange b).cfg = s.cfg ∧
    (s.drdyChange b).eng = s.eng ∧
    (s.drdyChange b).curW = s.curW ∧
    (s.drdyChange b).fsm = s.fsm ∧
    (s.drdyChange b).ch = s.ch ∧
    (s.drdyChange b).byteIdx = s.byteIdx ∧
    (s.drdyChange b).cs = s.cs ∧
    (s.drdyChange b).resStatus = s.resStatus ∧
    (s.drdyChange b).resData = s.resData ∧
    (s.drdyChange b).hresValid = s.hresValid ∧
    (s.drdyChange b).hcmdValid = s.hcmdValid ∧
    (s.drdyChange b).hcmdWord = s.hcmdWord ∧
    (s.drdyChange b).shadow = s.shadow ∧
    (s.drdyChange b).settleCnt = s.settleCnt ∧
    (s.drdyChange b).tmoCnt = s.tmoCnt ∧
    (s.drdyChange b).tickPend = s.tickPend ∧
    (s.drdyChange b).now = s.now ∧
    (s.drdyChange b).chans = s.chans ∧
    (s.drdyChange b).pkt = s.pkt ∧
    (s.drdyChange b).connected = s.connected ∧
    (s.drdyChange b).notifyEn = s.notifyEn ∧
    (s.drdyChange b).ntfStatus = s.ntfStatus ∧
    (s.drdyChange b).kept = s.kept ∧
    (s.drdyChange b).xferFailed = s.xferFailed ∧
    (s.drdyChange b).poll = s.poll ∧
    (s.drdyChange b).phase = s.phase ∧
    (s.drdyChange b).busAnswers = s.busAnswers ∧
    (s.drdyChange b).sinkAnswers = s.sinkAnswers ∧
    (s.drdyChange b).sched = s.sched ∧
    (s.drdyChange b).busTrace = s.busTrace ∧
    (s.drdyChange b).sinkTrace = s.sinkTrace :=
  ⟨rfl, rfl, rfl, rfl, rfl, rfl, rfl, rfl, rfl, rfl, rfl, rfl, rfl, rfl, rfl, rfl, rfl, rfl, rfl, rfl, rfl, rfl, rfl, rfl, rfl, rfl, rfl, rfl, rfl, rfl, rfl⟩

@[simp] theorem State.drdyChange_drdySync (s : State) (b : Bool) : (s.drdyChange b).drdySync = b := rfl

@[simp] theorem State.drdyChange_rdyFlag (s : State) (b : Bool) : (s.drdyChange b).rdyFlag = if b && !s.drdySync then true else s.rdyFlag := rfl

/-- What `State.msTick` leaves unchanged. -/
@[simp] theorem State.msTick_frame (s : State) :
    (s.msTick).cfg = s.cfg ∧
    (s.msTick).eng = s.eng ∧
    (s.msTick).curW = s.curW ∧
    (s.msTick).fsm = s.fsm ∧
    (s.msTick).ch = s.ch ∧
    (s.msTick).byteIdx = s.byteIdx ∧
    (s.msTick).cs = s.cs ∧
    (s.msTick).resStatus = s.resStatus ∧
    (s.msTick).resData = s.resData ∧
    (s.msTick).hresValid = s.hresValid ∧
    (s.msTick).hcmdValid = s.hcmdValid ∧
    (s.msTick).hcmdWord = s.hcmdWord ∧
    (s.msTick).shadow = s.shadow ∧
    (s.msTick).drdySync = s.drdySync ∧
    (s.msTick).rdyFlag = s.rdyFlag ∧
    (s.msTick).tickPend = s.tickPend ∧
    (s.msTick).chans = s.chans ∧
    (s.msTick).pkt = s.pkt ∧
    (s.msTick).connected = s.connected ∧
    (s.msTick).notifyEn = s.notifyEn ∧
    (s.msTick).ntfStatus = s.ntfStatus ∧
    (s.msTick).kept = s.kept ∧
    (s.msTick).xferFailed = s.xferFailed ∧
    (s.msTick).poll = s.poll ∧
    (s.msTick).phase = s.phase ∧
    (s.msTick).busAnswers = s.busAnswers ∧
    (s.msTick).sinkAnswers = s.sinkAnswers ∧
    (s.msTick).sched = s.sched ∧
    (s.msTick).busTrace = s.busTrace ∧
    (s.msTick).sinkTrace = s.sinkTrace :=
  ⟨rfl, rfl, rfl, rfl, rfl, rfl, rfl, rfl, rfl, rfl, rfl, rfl, rfl, rfl, rfl, rfl, rfl, rfl, rfl, rfl, rfl, rfl, rfl, rfl, rfl, rfl, rfl, rfl, rfl, rfl⟩

@[simp] theorem State.msTick_now (s : State) : (s.msTick).now = s.now + 1 := rfl

@[simp] theorem State.msTick_tmoCnt (s : State) : (s.msTick).tmoCnt = countDown s.tmoCnt := rfl

@[simp] theorem State.msTick_settleCnt (s : State) : (s.msTick).settleCnt = countDown s.settleCnt := rfl

/-- What `State.tick` leaves unchanged. -/
@[simp] theorem State.tick_frame (s : State) :
    (s.tick).cfg = s.cfg ∧
    (s.tick).eng = s.eng ∧
    (s.tick).curW = s.curW ∧
    (s.tick).fsm = s.fsm ∧
    (s.tick).ch = s.ch ∧
    (s.tick).byteIdx = s.byteIdx ∧
    (s.tick).cs = s.cs ∧
    (s.tick).resStatus = s.resStatus ∧
    (s.tick).resData = s.resData ∧
    (s.tick).hresValid = s.hresValid ∧
    (s.tick).hcmdValid = s.hcmdValid ∧
    (s.tick).hcmdWord = s.hcmdWord ∧
    (s.tick).shadow = s.shadow ∧
    (s.tick).settleCnt = s.settleCnt ∧
    (s.tick).drdySync = s.drdySync ∧
    (s.tick).rdyFlag = s.rdyFlag ∧
    (s.tick).tmoCnt = s.tmoCnt ∧
    (s.tick).now = s.now ∧
    (s.tick).chans = s.chans ∧
    (s.tick).pkt = s.pkt ∧
    (s.tick).connected = s.connected ∧
    (s.tick).notifyEn = s.notifyEn ∧
    (s.tick).ntfStatus = s.ntfStatus ∧
    (s.tick).kept = s.kept ∧
    (s.tick).xferFailed = s.xferFailed ∧
    (s.tick).poll = s.poll ∧
    (s.tick).phase = s.phase ∧
    (s.tick).busAnswers = s.busAnswers ∧
    (s.tick).sinkAnswers = s.sinkAnswers ∧
    (s.tick).sched = s.sched ∧
    (s.tick).busTrace = s.busTrace ∧
    (s.tick).sinkTrace = s.sinkTrace :=
  ⟨rfl, rfl, rfl, rfl, rfl, rfl, rfl, rfl, rfl, rfl, rfl, rfl, rfl, rfl, rfl, rfl, rfl, rfl, rfl, rfl, rfl, rfl, rfl, rfl, rfl, rfl, rfl, rfl, rfl, rfl, rfl, rfl⟩

@[simp] theorem State.tick_tickPend (s : State) : (s.tick).tickPend = true := rfl

/-- What `State.disconnect` leaves unchanged. -/
@[simp] theorem State.disconnect_frame (s : State) :
    (s.disconnect).cfg = s.cfg ∧
    (s.disconnect).eng = s.eng ∧
    (s.disconnect).curW = s.curW ∧
    (s.disconnect).fsm = s.fsm ∧
    (s.disconnect).ch = s.ch ∧
    (s.disconnect).byteIdx = s.byteIdx ∧
    (s.disconnect).cs = s.cs ∧
    (s.disconnect).resStatus = s.resStatus ∧
    (s.disconnect).resData = s.resData ∧
    (s.disconnect).hresValid = s.hresValid ∧
    (s.disconnect).hcmdValid = s.hcmdValid ∧
    (s.disconnect).hcmdWord = s.hcmdWord ∧
    (s.disconnect).shadow = s.shadow ∧
    (s.disconnect).settleCnt = s.settleCnt ∧
    (s.disconnect).drdySync = s.drdySync ∧
    (s.disconnect).rdyFlag = s.rdyFlag ∧
    (s.disconnect).tmoCnt = s.tmoCnt ∧
    (s.disconnect).tickPend = s.tickPend ∧
    (s.disconnect).now = s.now ∧
    (s.disconnect).chans = s.chans ∧
    (s.disconnect).pkt = s.pkt ∧
    (s.disconnect).ntfStatus = s.ntfStatus ∧
    (s.disconnect).kept = s.kept ∧
    (s.disconnect).xferFailed = s.xferFailed ∧
    (s.disconnect).poll = s.poll ∧
    (s.disconnect).phase = s.phase ∧
    (s.disconnect).busAnswers = s.busAnswers ∧
    (s.disconnect).sinkAnswers = s.sinkAnswers ∧
    (s.disconnect).sched = s.sched ∧
    (s.disconnect).busTrace = s.busTrace ∧
    (s.disconnect).sinkTrace = s.sinkTrace :=
  ⟨rfl, rfl, rfl, rfl, rfl, rfl, rfl, rfl, rfl, rfl, rfl, rfl, rfl, rfl, rfl, rfl, rfl, rfl, rfl, rfl, rfl, rfl, rfl, rfl, rfl, rfl, rfl, rfl, rfl, rfl, rfl⟩

@[simp] theorem State.disconnect_connected (s : State) : (s.disconnect).connected = false := rfl

@[simp] theorem State.disconnect_notifyEn (s : State) : (s.disconnect).notifyEn = false := rfl

/-- What `State.unsubscribe` leaves unchanged. -/
@[simp] theorem State.unsubscribe_frame (s : State) :
    (s.unsubscribe).cfg = s.cfg ∧
    (s.unsubscribe).eng = s.eng ∧
    (s.unsubscribe).curW = s.curW ∧
    (s.unsubscribe).fsm = s.fsm ∧
    (s.unsubscribe).ch = s.ch ∧
    (s.unsubscribe).byteIdx = s.byteIdx ∧
    (s.unsubscribe).cs = s.cs ∧
    (s.unsubscribe).resStatus = s.resStatus ∧
    (s.unsubscribe).resData = s.resData ∧
    (s.unsubscribe).hresValid = s.hresValid ∧
    (s.unsubscribe).hcmdValid = s.hcmdValid ∧
    (s.unsubscribe).hcmdWord = s.hcmdWord ∧
    (s.unsubscribe).shadow = s.shadow ∧
    (s.unsubscribe).settleCnt = s.settleCnt ∧
    (s.unsubscribe).drdySync = s.drdySync ∧
    (s.unsubscribe).rdyFlag = s.rdyFlag ∧
    (s.unsubscribe).tmoCnt = s.tmoCnt ∧
    (s.unsubscribe).tickPend = s.tickPend ∧
    (s.unsubscribe).now = s.now ∧
    (s.unsubscribe).chans = s.chans ∧
    (s.unsubscribe).pkt = s.pkt ∧
    (s.unsubscribe).connected = s.connected ∧
    (s.unsubscribe).ntfStatus = s.ntfStatus ∧
    (s.unsubscribe).kept = s.kept ∧
    (s.unsubscribe).xferFailed = s.xferFailed ∧
    (s.unsubscribe).poll = s.poll ∧
    (s.unsubscribe).phase = s.phase ∧
    (s.unsubscribe).busAnswers = s.busAnswers ∧
    (s.unsubscribe).sinkAnswers = s.sinkAnswers ∧
    (s.unsubscribe).sched = s.sched ∧
    (s.unsubscribe).busTrace = s.busTrace ∧
    (s.unsubscribe).sinkTrace = s.sinkTrace :=
  ⟨rfl, rfl, rfl, rfl, rfl, rfl, rfl, rfl, rfl, rfl, rfl, rfl, rfl, rfl, rfl, rfl, rfl, rfl, rfl, rfl, rfl, rfl, rfl, rfl, rfl, rfl, rfl, rfl, rfl, rfl, rfl, rfl⟩

@[simp] theorem State.unsubscribe_notifyEn (s : State) : (s.unsubscribe).notifyEn = false := rfl

/-- What `State.present` leaves unchanged. -/
@[simp] theorem State.present_frame (s : State) (w : CmdWord) :
    (s.present w).cfg = s.cfg ∧
    (s.present w).eng = s.eng ∧
    (s.present w).curW = s.curW ∧
    (s.present w).fsm = s.fsm ∧
    (s.present w).ch = s.ch ∧
    (s.present w).byteIdx = s.byteIdx ∧
    (s.present w).cs = s.cs ∧
    (s.present w).resStatus = s.resStatus ∧
    (s.present w).resData = s.resData ∧
    (s.present w).hresValid = s.hresValid ∧
    (s.present w).shadow = s.shadow ∧
    (s.present w).settleCnt = s.settleCnt ∧
    (s.present w).drdySync = s.drdySync ∧
    (s.present w).rdyFlag = s.rdyFlag ∧
    (s.present w).tmoCnt = s.tmoCnt ∧
    (s.present w).tickPend = s.tickPend ∧
    (s.present w).now = s.now ∧
    (s.present w).chans = s.chans ∧
    (s.present w).pkt = s.pkt ∧
    (s.present w).connected = s.connected ∧
    (s.present w).notifyEn = s.notifyEn ∧
    (s.present w).ntfStatus = s.ntfStatus ∧
    (s.present w).kept = s.kept ∧
    (s.present w).xferFailed = s.xferFailed ∧
    (s.present w).poll = s.poll ∧
    (s.present w).phase = s.phase ∧
    (s.present w).busAnswers = s.busAnswers ∧
    (s.present w).sinkAnswers = s.sinkAnswers ∧
    (s.present w).sched = s.sched ∧
    (s.present w).busTrace = s.busTrace ∧
    (s.present w).sinkTrace = s.sinkTrace :=
  ⟨rfl, rfl, rfl, rfl, rfl, rfl, rfl, rfl, rfl, rfl, rfl, rfl, rfl, rfl, rfl, rfl, rfl, rfl, rfl, rfl, rfl, rfl, rfl, rfl, rfl, rfl, rfl, rfl, rfl, rfl, rfl⟩

@[simp] theorem State.present_hcmdValid (s : State) (w : CmdWord) : (s.present w).hcmdValid = true := rfl

@[simp] theorem State.present_hcmdWord (s : State) (w : CmdWord) : (s.present w).hcmdWord = w := rfl

/-- What `State.lowerHres` leaves unchanged. -/
@[simp] theorem State.lowerHres_frame (s : State) :
    (s.lowerHres).cfg = s.cfg ∧
    (s.lowerHres).eng = s.eng ∧
    (s.lowerHres).curW = s.curW ∧
    (s.lowerHres).fsm = s.fsm ∧
    (s.lowerHres).ch = s.ch ∧
    (s.lowerHres).byteIdx = s.byteIdx ∧
    (s.lowerHres).cs = s.cs ∧
    (s.lowerHres).resStatus = s.resStatus ∧
    (s.lowerHres).resData = s.resData ∧
    (s.lowerHres).hcmdValid = s.hcmdValid ∧
    (s.lowerHres).hcmdWord = s.hcmdWord ∧
    (s.lowerHres).shadow = s.shadow ∧
    (s.lowerHres).settleCnt = s.settleCnt ∧
    (s.lowerHres).drdySync = s.drdySync ∧
    (s.lowerHres).rdyFlag = s.rdyFlag ∧
    (s.lowerHres).tmoCnt = s.tmoCnt ∧
    (s.lowerHres).tickPend = s.tickPend ∧
    (s.lowerHres).now = s.now ∧
    (s.lowerHres).chans = s.chans ∧
    (s.lowerHres).pkt = s.pkt ∧
    (s.lowerHres).connected = s.connected ∧
    (s.lowerHres).notifyEn = s.notifyEn ∧
    (s.lowerHres).ntfStatus = s.ntfStatus ∧
    (s.lowerHres).kept = s.kept ∧
    (s.lowerHres).xferFailed = s.xferFailed ∧
    (s.lowerHres).poll = s.poll ∧
    (s.lowerHres).phase = s.phase ∧
    (s.lowerHres).busAnswers = s.busAnswers ∧
    (s.lowerHres).sinkAnswers = s.sinkAnswers ∧
    (s.lowerHres).sched = s.sched ∧
    (s.lowerHres).busTrace = s.busTrace ∧
    (s.lowerHres).sinkTrace = s.sinkTrace :=
  ⟨rfl, rfl, rfl, rfl, rfl, rfl, rfl, rfl, rfl, rfl, rfl, rfl, rfl, rfl, rfl, rfl, rfl, rfl, rfl, rfl, rfl, rfl, rfl, rfl, rfl, rfl, rfl, rfl, rfl, rfl, rfl, rfl⟩

@[simp] theorem State.lowerHres_hresValid (s : State) : (s.lowerHres).hresValid = false := rfl

/-- What `State.acceptHost` leaves unchanged. -/
@[simp] theorem State.acceptHost_frame (s : State) :
    (s.acceptHost).cfg = s.cfg ∧
    (s.acceptHost).fsm = s.fsm ∧
    (s.acceptHost).ch = s.ch ∧
    (s.acceptHost).byteIdx = s.byteIdx ∧
    (s.acceptHost).cs = s.cs ∧
    (s.acceptHost).resStatus = s.resStatus ∧
    (s.acceptHost).resData = s.resData ∧
    (s.acceptHost).hresValid = s.hresValid ∧
    (s.acceptHost).hcmdValid = s.hcmdValid ∧
    (s.acceptHost).hcmdWord = s.hcmdWord ∧
    (s.acceptHost).shadow = s.shadow ∧
    (s.acceptHost).settleCnt = s.settleCnt ∧
    (s.acceptHost).drdySync = s.drdySync ∧
    (s.acceptHost).rdyFlag = s.rdyFlag ∧
    (s.acceptHost).tmoCnt = s.tmoCnt ∧
    (s.acceptHost).tickPend = s.tickPend ∧
    (s.acceptHost).now = s.now ∧
    (s.acceptHost).chans = s.chans ∧
    (s.acceptHost).pkt = s.pkt ∧
    (s.acceptHost).connected = s.connected ∧
    (s.acceptHost).notifyEn = s.notifyEn ∧
    (s.acceptHost).ntfStatus = s.ntfStatus ∧
    (s.acceptHost).kept = s.kept ∧
    (s.acceptHost).xferFailed = s.xferFailed ∧
    (s.acceptHost).poll = s.poll ∧
    (s.acceptHost).phase = s.phase ∧
    (s.acceptHost).busAnswers = s.busAnswers ∧
    (s.acceptHost).sinkAnswers = s.sinkAnswers ∧
    (s.acceptHost).sched = s.sched ∧
    (s.acceptHost).busTrace = s.busTrace ∧
    (s.acceptHost).sinkTrace = s.sinkTrace :=
  ⟨rfl, rfl, rfl, rfl, rfl, rfl, rfl, rfl, rfl, rfl, rfl, rfl, rfl, rfl, rfl, rfl, rfl, rfl, rfl, rfl, rfl, rfl, rfl, rfl, rfl, rfl, rfl, rfl, rfl, rfl, rfl⟩

@[simp] theorem State.acceptHost_eng (s : State) : (s.acceptHost).eng = .host := rfl

@[simp] theorem State.acceptHost_curW (s : State) : (s.acceptHost).curW = s.hcmdWord := rfl

/-- What `State.elapse` leaves unchanged. -/
@[simp] theorem State.elapse_frame (s : State) :
    (s.elapse).cfg = s.cfg ∧
    (s.elapse).eng = s.eng ∧
    (s.elapse).curW = s.curW ∧
    (s.elapse).fsm = s.fsm ∧
    (s.elapse).ch = s.ch ∧
    (s.elapse).byteIdx = s.byteIdx ∧
    (s.elapse).cs = s.cs ∧
    (s.elapse).resStatus = s.resStatus ∧
    (s.elapse).resData = s.resData ∧
    (s.elapse).hresValid = s.hresValid ∧
    (s.elapse).hcmdValid = s.hcmdValid ∧
    (s.elapse).hcmdWord = s.hcmdWord ∧
    (s.elapse).shadow = s.shadow ∧
    (s.elapse).settleCnt = s.settleCnt ∧
    (s.elapse).drdySync = s.drdySync ∧
    (s.elapse).rdyFlag = s.rdyFlag ∧
    (s.elapse).tmoCnt = s.tmoCnt ∧
    (s.elapse).tickPend = s.tickPend ∧
    (s.elapse).now = s.now ∧
    (s.elapse).chans = s.chans ∧
    (s.elapse).pkt = s.pkt ∧
    (s.elapse).connected = s.connected ∧
    (s.elapse).notifyEn = s.notifyEn ∧
    (s.elapse).ntfStatus = s.ntfStatus ∧
    (s.elapse).kept = s.kept ∧
    (s.elapse).xferFailed = s.xferFailed ∧
    (s.elapse).poll = s.poll ∧
    (s.elapse).phase = s.phase ∧
    (s.elapse).busAnswers = s.busAnswers ∧
    (s.elapse).sinkAnswers = s.sinkAnswers ∧
    (s.elapse).busTrace = s.busTrace ∧
    (s.elapse).sinkTrace = s.sinkTrace :=
  ⟨rfl, rfl, rfl, rfl, rfl, rfl, rfl, rfl, rfl, rfl, rfl, rfl, rfl, rfl, rfl, rfl, rfl, rfl, rfl, rfl, rfl, rfl, rfl, rfl, rfl, rfl, rfl, rfl, rfl, rfl, rfl, rfl⟩

@[simp] theorem State.elapse_sched (s : State) : (s.elapse).sched = schedNearer s.sched := rfl

/-- What `State.hasten` leaves unchanged. -/
@[simp] theorem State.hasten_frame (s : State) :
    (s.hasten).cfg = s.cfg ∧
    (s.hasten).eng = s.eng ∧
    (s.hasten).curW = s.curW ∧
    (s.hasten).fsm = s.fsm ∧
    (s.hasten).ch = s.ch ∧
    (s.hasten).byteIdx = s.byteIdx ∧
    (s.hasten).cs = s.cs ∧
    (s.hasten).resStatus = s.resStatus ∧
    (s.hasten).resData = s.resData ∧
    (s.hasten).hresValid = s.hresValid ∧
    (s.hasten).hcmdValid = s.hcmdValid ∧
    (s.hasten).hcmdWord = s.hcmdWord ∧
    (s.hasten).shadow = s.shadow ∧
    (s.hasten).settleCnt = s.settleCnt ∧
    (s.hasten).drdySync = s.drdySync ∧
    (s.hasten).rdyFlag = s.rdyFlag ∧
    (s.hasten).tmoCnt = s.tmoCnt ∧
    (s.hasten).tickPend = s.tickPend ∧
    (s.hasten).now = s.now ∧
    (s.hasten).chans = s.chans ∧
    (s.hasten).pkt = s.pkt ∧
    (s.hasten).connected = s.connected ∧
    (s.hasten).notifyEn = s.notifyEn ∧
    (s.hasten).ntfStatus = s.ntfStatus ∧
    (s.hasten).kept = s.kept ∧
    (s.hasten).xferFailed = s.xferFailed ∧
    (s.hasten).poll = s.poll ∧
    (s.hasten).phase = s.phase ∧
    (s.hasten).busAnswers = s.busAnswers ∧
    (s.hasten).sinkAnswers = s.sinkAnswers ∧
    (s.hasten).busTrace = s.busTrace ∧
    (s.hasten).sinkTrace = s.sinkTrace :=
  ⟨rfl, rfl, rfl, rfl, rfl, rfl, rfl, rfl, rfl, rfl, rfl, rfl, rfl, rfl, rfl, rfl, rfl, rfl, rfl, rfl, rfl, rfl, rfl, rfl, rfl, rfl, rfl, rfl, rfl, rfl, rfl, rfl⟩

@[simp] theorem State.hasten_sched (s : State) : (s.hasten).sched = schedDue s.sched := rfl

/-- What `State.elapseBy` leaves unchanged. -/
@[simp] theorem State.elapseBy_frame (s : State) (k : Nat) :
    (s.elapseBy k).cfg = s.cfg ∧
    (s.elapseBy k).eng = s.eng ∧
    (s.elapseBy k).curW = s.curW ∧
    (s.elapseBy k).fsm = s.fsm ∧
    (s.elapseBy k).ch = s.ch ∧
    (s.elapseBy k).byteIdx = s.byteIdx ∧
    (s.elapseBy k).cs = s.cs ∧
    (s.elapseBy k).resStatus = s.resStatus ∧
    (s.elapseBy k).resData = s.resData ∧
    (s.elapseBy k).hresValid = s.hresValid ∧
    (s.elapseBy k).hcmdValid = s.hcmdValid ∧
    (s.elapseBy k).hcmdWord = s.hcmdWord ∧
    (s.elapseBy k).shadow = s.shadow ∧
    (s.elapseBy k).settleCnt = s.settleCnt ∧
    (s.elapseBy k).drdySync = s.drdySync ∧
    (s.elapseBy k).rdyFlag = s.rdyFlag ∧
    (s.elapseBy k).tmoCnt = s.tmoCnt ∧
    (s.elapseBy k).tickPend = s.tickPend ∧
    (s.elapseBy k).now = s.now ∧
    (s.elapseBy k).chans = s.chans ∧
    (s.elapseBy k).pkt = s.pkt ∧
    (s.elapseBy k).connected = s.connected ∧
    (s.elapseBy k).notifyEn = s.notifyEn ∧
    (s.elapseBy k).ntfStatus = s.ntfStatus ∧
    (s.elapseBy k).kept = s.kept ∧
    (s.elapseBy k).xferFailed = s.xferFailed ∧
    (s.elapseBy k).poll = s.poll ∧
    (s.elapseBy k).phase = s.phase ∧
    (s.elapseBy k).busAnswers = s.busAnswers ∧
    (s.elapseBy k).sinkAnswers = s.sinkAnswers ∧
    (s.elapseBy k).busTrace = s.busTrace ∧
    (s.elapseBy k).sinkTrace = s.sinkTrace :=
  ⟨rfl, rfl, rfl, rfl, rfl, rfl, rfl, rfl, rfl, rfl, rfl, rfl, rfl, rfl, rfl, rfl, rfl, rfl, rfl, rfl, rfl, rfl, rfl, rfl, rfl, rfl, rfl, rfl, rfl, rfl, rfl, rfl⟩

@[simp] theorem State.elapseBy_sched (s : State) (k : Nat) : (s.elapseBy k).sched = schedAfter k s.sched := rfl

/-- What `State.complete` leaves unchanged. -/
@[simp] theorem State.complete_frame (s : State) (st : Status) (d : BitVec 32) :
    (s.complete st d).cfg = s.cfg ∧
    (s.complete st d).curW = s.curW ∧
    (s.complete st d).fsm = s.fsm ∧
    (s.complete st d).ch = s.ch ∧
    (s.complete st d).byteIdx = s.byteIdx ∧
    (s.complete st d).cs = s.cs ∧
    (s.complete st d).hcmdWord = s.hcmdWord ∧
    (s.complete st d).shadow = s.shadow ∧
    (s.complete st d).settleCnt = s.settleCnt ∧
    (s.complete st d).drdySync = s.drdySync ∧
    (s.complete st d).rdyFlag = s.rdyFlag ∧
    (s.complete st d).tmoCnt = s.tmoCnt ∧
    (s.complete st d).tickPend = s.tickPend ∧
    (s.complete st d).now = s.now ∧
    (s.complete st d).chans = s.chans ∧
    (s.complete st d).pkt = s.pkt ∧
    (s.complete st d).connected = s.connected ∧
    (s.complete st d).notifyEn = s.notifyEn ∧
    (s.complete st d).ntfStatus = s.ntfStatus ∧
    (s.complete st d).kept = s.kept ∧
    (s.complete st d).xferFailed = s.xferFailed ∧
    (s.complete st d).poll = s.poll ∧
    (s.complete st d).phase = s.phase ∧
    (s.complete st d).busAnswers = s.busAnswers ∧
    (s.complete st d).sinkAnswers = s.sinkAnswers ∧
    (s.complete st d).sched = s.sched ∧
    (s.complete st d).busTrace = s.busTrace ∧
    (s.complete st d).sinkTrace = s.sinkTrace :=
  by unfold State.complete; split <;> simp

@[simp] theorem State.complete_eng (s : State) (st : Status) (d : BitVec 32) : (s.complete st d).eng = .idle := by
  unfold State.complete; split <;> rfl

/-- What `State.connect` leaves unchanged. -/
@[simp] theorem State.connect_frame (s : State) :
    (s.connect).cfg = s.cfg ∧
    (s.connect).eng = s.eng ∧
    (s.connect).curW = s.curW ∧
    (s.connect).fsm = s.fsm ∧
    (s.connect).ch = s.ch ∧
    (s.connect).byteIdx = s.byteIdx ∧
    (s.connect).cs = s.cs ∧
    (s.connect).resStatus = s.resStatus ∧
    (s.connect).resData = s.resData ∧
    (s.connect).hresValid = s.hresValid ∧
    (s.connect).hcmdValid = s.hcmdValid ∧
    (s.connect).hcmdWord = s.hcmdWord ∧
    (s.connect).shadow = s.shadow ∧
    (s.connect).settleCnt = s.settleCnt ∧
    (s.connect).drdySync = s.drdySync ∧
    (s.connect).rdyFlag = s.rdyFlag ∧
    (s.connect).tmoCnt = s.tmoCnt ∧
    (s.connect).tickPend = s.tickPend ∧
    (s.connect).now = s.now ∧
    (s.connect).chans = s.chans ∧
    (s.connect).pkt = s.pkt ∧
    (s.connect).notifyEn = s.notifyEn ∧
    (s.connect).ntfStatus = s.ntfStatus ∧
    (s.connect).kept = s.kept ∧
    (s.connect).xferFailed = s.xferFailed ∧
    (s.connect).poll = s.poll ∧
    (s.connect).phase = s.phase ∧
    (s.connect).busAnswers = s.busAnswers ∧
    (s.connect).sinkAnswers = s.sinkAnswers ∧
    (s.connect).sched = s.sched ∧
    (s.connect).busTrace = s.busTrace ∧
    (s.connect).sinkTrace = s.sinkTrace :=
  by unfold State.connect; split <;> simp

/-- What `State.subscribe` leaves unchanged. -/
@[simp] theorem State.subscribe_frame (s : State) :
    (s.subscribe).cfg = s.cfg ∧
    (s.subscribe).eng = s.eng ∧
    (s.subscribe).curW = s.curW ∧
    (s.subscribe).fsm = s.fsm ∧
    (s.subscribe).ch = s.ch ∧
    (s.subscribe).byteIdx = s.byteIdx ∧
    (s.subscribe).cs = s.cs ∧
    (s.subscribe).resStatus = s.resStatus ∧
    (s.subscribe).resData = s.resData ∧
    (s.subscribe).hresValid = s.hresValid ∧
    (s.subscribe).hcmdValid = s.hcmdValid ∧
    (s.subscribe).hcmdWord = s.hcmdWord ∧
    (s.subscribe).shadow = s.shadow ∧
    (s.subscribe).settleCnt = s.settleCnt ∧
    (s.subscribe).drdySync = s.drdySync ∧
    (s.subscribe).rdyFlag = s.rdyFlag ∧
    (s.subscribe).tmoCnt = s.tmoCnt ∧
    (s.subscribe).tickPend = s.tickPend ∧
    (s.subscribe).now = s.now ∧
    (s.subscribe).chans = s.chans ∧
    (s.subscribe).pkt = s.pkt ∧
    (s.subscribe).connected = s.connected ∧
    (s.subscribe).ntfStatus = s.ntfStatus ∧
    (s.subscribe).kept = s.kept ∧
    (s.subscribe).xferFailed = s.xferFailed ∧
    (s.subscribe).poll = s.poll ∧
    (s.subscribe).phase = s.phase ∧
    (s.subscribe).busAnswers = s.busAnswers ∧
    (s.subscribe).sinkAnswers = s.sinkAnswers ∧
    (s.subscribe).sched = s.sched ∧
    (s.subscribe).busTrace = s.busTrace ∧
    (s.subscribe).sinkTrace = s.sinkTrace :=
  by unfold State.subscribe; split <;> simp

@[simp] theorem State.connect_connected (s : State) : (s.connect).connected = true := by
  unfold State.connect; split <;> simp_all

/-- What `State.store16` leaves unchanged. -/
@[simp] theorem State.store16_frame (s : State) (o : Nat) (f : BitVec 16) :
    (s.store16 o f).cfg = s.cfg ∧
    (s.store16 o f).eng = s.eng ∧
    (s.store16 o f).curW = s.curW ∧
    (s.store16 o f).fsm = s.fsm ∧
    (s.store16 o f).ch = s.ch ∧
    (s.store16 o f).byteIdx = s.byteIdx ∧
    (s.store16 o f).cs = s.cs ∧
    (s.store16 o f).resStatus = s.resStatus ∧
    (s.store16 o f).resData = s.resData ∧
    (s.store16 o f).hresValid = s.hresValid ∧
    (s.store16 o f).hcmdValid = s.hcmdValid ∧
    (s.store16 o f).hcmdWord = s.hcmdWord ∧
    (s.store16 o f).shadow = s.shadow ∧
    (s.store16 o f).settleCnt = s.settleCnt ∧
    (s.store16 o f).drdySync = s.drdySync ∧
    (s.store16 o f).rdyFlag = s.rdyFlag ∧
    (s.store16 o f).tmoCnt = s.tmoCnt ∧
    (s.store16 o f).tickPend = s.tickPend ∧
    (s.store16 o f).now = s.now ∧
    (s.store16 o f).chans = s.chans ∧
    (s.store16 o f).connected = s.connected ∧
    (s.store16 o f).notifyEn = s.notifyEn ∧
    (s.store16 o f).ntfStatus = s.ntfStatus ∧
    (s.store16 o f).kept = s.kept ∧
    (s.store16 o f).xferFailed = s.xferFailed ∧
    (s.store16 o f).poll = s.poll ∧
    (s.store16 o f).phase = s.phase ∧
    (s.store16 o f).busAnswers = s.busAnswers ∧
    (s.store16 o f).sinkAnswers = s.sinkAnswers ∧
    (s.store16 o f).sched = s.sched ∧
    (s.store16 o f).busTrace = s.busTrace ∧
    (s.store16 o f).sinkTrace = s.sinkTrace :=
  ⟨rfl, rfl, rfl, rfl, rfl, rfl, rfl, rfl, rfl, rfl, rfl, rfl, rfl, rfl, rfl, rfl, rfl, rfl, rfl, rfl, rfl, rfl, rfl, rfl, rfl, rfl, rfl, rfl, rfl, rfl, rfl, rfl⟩

/-- What `State.advance` leaves unchanged. -/
@[simp] theorem State.advance_frame (s : State) :
    (s.advance).cfg = s.cfg ∧
    (s.advance).eng = s.eng ∧
    (s.advance).curW = s.curW ∧
    (s.advance).byteIdx = s.byteIdx ∧
    (s.advance).cs = s.cs ∧
    (s.advance).resStatus = s.resStatus ∧
    (s.advance).resData = s.resData ∧
    (s.advance).hresValid = s.hresValid ∧
    (s.advance).hcmdValid = s.hcmdValid ∧
    (s.advance).hcmdWord = s.hcmdWord ∧
    (s.advance).shadow = s.shadow ∧
    (s.advance).settleCnt = s.settleCnt ∧
    (s.advance).drdySync = s.drdySync ∧
    (s.advance).rdyFlag = s.rdyFlag ∧
    (s.advance).tmoCnt = s.tmoCnt ∧
    (s.advance).tickPend = s.tickPend ∧
    (s.advance).now = s.now ∧
    (s.advance).pkt = s.pkt ∧
    (s.advance).connected = s.connected ∧
    (s.advance).notifyEn = s.notifyEn ∧
    (s.advance).ntfStatus = s.ntfStatus ∧
    (s.advance).kept = s.kept ∧
    (s.advance).xferFailed = s.xferFailed ∧
    (s.advance).poll = s.poll ∧
    (s.advance).busAnswers = s.busAnswers ∧
    (s.advance).sinkAnswers = s.sinkAnswers ∧
    (s.advance).sched = s.sched ∧
    (s.advance).busTrace = s.busTrace ∧
    (s.advance).sinkTrace = s.sinkTrace :=
  by unfold State.advance; split <;> simp

/-- What `State.abortVisit` leaves unchanged. -/
@[simp] theorem State.abortVisit_frame (s : State) (st : Status) :
    (s.abortVisit st).cfg = s.cfg ∧
    (s.abortVisit st).eng = s.eng ∧
    (s.abortVisit st).curW = s.curW ∧
    (s.abortVisit st).byteIdx = s.byteIdx ∧
    (s.abortVisit st).cs = s.cs ∧
    (s.abortVisit st).resStatus = s.resStatus ∧
    (s.abortVisit st).resData = s.resData ∧
    (s.abortVisit st).hresValid = s.hresValid ∧
    (s.abortVisit st).hcmdValid = s.hcmdValid ∧
    (s.abortVisit st).hcmdWord = s.hcmdWord ∧
    (s.abortVisit st).shadow = s.shadow ∧
    (s.abortVisit st).settleCnt = s.settleCnt ∧
    (s.abortVisit st).drdySync = s.drdySync ∧
    (s.abortVisit st).rdyFlag = s.rdyFlag ∧
    (s.abortVisit st).tmoCnt = s.tmoCnt ∧
    (s.abortVisit st).tickPend = s.tickPend ∧
    (s.abortVisit st).now = s.now ∧
    (s.abortVisit st).pkt = s.pkt ∧
    (s.abortVisit st).connected = s.connected ∧
    (s.abortVisit st).notifyEn = s.notifyEn ∧
    (s.abortVisit st).ntfStatus = s.ntfStatus ∧
    (s.abortVisit st).kept = s.kept ∧
    (s.abortVisit st).xferFailed = s.xferFailed ∧
    (s.abortVisit st).poll = s.poll ∧
    (s.abortVisit st).busAnswers = s.busAnswers ∧
    (s.abortVisit st).sinkAnswers = s.sinkAnswers ∧
    (s.abortVisit st).sched = s.sched ∧
    (s.abortVisit st).busTrace = s.busTrace ∧
    (s.abortVisit st).sinkTrace = s.sinkTrace :=
  by unfold State.abortVisit; simp

/-- What `State.finishCycle` leaves unchanged. -/
@[simp] theorem State.finishCycle_frame (s : State) :
    (s.finishCycle).cfg = s.cfg ∧
    (s.finishCycle).curW = s.curW ∧
    (s.finishCycle).ch = s.ch ∧
    (s.finishCycle).byteIdx = s.byteIdx ∧
    (s.finishCycle).cs = s.cs ∧
    (s.finishCycle).hcmdWord = s.hcmdWord ∧
    (s.finishCycle).shadow = s.shadow ∧
    (s.finishCycle).settleCnt = s.settleCnt ∧
    (s.finishCycle).drdySync = s.drdySync ∧
    (s.finishCycle).rdyFlag = s.rdyFlag ∧
    (s.finishCycle).tmoCnt = s.tmoCnt ∧
    (s.finishCycle).tickPend = s.tickPend ∧
    (s.finishCycle).now = s.now ∧
    (s.finishCycle).chans = s.chans ∧
    (s.finishCycle).pkt = s.pkt ∧
    (s.finishCycle).connected = s.connected ∧
    (s.finishCycle).notifyEn = s.notifyEn ∧
    (s.finishCycle).ntfStatus = s.ntfStatus ∧
    (s.finishCycle).kept = s.kept ∧
    (s.finishCycle).xferFailed = s.xferFailed ∧
    (s.finishCycle).poll = s.poll ∧
    (s.finishCycle).busAnswers = s.busAnswers ∧
    (s.finishCycle).sinkAnswers = s.sinkAnswers ∧
    (s.finishCycle).sched = s.sched ∧
    (s.finishCycle).busTrace = s.busTrace ∧
    (s.finishCycle).sinkTrace = s.sinkTrace :=
  by unfold State.finishCycle; simp

@[simp] theorem State.finishCycle_fsm (s : State) : (s.finishCycle).fsm = .idle := by
  unfold State.finishCycle; simp

@[simp] theorem State.finishCycle_phase (s : State) : (s.finishCycle).phase = .calibrate := by
  unfold State.finishCycle; simp

@[simp] theorem State.finishCycle_eng (s : State) : (s.finishCycle).eng = .idle := by
  unfold State.finishCycle; simp

/-- What storing the channel fields one after the other leaves unchanged. -/
theorem State.storeAll_frame (g : Nat → BitVec 16) (l : List Nat) (s : State) :
    ∃ p, l.foldl (fun t i => t.store16 (2 + 2 * i) (g i)) s = { s with pkt := p } := by
  induction l generalizing s with
  | nil => exact ⟨s.pkt, rfl⟩
  | cons i l ih =>
    obtain ⟨p, hp⟩ := ih (s.store16 (2 + 2 * i) (g i))
    exact ⟨p, hp⟩

/-- The encode step writes `PKT` only. -/
theorem State.encodePacket_pkt_only (s : State) : ∃ p, s.encodePacket = { s with pkt := p } := by
  obtain ⟨p, hp⟩ := State.storeAll_frame (fun i => BitVec.ofInt 16 (s.chan i).packetValue)
    (List.range s.cfg.n) (s.store16 0 (s.now.setWidth 16))
  exact ⟨p, hp⟩

/-- What `State.encodePacket` leaves unchanged. -/
@[simp] theorem State.encodePacket_frame (s : State) :
    (s.encodePacket).cfg = s.cfg ∧
    (s.encodePacket).eng = s.eng ∧
    (s.encodePacket).curW = s.curW ∧
    (s.encodePacket).fsm = s.fsm ∧
    (s.encodePacket).ch = s.ch ∧
    (s.encodePacket).byteIdx = s.byteIdx ∧
    (s.encodePacket).cs = s.cs ∧
    (s.encodePacket).resStatus = s.resStatus ∧
    (s.encodePacket).resData = s.resData ∧
    (s.encodePacket).hresValid = s.hresValid ∧
    (s.encodePacket).hcmdValid = s.hcmdValid ∧
    (s.encodePacket).hcmdWord = s.hcmdWord ∧
    (s.encodePacket).shadow = s.shadow ∧
    (s.encodePacket).settleCnt = s.settleCnt ∧
    (s.encodePacket).drdySync = s.drdySync ∧
    (s.encodePacket).rdyFlag = s.rdyFlag ∧
    (s.encodePacket).tmoCnt = s.tmoCnt ∧
    (s.encodePacket).tickPend = s.tickPend ∧
    (s.encodePacket).now = s.now ∧
    (s.encodePacket).chans = s.chans ∧
    (s.encodePacket).connected = s.connected ∧
    (s.encodePacket).notifyEn = s.notifyEn ∧
    (s.encodePacket).ntfStatus = s.ntfStatus ∧
    (s.encodePacket).kept = s.kept ∧
    (s.encodePacket).xferFailed = s.xferFailed ∧
    (s.encodePacket).poll = s.poll ∧
    (s.encodePacket).phase = s.phase ∧
    (s.encodePacket).busAnswers = s.busAnswers ∧
    (s.encodePacket).sinkAnswers = s.sinkAnswers ∧
    (s.encodePacket).sched = s.sched ∧
    (s.encodePacket).busTrace = s.busTrace ∧
    (s.encodePacket).sinkTrace = s.sinkTrace :=
  by obtain ⟨p, hp⟩ := s.encodePacket_pkt_only; simp [hp]

/-- Setting shadow registers one after the other writes `SHADOW` only. -/
theorem State.setShadows_shadow_only (g : State → RegAddr → Byte) (l : List RegAddr) (s : State) :
    ∃ m, l.foldl (fun t a => t.setShadow a (g t a)) s = { s with shadow := m } := by
  induction l generalizing s with
  | nil => exact ⟨s.shadow, rfl⟩
  | cons a l ih =>
    obtain ⟨m, hm⟩ := ih (s.setShadow a (g s a))
    exact ⟨m, hm⟩

/-- What `State.resetDevice` leaves unchanged. -/
@[simp] theorem State.resetDevice_frame (s : State) :
    (s.resetDevice).cfg = s.cfg ∧
    (s.resetDevice).eng = s.eng ∧
    (s.resetDevice).curW = s.curW ∧
    (s.resetDevice).fsm = s.fsm ∧
    (s.resetDevice).ch = s.ch ∧
    (s.resetDevice).byteIdx = s.byteIdx ∧
    (s.resetDevice).cs = s.cs ∧
    (s.resetDevice).resStatus = s.resStatus ∧
    (s.resetDevice).resData = s.resData ∧
    (s.resetDevice).hresValid = s.hresValid ∧
    (s.resetDevice).hcmdValid = s.hcmdValid ∧
    (s.resetDevice).hcmdWord = s.hcmdWord ∧
    (s.resetDevice).drdySync = s.drdySync ∧
    (s.resetDevice).rdyFlag = s.rdyFlag ∧
    (s.resetDevice).tmoCnt = s.tmoCnt ∧
    (s.resetDevice).tickPend = s.tickPend ∧
    (s.resetDevice).now = s.now ∧
    (s.resetDevice).chans = s.chans ∧
    (s.resetDevice).pkt = s.pkt ∧
    (s.resetDevice).connected = s.connected ∧
    (s.resetDevice).notifyEn = s.notifyEn ∧
    (s.resetDevice).ntfStatus = s.ntfStatus ∧
    (s.resetDevice).kept = s.kept ∧
    (s.resetDevice).xferFailed = s.xferFailed ∧
    (s.resetDevice).poll = s.poll ∧
    (s.resetDevice).phase = s.phase ∧
    (s.resetDevice).busAnswers = s.busAnswers ∧
    (s.resetDevice).sinkAnswers = s.sinkAnswers ∧
    (s.resetDevice).sched = s.sched ∧
    (s.resetDevice).busTrace = s.busTrace ∧
    (s.resetDevice).sinkTrace = s.sinkTrace :=
  by
  obtain ⟨m, hm⟩ := State.setShadows_shadow_only (fun t a => t.cfg.regDefault a.toNat) s.cfg.regAddrs s
  simp [State.resetDevice, hm]

@[simp] theorem State.resetDevice_settleCnt (s : State) : (s.resetDevice).settleCnt = s.cfg.resetSettle := rfl

end Sys2Proof.Machine
end

