-- ==== Sys2Proof/Laws/Memory.lean ====
section
/-! SUPPORT. The laws of a memory in canonical form: a read after a write, every other location, and
that a write keeps the form and the set of locations. -/

namespace Sys2Proof.Machine

variable {d : Nat → Byte}

/-- A location below every listed one reads as its reset contents. -/
theorem Memory.read_unlisted (m : Memory) (a : Nat) (h : ∀ c ∈ m, c.1 ≠ a) :
    Memory.read d m a = d a := by
  induction m with
  | nil => rfl
  | cons c m ih =>
    have hc : c.1 ≠ a := h c (by simp)
    simp [Memory.read, hc, ih fun x hx => h x (by simp [hx])]

theorem Memory.read_insert (m : Memory) (a b : Nat) (v : Byte) :
    Memory.read d (Memory.insert a v m) b = if a = b then v else Memory.read d m b := by
  induction m with
  | nil => simp [Memory.insert, Memory.read]
  | cons c m ih =>
    obtain ⟨x, u⟩ := c
    unfold Memory.insert
    split
    · simp [Memory.read]
    · split
      · subst x; simp only [Memory.read]; split <;> simp_all
      · simp only [Memory.read, ih]; split <;> split <;> simp_all

/-- In a canonical memory the listed addresses are distinct, so unlisting one restores its reset
contents and touches no other. -/
theorem Memory.read_erase (m : Memory) (a b : Nat) (h : Memory.wf d m = true) :
    Memory.read d (Memory.erase a m) b = if a = b then d a else Memory.read d m b := by
  induction m with
  | nil =>
    by_cases hab : a = b
    · subst hab; simp [Memory.erase, Memory.read]
    · simp [Memory.erase, Memory.read, hab]
  | cons c m ih =>
    obtain ⟨x, u⟩ := c
    simp only [Memory.wf, Bool.and_eq_true, List.all_eq_true, decide_eq_true_eq] at h
    obtain ⟨⟨-, hlt⟩, hm⟩ := h
    by_cases hax : a = x
    · subst hax
      simp only [Memory.erase, Memory.read]
      by_cases hab : a = b
      · subst hab
        simp [Memory.read_unlisted m a fun c hc => Nat.ne_of_gt (hlt c hc)]
      · simp [hab]
    · simp only [Memory.erase, hax, if_false, Memory.read, ih hm]
      by_cases hxb : x = b
      · subst hxb; simp [hax]
      · simp [hxb]

/-- A read after a write to the same location gives the value, and every other location is alone. -/
theorem Memory.read_write (m : Memory) (a b : Nat) (v : Byte) (h : Memory.wf d m = true) :
    Memory.read d (Memory.write d m a v) b = if a = b then v else Memory.read d m b := by
  unfold Memory.write
  split
  · next hv => rw [Memory.read_erase m a b h, hv]
  · exact Memory.read_insert m a b v

theorem Memory.mem_insert {m : Memory} {a : Nat} {v : Byte} {c : Host.Cell} (h : c ∈ Memory.insert a v m) :
    c = (a, v) ∨ c ∈ m := by
  induction m with
  | nil => simp [Memory.insert] at h; simp [h]
  | cons x m ih =>
    unfold Memory.insert at h
    split at h
    · simpa using h
    · split at h
      · rcases List.mem_cons.1 h with h | h
        · exact .inl h
        · exact .inr (List.mem_cons_of_mem _ h)
      · rcases List.mem_cons.1 h with h | h
        · exact .inr (h ▸ List.mem_cons_self ..)
        · rcases ih h with h | h
          · exact .inl h
          · exact .inr (List.mem_cons_of_mem _ h)

theorem Memory.mem_erase {m : Memory} {a : Nat} {c : Host.Cell} (h : c ∈ Memory.erase a m) : c ∈ m := by
  induction m with
  | nil => simp [Memory.erase] at h
  | cons x m ih =>
    unfold Memory.erase at h
    split at h
    · exact List.mem_cons_of_mem _ h
    · rcases List.mem_cons.1 h with h | h
      · exact h ▸ List.mem_cons_self ..
      · exact List.mem_cons_of_mem _ (ih h)

/-- A write lists no location but the one it writes. -/
theorem Memory.mem_write {m : Memory} {a : Nat} {v : Byte} {c : Host.Cell}
    (h : c ∈ Memory.write d m a v) : c.1 = a ∨ c ∈ m := by
  unfold Memory.write at h
  split at h
  · exact .inr (Memory.mem_erase h)
  · rcases Memory.mem_insert h with h | h
    · exact .inl (by rw [h])
    · exact .inr h

theorem Memory.wf_cons (a : Nat) (v : Byte) (m : Memory) :
    Memory.wf d ((a, v) :: m) = true ↔ v ≠ d a ∧ (∀ c ∈ m, a < c.1) ∧ Memory.wf d m = true := by
  simp [Memory.wf, and_assoc]

theorem Memory.wf_insert (m : Memory) (a : Nat) (v : Byte) (h : Memory.wf d m = true) (hv : v ≠ d a) :
    Memory.wf d (Memory.insert a v m) = true := by
  induction m with
  | nil => simp [Memory.insert, Memory.wf, hv]
  | cons c m ih =>
    obtain ⟨b, u⟩ := c
    obtain ⟨hu, hlt, hm⟩ := (Memory.wf_cons b u m).1 h
    unfold Memory.insert
    split
    · next hab =>
      refine (Memory.wf_cons a v _).2 ⟨hv, ?_, h⟩
      intro c hc
      rcases List.mem_cons.1 hc with hc | hc
      · rw [hc]; exact hab
      · exact Nat.lt_trans hab (hlt c hc)
    · split
      · next hab =>
        subst hab
        exact (Memory.wf_cons a v m).2 ⟨hv, hlt, hm⟩
      · next hab hne =>
        refine (Memory.wf_cons b u _).2 ⟨hu, ?_, ih hm⟩
        intro c hc
        rcases Memory.mem_insert hc with hc | hc
        · rw [hc]; simp only; omega
        · exact hlt c hc

theorem Memory.wf_erase (m : Memory) (a : Nat) (h : Memory.wf d m = true) :
    Memory.wf d (Memory.erase a m) = true := by
  induction m with
  | nil => rfl
  | cons c m ih =>
    obtain ⟨b, u⟩ := c
    obtain ⟨hu, hlt, hm⟩ := (Memory.wf_cons b u m).1 h
    unfold Memory.erase
    split
    · exact hm
    · exact (Memory.wf_cons b u _).2 ⟨hu, fun c hc => hlt c (Memory.mem_erase hc), ih hm⟩

/-- A write keeps the canonical form. -/
theorem Memory.wf_write (m : Memory) (a : Nat) (v : Byte) (h : Memory.wf d m = true) :
    Memory.wf d (Memory.write d m a v) = true := by
  unfold Memory.write
  split
  · exact Memory.wf_erase m a h
  · next hv => exact Memory.wf_insert m a v h hv

/-- The memories after reset are canonical: they list nothing. -/
theorem State.resetWith_memories (c : Cfg) :
    (State.resetWith c).shadow = [] ∧ (State.resetWith c).pkt = [] := ⟨rfl, rfl⟩

end Sys2Proof.Machine
end

