-- ==== Sys2Proof/Laws/Ops.lean ====
section
/-! SUPPORT. What the shared operations can do, said once: the engine step of a command cycle, the loop
that drives an operation, the passing of engine steps for the next event, and completion. -/

namespace Sys2Proof.Machine

/-! ## The schedule -/

theorem State.calm_mono {s : State} {k l : Nat} (h : s.calm l = true) (hkl : k ≤ l) : s.calm k = true := by
  unfold State.calm at *
  cases hs : s.sched with
  | nil => simp
  | cons e es => simp [hs] at h ⊢; omega

theorem State.not_eventDue_of_calm {s : State} {k : Nat} (h : s.calm (k + 1) = true) : s.eventDue = false := by
  unfold State.calm at h
  unfold State.eventDue
  cases hs : s.sched with
  | nil => rfl
  | cons e es => simp [hs] at h ⊢; omega

theorem State.calm_elapse {s : State} {k : Nat} (h : s.calm (k + 1) = true) : s.elapse.calm k = true := by
  unfold State.calm at *
  cases hs : s.sched with
  | nil => simp [hs, schedNearer]
  | cons e es => simp [hs, schedNearer] at h ⊢; omega

@[simp] theorem schedAfter_zero (l : List Scheduled) : schedAfter 0 l = l := by
  cases l <;> rfl

@[simp] theorem schedNearer_schedAfter (k : Nat) (l : List Scheduled) :
    schedNearer (schedAfter k l) = schedAfter (k + 1) l := by
  cases l <;> simp [schedNearer, schedAfter, Nat.sub_sub]

/-- The schedule of a calm state after fewer steps is still not due. -/
theorem State.eventDue_schedAfter {s : State} {j k : Nat} (h : s.calm k = true) (hj : j < k) {t : State}
    (ht : t.sched = schedAfter j s.sched) : t.eventDue = false := by
  unfold State.calm at h
  unfold State.eventDue
  rw [ht]
  cases hs : s.sched with
  | nil => rfl
  | cons e es => simp [hs, schedAfter] at h ⊢; omega

/-- Two states with the same schedule are calm alike. -/
theorem State.calm_congr {s t : State} (h : t.sched = s.sched) (k : Nat) : t.calm k = s.calm k := by
  unfold State.calm; rw [h]

theorem State.eventDue_congr {s t : State} (h : t.sched = s.sched) : t.eventDue = s.eventDue := by
  unfold State.eventDue; rw [h]

/-! ## Completion -/

/-- The two ways an operation completes (40 R103). -/
theorem State.complete_cases (s : State) (st : Status) (d : BitVec 32) :
    (s.eng = .tick ∧ s.complete st d = { s with eng := .idle }) ∨
    (s.eng ≠ .tick ∧ s.complete st d = { s.respond st d with eng := .idle }) := by
  unfold State.complete
  cases h : s.eng with
  | idle => exact .inr ⟨by simp, rfl⟩
  | host => exact .inr ⟨by simp, rfl⟩
  | tick => exact .inl ⟨rfl, rfl⟩

theorem State.complete_of_host {s : State} (h : s.eng = .host) (st : Status) (d : BitVec 32) :
    s.complete st d = { s.respond st d with eng := .idle } := by
  unfold State.complete; rw [h]

theorem State.complete_of_tick {s : State} (h : s.eng = .tick) (st : Status) (d : BitVec 32) :
    s.complete st d = { s with eng := .idle } := by
  unfold State.complete; rw [h]

/-! ## A command cycle -/

/-- Everything an engine step of a command cycle can be (40 R105). -/
theorem frameStep_cases (frame : Frame) (finish : Status → List Byte → State → EngineStep) (s : State) :
    (s.cs = false ∧ frameStep frame finish s = .go s.select) ∨
    (s.cs = true ∧ s.xferFailed = true ∧
      frameStep frame finish s = finish .transportFailure [] s.deselect) ∨
    (s.cs = true ∧ s.xferFailed = false ∧ frame[s.byteIdx.toNat]? = none ∧
      frameStep frame finish s = finish .ok s.kept s.deselect) ∨
    (∃ tx keep ans rest, s.cs = true ∧ s.xferFailed = false ∧
      frame[s.byteIdx.toNat]? = some (tx, keep) ∧ s.busAnswers = ans :: rest ∧
      frameStep frame finish s = .go (s.xfer tx keep ans)) ∨
    (∃ x, s.cs = true ∧ s.xferFailed = false ∧ frame[s.byteIdx.toNat]? = some x ∧ s.busAnswers = [] ∧
      frameStep frame finish s = .wait) := by
  unfold frameStep
  cases hcs : s.cs with
  | false => exact .inl ⟨rfl, rfl⟩
  | true =>
    cases hf : s.xferFailed with
    | true => exact .inr (.inl ⟨rfl, rfl, rfl⟩)
    | false =>
      cases hx : frame[s.byteIdx.toNat]? with
      | none => exact .inr (.inr (.inl ⟨rfl, rfl, rfl, rfl⟩))
      | some p =>
        cases hb : s.busAnswers with
        | nil => exact .inr (.inr (.inr (.inr ⟨p, rfl, rfl, rfl, rfl, rfl⟩)))
        | cons ans rest => exact .inr (.inr (.inr (.inl ⟨p.1, p.2, ans, rest, rfl, rfl, rfl, rfl, rfl⟩)))

/-! ## The loop -/

@[simp] theorem drive_zero (f : State → EngineStep) (s : State) : drive f 0 s = s := rfl

theorem drive_due (f : State → EngineStep) (n : Nat) (s : State) (h : s.eventDue = true) :
    drive f n s = s := by
  cases n <;> simp [drive, h]

theorem drive_go {f : State → EngineStep} {n : Nat} {s t : State} (h : s.eventDue = false)
    (hf : f s = .go t) : drive f (n + 1) s = drive f n t.elapse := by
  simp [drive, h, hf]

theorem drive_done {f : State → EngineStep} {n : Nat} {s t : State} (h : s.eventDue = false)
    (hf : f s = .done t) : drive f (n + 1) s = t.elapse := by
  simp [drive, h, hf]

theorem drive_wait {f : State → EngineStep} {n : Nat} {s : State} (h : s.eventDue = false)
    (hf : f s = .wait) : drive f (n + 1) s = s.hasten := by
  simp [drive, h, hf]

/-- A property that every step of an operation keeps, and that neither the completing step nor the
passing of time breaks, holds after any number of them. -/
theorem drive_induction {f : State → EngineStep} {P : State → Prop}
    (hgo : ∀ s t, P s → f s = .go t → P t) (hdone : ∀ s t, P s → f s = .done t → P t)
    (helapse : ∀ s, P s → P s.elapse) (hhasten : ∀ s, P s → P s.hasten) (n : Nat) :
    ∀ s, P s → P (drive f n s) := by
  induction n with
  | zero => intro s hs; exact hs
  | succ n ih =>
    intro s hs
    unfold drive
    split
    · exact hs
    · cases hf : f s with
      | go t => exact ih _ (helapse _ (hgo s t hs hf))
      | done t => exact helapse _ (hdone s t hs hf)
      | wait => exact hhasten _ hs

/-- Running an operation gives the state its loop ends in. -/
theorem runOperation_eq {f : State → EngineStep} {s t : State} :
    runOperation f s = .next t ↔ drive f s.fuel s = t := by
  unfold runOperation
  constructor
  · intro h; injection h
  · intro h; rw [h]

/-- With the next event one engine step away, an operation takes exactly that step. -/
theorem runOperation_one_step {f : State → EngineStep} {s t : State} (h : s.eventAfter 1)
    (hf : f s = .go t) (ht : t.sched = s.sched) : runOperation f s = .next t.elapse := by
  rw [runOperation_eq]
  obtain ⟨n, hn⟩ : ∃ n, s.fuel = n + 1 := ⟨16 * s.busAnswers.length + 31, by unfold State.fuel; omega⟩
  cases hs : s.sched with
  | nil => simp [State.eventAfter, hs] at h
  | cons e es =>
    have hd : e.delay = 1 := by simpa [State.eventAfter, hs] using h
    rw [hn, drive_go (by simp [State.eventDue, hs, hd]) hf]
    apply drive_due
    simp [State.eventDue, State.elapse, ht, hs, schedNearer, hd]

/-- The fuel suffices for two engine steps and more. -/
theorem State.fuel_eq (s : State) : ∃ n, s.fuel = n + 32 := ⟨16 * s.busAnswers.length, by unfold State.fuel; omega⟩

end Sys2Proof.Machine
end

