-- ==== Sys2Proof/Laws/CommandCycle.lean ====
section
/-! SUPPORT. A command cycle as a whole (40 R105, R107): where the loop stands after the `Select()` and a
number of answered exchanges, and what it comes to when all were answered OK or the last one failed. -/

namespace Sys2Proof.Machine

/-- Where the engine stands after `Select()` and the exchanges answered by `answers`, all but possibly
the last OK. -/
def State.midCycle (s : State) (frame : Frame) (answers : List Answer) (failed : Bool) : State :=
  { s with
    cs := true
    byteIdx := BitVec.ofNat 3 answers.length
    kept := keptBytes frame (if failed then answers.dropLast else answers)
    xferFailed := failed
    busAnswers := s.busAnswers.drop answers.length
    busTrace := s.busTrace ++ .sel :: exchanges frame answers
    sched := schedAfter (answers.length + 1) s.sched }

/-- `f` takes the engine steps of the command cycle `frame` and `finish` wherever the cycle begun at `s`
can stand. -/
def RunsFrame (f : State → EngineStep) (frame : Frame)
    (finish : Status → List Byte → State → EngineStep) (s : State) : Prop :=
  ∀ cs byteIdx kept xferFailed busAnswers busTrace sched,
    f { s with cs, byteIdx, kept, xferFailed, busAnswers, busTrace, sched } =
      frameStep frame finish { s with cs, byteIdx, kept, xferFailed, busAnswers, busTrace, sched }

theorem exchanges_append (frame : Frame) (answers : List Answer) (x : Byte × Bool) (a : Answer)
    (h : frame[answers.length]? = some x) :
    exchanges frame (answers ++ [a]) = exchanges frame answers ++ [.x x.1 a.rx a.ok] := by
  induction answers generalizing frame with
  | nil =>
    cases frame with
    | nil => simp at h
    | cons y frame => simp_all [exchanges]
  | cons b answers ih =>
    cases frame with
    | nil => simp at h
    | cons y frame =>
      have := ih frame (by simpa using h)
      simp_all [exchanges]

theorem keptBytes_append (frame : Frame) (answers : List Answer) (x : Byte × Bool) (a : Answer)
    (h : frame[answers.length]? = some x) :
    keptBytes frame (answers ++ [a]) = keptBytes frame answers ++ (if x.2 then [a.rx] else []) := by
  induction answers generalizing frame with
  | nil =>
    cases frame with
    | nil => simp at h
    | cons y frame =>
      simp only [List.length_nil, List.getElem?_cons_zero, Option.some.injEq] at h
      subst h
      cases hy : y.2 <;> simp [keptBytes, hy]
  | cons b answers ih =>
    cases frame with
    | nil => simp at h
    | cons y frame =>
      have := ih frame (by simpa using h)
      simp only [keptBytes, List.cons_append, List.zip_cons_cons] at this ⊢
      cases hy : y.2 <;> simp [hy, this]

/-- After the `Select()` and `answers.length` exchanges, all OK, with no event due meanwhile. -/
theorem drive_exchanges {f : State → EngineStep} {frame : Frame}
    {finish : Status → List Byte → State → EngineStep} {s : State} (hf : RunsFrame f frame finish s)
    (hcs : s.cs = false) (hlen : frame.length ≤ 6) (n : Nat) (answers rest : List Answer)
    (hb : s.busAnswers = answers ++ rest) (hle : answers.length ≤ frame.length)
    (hok : ∀ a ∈ answers, a.ok = true) (hcalm : s.calm (answers.length + 1) = true) :
    drive f (n + (answers.length + 1)) s = drive f n (s.midCycle frame answers false) := by
  induction answers using List.reverseRecOn generalizing n rest with
  | nil =>
    have hs : f s = .go s.select := by
      have := hf s.cs s.byteIdx s.kept s.xferFailed s.busAnswers s.busTrace s.sched
      rcases frameStep_cases frame finish s with h | h | h | h | h
      · exact this.trans h.2
      all_goals simp_all
    rw [List.length_nil, Nat.zero_add, drive_go (State.not_eventDue_of_calm hcalm) hs]
    congr 1
    cases hsc : s.sched <;>
      simp [State.midCycle, State.select, State.elapse, keptBytes, exchanges, schedNearer, schedAfter, hsc]
  | append_singleton answers a ih =>
    have hlt : answers.length < frame.length := by simp at hle; omega
    have hcalm' : s.calm (answers.length + 2) = true := by simpa [Nat.add_assoc] using hcalm
    have hx : frame[answers.length]? = some frame[answers.length] := by simp [hlt]
    generalize frame[answers.length] = x at hx
    have hmid := ih (n + 1) (a :: rest) (by simpa using hb) (by omega) (fun b hb => hok b (by simp [hb]))
      (State.calm_mono hcalm' (by omega))
    rw [List.length_append, List.length_singleton,
      show n + (answers.length + 1 + 1) = n + 1 + (answers.length + 1) by omega, hmid]
    have ha : a.ok = true := hok a (by simp)
    have hidx : (BitVec.ofNat 3 answers.length).toNat = answers.length := by
      simp only [BitVec.toNat_ofNat]; omega
    have hdrop : s.busAnswers.drop answers.length = a :: rest := by simp [hb]
    have hstep : f (s.midCycle frame answers false) =
        .go ((s.midCycle frame answers false).xfer x.1 x.2 a) := by
      rw [State.midCycle, hf]
      simp [frameStep, hidx, hx, hdrop]
    rw [drive_go (State.eventDue_schedAfter hcalm' (j := answers.length + 1) (by omega) rfl) hstep]
    congr 1
  
    have hdrop'' : s.busAnswers.drop (answers.length + 1) = rest := by simp [hb]
    have hi : BitVec.ofNat 3 answers.length + 1#3 = BitVec.ofNat 3 (answers.length + 1) := by
      apply BitVec.eq_of_toNat_eq; simp [BitVec.toNat_add, BitVec.toNat_ofNat]
    cases hk : x.2 <;>
      simp [State.midCycle, State.xfer, State.elapse, exchanges_append frame answers x a hx,
        keptBytes_append frame answers x a hx, hk, ha, hdrop'', hi, hdrop]

/-- A command cycle whose exchanges all succeed: the caller's `finish` runs on the kept bytes in the step
of the `Deselect()`. -/
theorem drive_frame_ok {f : State → EngineStep} {frame : Frame}
    {finish : Status → List Byte → State → EngineStep} {s : State} (hf : RunsFrame f frame finish s)
    (hcs : s.cs = false) (hlen : frame.length ≤ 6) (n : Nat) (answers rest : List Answer)
    (hb : s.busAnswers = answers ++ rest) (hle : answers.length = frame.length)
    (hok : ∀ a ∈ answers, a.ok = true) (hcalm : s.calm (answers.length + 2) = true) :
    drive f (n + (answers.length + 2)) s =
      match finish .ok (keptBytes frame answers) (s.midCycle frame answers false).deselect with
      | .go t => drive f n t.elapse
      | .done t => t.elapse
      | .wait => (s.midCycle frame answers false).hasten := by
  rw [show n + (answers.length + 2) = n + 1 + (answers.length + 1) by omega,
    drive_exchanges hf hcs hlen (n + 1) answers rest hb (by omega) hok (State.calm_mono hcalm (by omega))]
  have hidx : (BitVec.ofNat 3 answers.length).toNat = answers.length := by
    simp only [BitVec.toNat_ofNat]; omega
  have hnone : frame[answers.length]? = none := by simp [hle]
  have hstep : f (s.midCycle frame answers false) =
      finish .ok (keptBytes frame answers) (s.midCycle frame answers false).deselect := by
    rw [State.midCycle, hf]
    simp [frameStep, hidx, hnone]
  have hdue := State.eventDue_schedAfter hcalm (j := answers.length + 1) (by omega)
    (t := s.midCycle frame answers false) rfl
  cases hfin : finish .ok (keptBytes frame answers) (s.midCycle frame answers false).deselect with
  | go t => exact drive_go hdue (hstep.trans hfin)
  | done t => exact drive_done hdue (hstep.trans hfin)
  | wait => exact drive_wait hdue (hstep.trans hfin)

/-- A command cycle whose last exchange made fails: the boundary is released at once, and the kept bytes
are dropped (40 R107). -/
theorem drive_frame_failed {f : State → EngineStep} {frame : Frame}
    {finish : Status → List Byte → State → EngineStep} {s : State} (hf : RunsFrame f frame finish s)
    (hcs : s.cs = false) (hlen : frame.length ≤ 6) (n : Nat) (answers rest : List Answer) (a : Answer)
    (hb : s.busAnswers = answers ++ a :: rest) (hle : answers.length < frame.length)
    (hok : ∀ a ∈ answers, a.ok = true) (ha : a.ok = false) (hcalm : s.calm (answers.length + 3) = true) :
    drive f (n + (answers.length + 3)) s =
      match finish .transportFailure [] (s.midCycle frame (answers ++ [a]) true).deselect with
      | .go t => drive f n t.elapse
      | .done t => t.elapse
      | .wait => (s.midCycle frame (answers ++ [a]) true).hasten := by
  rw [show n + (answers.length + 3) = n + 1 + 1 + (answers.length + 1) by omega,
    drive_exchanges hf hcs hlen (n + 1 + 1) answers (a :: rest) hb (by omega) hok
      (State.calm_mono hcalm (by omega))]
  have hx : frame[answers.length]? = some frame[answers.length] := by simp [hle]
  generalize frame[answers.length] = x at hx
  have hidx : (BitVec.ofNat 3 answers.length).toNat = answers.length := by
    simp only [BitVec.toNat_ofNat]; omega
  have hdrop : s.busAnswers.drop answers.length = a :: rest := by simp [hb]
  have hstep : f (s.midCycle frame answers false) =
      .go ((s.midCycle frame answers false).xfer x.1 x.2 a) := by
    rw [State.midCycle, hf]
    simp [frameStep, hidx, hx, hdrop]
  rw [drive_go (State.eventDue_schedAfter hcalm (j := answers.length + 1) (by omega) rfl) hstep]
  have hdrop'' : s.busAnswers.drop (answers.length + 1) = rest := by simp [hb]
  have hi : BitVec.ofNat 3 answers.length + 1#3 = BitVec.ofNat 3 (answers.length + 1) := by
    apply BitVec.eq_of_toNat_eq; simp [BitVec.toNat_add, BitVec.toNat_ofNat]
  have hnext : ((s.midCycle frame answers false).xfer x.1 x.2 a).elapse =
      s.midCycle frame (answers ++ [a]) true := by
    simp [State.midCycle, State.xfer, State.elapse, exchanges_append frame answers x a hx, ha, hdrop'',
      hi, hdrop]
  rw [hnext]
  have hfailed : f (s.midCycle frame (answers ++ [a]) true) =
      finish .transportFailure [] (s.midCycle frame (answers ++ [a]) true).deselect := by
    rw [State.midCycle, hf]
    simp [frameStep]
  have hdue := State.eventDue_schedAfter hcalm (j := answers.length + 2) (by omega)
    (t := s.midCycle frame (answers ++ [a]) true) (by simp [State.midCycle])
  cases hfin : finish .transportFailure [] (s.midCycle frame (answers ++ [a]) true).deselect with
  | go t => exact drive_go hdue (hfailed.trans hfin)
  | done t => exact drive_done hdue (hfailed.trans hfin)
  | wait => exact drive_wait hdue (hfailed.trans hfin)

end Sys2Proof.Machine
end

