-- ==== Sys2Proof/Laws/Operations.lean ====
section
/-! SUPPORT. What an engine step of any operation can be, said once, and what follows for `exec`: a property
kept by the pieces (40 R105, 42 R150 to R163) is kept by the operation. -/

namespace Sys2Proof.Machine

/-- What an engine step leads to: an operation still in progress in a state that meets `P`, or a completed
one in a state that meets `Q`. -/
def EngineStep.All (P Q : State → Prop) : EngineStep → Prop
  | .go s => P s
  | .done s => Q s
  | .wait => True

@[simp] theorem EngineStep.all_go (P Q : State → Prop) (s : State) : (EngineStep.go s).All P Q = P s := rfl
@[simp] theorem EngineStep.all_done (P Q : State → Prop) (s : State) : (EngineStep.done s).All P Q = Q s := rfl
@[simp] theorem EngineStep.all_wait (P Q : State → Prop) : EngineStep.wait.All P Q = True := rfl

/-- What an engine step of a command cycle leads to, from what its four kinds do (40 R105). -/
theorem frameStep_all {P Q : State → Prop} {frame : Frame} {finish : Status → List Byte → State → EngineStep}
    {s : State} (hsel : s.cs = false → P s.select)
    (hx : ∀ tx keep ans rest, s.cs = true → s.xferFailed = false → frame[s.byteIdx.toNat]? = some (tx, keep) →
      s.busAnswers = ans :: rest → P (s.xfer tx keep ans))
    (hfail : s.cs = true → s.xferFailed = true → (finish .transportFailure [] s.deselect).All P Q)
    (hok : s.cs = true → s.xferFailed = false → frame[s.byteIdx.toNat]? = none →
      (finish .ok s.kept s.deselect).All P Q) : (frameStep frame finish s).All P Q := by
  rcases frameStep_cases frame finish s with ⟨h1, h⟩ | ⟨h1, h2, h⟩ | ⟨h1, h2, h3, h⟩ | ⟨tx, k, a, r, h1,
      h2, h3, h4, h⟩ | ⟨x, h1, h2, h3, h4, h⟩
  · rw [h]; exact hsel h1
  · rw [h]; exact hfail h1 h2
  · rw [h]; exact hok h1 h2 h3
  · rw [h]; exact hx _ _ _ _ h1 h2 h3 h4
  · rw [h]; trivial

/-- The engine step of each operation under configuration `c`, said once for all of `exec`'s arms. -/
def opStep (c : Cfg) : Instr → State → EngineStep
  | .reset => doReset answer
  | .start => doStart answer
  | .stop => doStop answer
  | .rdata => doRdata fun st raw t => .done (t.complete st raw)
  | .rreg a => doRreg a fun st b t => .done (t.complete st (b.setWidth 32))
  | .wreg a v => doWreg a v answer
  | .setmux p n => doSetmux p n answer
  | .setgain code => doSetField c.fGain c.gainLegal code answer
  | .setrate code => doSetField c.fRate c.rateLegal code answer
  | .setref code => doSetField c.fRef c.refLegal code answer
  | .cycle => cycleStep
  | .tare => fun t => .done (t.tareAll.complete .ok 0)

/-- Running an operation is running its engine steps. -/
theorem exec_eq (i : Instr) (s : State) : exec i s = runOperation (opStep s.cfg i) s := by
  cases i <;> rfl

/-- A property that engine steps and the passing of time keep holds wherever the loop stops. -/
theorem drive_all {f : State → EngineStep} {P Q : State → Prop}
    (hf : ∀ s, P s → (f s).All P Q) (hpq : ∀ s, P s → Q s)
    (hpe : ∀ s, P s → P s.elapse) (hqe : ∀ s, Q s → Q s.elapse) (hh : ∀ s, P s → Q s.hasten) (n : Nat) :
    ∀ s, P s → Q (drive f n s) := by
  induction n with
  | zero => intro s hs; exact hpq s hs
  | succ n ih =>
    intro s hs
    have h := hf s hs
    unfold drive
    split
    · exact hpq s hs
    · cases hfs : f s with
      | go t => rw [hfs] at h; exact ih _ (hpe _ h)
      | done t => rw [hfs] at h; exact hqe _ h
      | wait => exact hh _ hs

/-- The constraints of 00 R5 that the meanings lean on. -/
theorem cfg_wf_facts {c : Cfg} (hl : c.wf = true) : c.regLegal c.fMux.addr = true ∧
    c.regLegal c.fGain.addr = true ∧
   c.regLegal c.fRate.addr = true ∧ c.regLegal c.fRef.addr = true ∧ c.rdataDummy ≤ 2 ∧ 1 ≤ c.n ∧ c.n ≤ 8 ∧
       1 ≤ c.w ∧ c.w ≤ 16 ∧ c.chDesc.length = c.n ∧ c.regLegal c.addrStatus = true ∧
   (∀ p ∈ c.chDesc, p.1 ∈ c.muxLegal ∧ p.2 ∈ c.muxLegal) := by
  simp only [Cfg.wf, Cfg.muxFieldOk, Cfg.fieldOk, Cfg.channelsOk, Cfg.windowOk, Cfg.descriptorsOk,
      Cfg.registersOk, Bool.and_eq_true, decide_eq_true_eq, beq_iff_eq, List.all_eq_true] at hl
  refine ⟨by tauto, by tauto, by tauto, by tauto, by tauto, by tauto, by tauto, by tauto, by tauto,
      by tauto, by tauto, ?_⟩
  intro p hp
  have h := hl.1.1.1.1.1.1.1.1.2.2
  constructor
  · simpa using h p.1 (by simp only [Cfg.inputCodes, List.mem_flatMap]; exact ⟨p, hp, by simp⟩)
  · simpa using h p.2 (by simp only [Cfg.inputCodes, List.mem_flatMap]; exact ⟨p, hp, by simp⟩)

/-- Everything an engine step of any operation can be, under a well-formed configuration. `D` is what is
known at a `Deselect()`: whoever handles the command cycle shows it, whoever handles its end may use it. -/
theorem opStep_all {P Q : State → Prop} (D : Prop) (c : Cfg) (i : Instr) (s : State) (hc : s.cfg = c) (hl :
    c.wf = true)
    (hframe : ∀ frame finish, frame.length ≤ 6 → frame ≠ [] → i.wf c = true →
      (s.cs = true → s.xferFailed = true → D → (finish .transportFailure [] s.deselect).All P Q) →
      (s.cs = true → s.xferFailed = false → D → (finish .ok s.kept s.deselect).All P Q) →
      i ≠ .cycle → i ≠ .tare →
      (frameStep frame finish s).All P Q)
    (hcomplete : ∀ t st d, (t = s.deselect ∨ t = s.deselect.resetDevice ∨ (∃ a v, s.cfg.regLegal a = true ∧
        t = s.deselect.setShadow a v)) → s.cs = true → i ≠ .cycle → i ≠ .tare → i.wf s.cfg = true → D →
            Q (t.complete st d))
    (hinv : i.wf s.cfg = false → Q (s.complete .invalidArgument 0))
    (htare : i = .tare → Q (s.tareAll.complete .ok 0))
    (hcycle : i = .cycle → (cycleStep s).All P Q) : (opStep c i s).All P Q := by
  subst hc
  obtain ⟨hm, hg, hr, hf, hd, -⟩ := cfg_wf_facts hl
  have hw : ∀ a v, i ≠ .cycle → i ≠ .tare → i.wf s.cfg = true → s.cfg.regLegal a = true →
      (doWreg a v answer s).All P Q := by
    intro a v h1 h2 h3 h4
    simp only [doWreg, h4, if_true]
    refine hframe (wregFrame s.cfg a v) _ (by simp [wregFrame]) (by simp [wregFrame]) h3
      (fun h _ hD => ?_) (fun h _ hD => ?_) h1 h2
    · exact hcomplete _ _ _ (by simp) h h1 h2 h3 hD
    · exact hcomplete _ _ _ (.inr (.inr ⟨a, v, h4, by simp⟩)) h h1 h2 h3 hD
  cases i with
  | reset =>
    simp only [opStep, doReset]
    refine hframe (resetFrame s.cfg) _ (by simp [resetFrame]) (by simp [resetFrame]) rfl
      (fun h _ hD => ?_) (fun h _ hD => ?_) (by simp) (by simp) <;>
      exact hcomplete _ _ _ (by simp) h (by simp) (by simp) rfl hD
  | start =>
    simp only [opStep, doStart]
    refine hframe (startFrame s.cfg) _ (by simp [startFrame]) (by simp [startFrame]) rfl
      (fun h _ hD => ?_) (fun h _ hD => ?_) (by simp) (by simp) <;>
      exact hcomplete _ _ _ (by simp) h (by simp) (by simp) rfl hD
  | stop =>
    simp only [opStep, doStop]
    refine hframe (stopFrame s.cfg) _ (by simp [stopFrame]) (by simp [stopFrame]) rfl
      (fun h _ hD => ?_) (fun h _ hD => ?_) (by simp) (by simp) <;>
      exact hcomplete _ _ _ (by simp) h (by simp) (by simp) rfl hD
  | rdata =>
    simp only [opStep, doRdata]
    refine hframe (rdataFrame s.cfg) _ (by simp [rdataFrame]; omega) (by simp [rdataFrame]) rfl
      (fun h _ hD => ?_) (fun h _ hD => ?_) (by simp) (by simp) <;>
      exact hcomplete _ _ _ (by simp) h (by simp) (by simp) rfl hD
  | rreg a =>
    by_cases ha : s.cfg.regLegal a = true
    · simp only [opStep, doRreg, ha, if_true]
      refine hframe (rregFrame s.cfg a) _ (by simp [rregFrame]) (by simp [rregFrame]) ha
        (fun h _ hD => ?_) (fun h _ hD => ?_) (by simp) (by simp) <;>
      exact hcomplete _ _ _ (by simp) h (by simp) (by simp) ha hD
    · simp only [opStep, doRreg, ha]
      exact hinv (by simpa [Instr.wf] using ha)
  | wreg a v =>
    by_cases ha : s.cfg.regLegal a = true
    · exact hw _ _ (by simp) (by simp) ha ha
    · simp only [opStep, doWreg, ha]
      exact hinv (by simpa [Instr.wf] using ha)
  | setmux p n =>
    by_cases ha : (s.cfg.muxLegal.contains p && s.cfg.muxLegal.contains n) = true
    · simp only [opStep, doSetmux, ha, if_true]
      exact hw _ _ (by simp) (by simp) ha hm
    · simp only [opStep, doSetmux, ha]
      exact hinv (by simpa only [Instr.wf, Bool.not_eq_true] using ha)
  | setgain code =>
    by_cases ha : (s.cfg.gainLegal.contains code) = true
    · simp only [opStep, doSetField, ha, if_true]
      exact hw _ _ (by simp) (by simp) ha hg
    · simp only [opStep, doSetField, ha]
      exact hinv (by simpa only [Instr.wf, Bool.not_eq_true] using ha)
  | setrate code =>
    by_cases ha : (s.cfg.rateLegal.contains code) = true
    · simp only [opStep, doSetField, ha, if_true]
      exact hw _ _ (by simp) (by simp) ha hr
    · simp only [opStep, doSetField, ha]
      exact hinv (by simpa only [Instr.wf, Bool.not_eq_true] using ha)
  | setref code =>
    by_cases ha : (s.cfg.refLegal.contains code) = true
    · simp only [opStep, doSetField, ha, if_true]
      exact hw _ _ (by simp) (by simp) ha hf
    · simp only [opStep, doSetField, ha]
      exact hinv (by simpa only [Instr.wf, Bool.not_eq_true] using ha)
  | cycle => exact hcycle rfl
  | tare => exact htare rfl

/-- The codes of a channel's descriptor are legal, so SELECT_CHANNEL passes its check (42 R152). -/
theorem chanDesc_legal {c : Cfg} (hl : c.wf = true) {i : Nat} (hi : i < c.n) :
    (c.muxLegal.contains (chanDesc c i).1 && c.muxLegal.contains (chanDesc c i).2) = true := by
  obtain ⟨-, -, -, -, -, -, -, -, -, hlen, -, h⟩ := cfg_wf_facts hl
  have hi' : i < c.chDesc.length := by omega
  have := h c.chDesc[i] (by simp)
  simpa [chanDesc, List.getD_eq_getElem?_getD, hi'] using this

/-- Everything an engine step of CYCLE can be, state by state (42 R150 to R163), with `D` as in
`opStep_all`. -/
theorem cycleStep_all {P Q : State → Prop} (D : Prop) (s : State) (hl : s.cfg.wf = true)
    (hidle : s.fsm = .idle → P (s.beginVisit 0))
    (hframe : ∀ frame finish, frame.length ≤ 6 → frame ≠ [] →
      (s.fsm = .selectChannel ∨ (s.fsm = .start ∧ s.cfg.convMode = .pulse) ∨ (s.fsm = .awaitReady ∧
          readyMethodInForce s.cfg = .statusBit ∧ s.poll = none) ∨ s.fsm = .read) →
      (s.cs = true → s.xferFailed = true → D → (finish .transportFailure [] s.deselect).All P Q) →
      (s.cs = true → s.xferFailed = false → D → (finish .ok s.kept s.deselect).All P Q) →
      (frameStep frame finish s).All P Q)
    (hbad : s.fsm = .selectChannel → s.cfg.n ≤ s.ch.toNat → P (s.abortVisit .invalidArgument))
    (habort : s.fsm ≠ .idle → s.fsm ≠ .cycleComplete → s.cs = true → D →
        P (s.deselect.abortVisit .transportFailure))
    (hsel : ∀ v, s.fsm = .selectChannel → s.cs = true → D →
        P { s.deselect.setShadow s.cfg.fMux.addr v with rdyFlag := false, fsm := .start })
    (hstart : s.fsm = .start → s.cfg.convMode = .pulse → s.cs = true → D → P s.deselect.enterAwait)
    (hstart' : s.fsm = .start → s.cfg.convMode = .continuous → P s.enterAwait)
    (htimeout : s.fsm = .awaitReady → readyMethodInForce s.cfg ≠ .statusBit → P (s.abortVisit .timeout))
    (hedge : s.fsm = .awaitReady → readyMethodInForce s.cfg = .lineEdge →
        P { s with rdyFlag := false, fsm := .read })
    (hlevel : s.fsm = .awaitReady → readyMethodInForce s.cfg = .lineLevel → P { s with fsm := .read })
    (hpolled : ∀ b, s.fsm = .awaitReady → readyMethodInForce s.cfg = .statusBit → s.poll = none →
        s.cs = true → D → P { s.deselect with poll := some b })
    (htest : ∀ b, s.fsm = .awaitReady → readyMethodInForce s.cfg = .statusBit → s.poll = some b →
       P { s with poll := none, fsm := .read } ∧ P (({ s with poll := none } :
           State).abortVisit .timeout) ∧ P { s with poll := none })
    (hread : ∀ raw, s.fsm = .read → s.cs = true → D → (raw = 0 ∨ ∃ a b c, raw = decode24 a b c) →
        P ((s.deselect.capture raw).advance))
    (hcal : s.fsm = .cycleComplete → P { s.calibrate with phase := .encode })
    (henc : s.fsm = .cycleComplete → P { s.encodePacket with phase := .notify })
    (hntf : s.fsm = .cycleComplete → (s.subscribed = false → Q ({ s with ntfStatus := .notReady } :
        State).finishCycle) ∧
       (∀ ok rest, s.sinkAnswers = ok :: rest → Q (s.sinkSend ok).finishCycle))
    (hsend : s.fsm = .cycleComplete → s.sinkAnswers = [] → P { s with phase := .sending }) :
    (cycleStep s).All P Q := by
  obtain ⟨hm, hg, hr, hf, hd, -, -, -, -, hlen, hst, -⟩ := cfg_wf_facts hl
  unfold cycleStep
  cases hfsm : s.fsm with
  | idle => exact hidle hfsm
  | selectChannel =>
    simp only [selectChannelStep, doSetmux]
    split
    · simp only [doWreg, hm, if_true]
      refine hframe (wregFrame s.cfg s.cfg.fMux.addr _) _ (by simp [wregFrame]) (by simp [wregFrame]) (by simp [hfsm])
        (fun h _ hD => ?_) (fun h _ hD => ?_)
      · simpa using habort (by simp [hfsm]) (by simp [hfsm]) h hD
      · simpa using hsel _ hfsm h hD
    · next hne =>
      have : s.cfg.n ≤ s.ch.toNat := by
        by_contra hh
        exact hne (chanDesc_legal hl (by omega))
      simpa using hbad hfsm this
  | start =>
    simp only [startStep]
    cases hcm : s.cfg.convMode with
    | pulse =>
      simp only [doStart]
      refine hframe (startFrame s.cfg) _ (by simp [startFrame]) (by simp [startFrame]) (by simp [hfsm,
          hcm]) (fun h _ hD => ?_) (fun h _ hD => ?_)
      · simpa using habort (by simp [hfsm]) (by simp [hfsm]) h hD
      · simpa using hstart hfsm hcm h hD
    | continuous => exact hstart' hfsm hcm
  | awaitReady =>
    simp only [awaitStep]
    cases hm : readyMethodInForce s.cfg with
    | lineEdge =>
      simp only [awaitEdgeStep, timeoutOr]
      split
      · exact hedge hfsm hm
      · split
        · exact htimeout hfsm (by simp [hm])
        · trivial
    | lineLevel =>
      simp only [awaitLevelStep, timeoutOr]
      split
      · exact hlevel hfsm hm
      · split
        · exact htimeout hfsm (by simp [hm])
        · trivial
    | statusBit =>
      simp only [awaitStatusStep, timeoutOr]
      cases hp : s.poll with
      | none =>
        simp only [doRreg, hst, if_true]
        refine hframe (rregFrame s.cfg _) _ (by simp [rregFrame]) (by simp [rregFrame]) (by simp [hfsm, hm,
            hp]) (fun h _ hD => ?_) (fun h _ hD => ?_)
        · simpa using habort (by simp [hfsm]) (by simp [hfsm]) h hD
        · simpa using hpolled _ hfsm hm hp h hD
      | some b =>
        have := htest b hfsm hm hp
        simp only
        split
        · exact this.1
        · split
          · exact this.2.1
          · exact this.2.2
  | read =>
    simp only [readStep, doRdata]
    refine hframe (rdataFrame s.cfg) _ (by simp [rdataFrame]; omega) (by simp [rdataFrame]) (by simp [hfsm])
      (fun h _ hD => ?_) (fun h _ hD => ?_)
    · simpa using habort (by simp [hfsm]) (by simp [hfsm]) h hD
    · refine hread _ hfsm h hD ?_
      simp only [decodeKept, if_true]
      split
      · exact .inr ⟨_, _, _, rfl⟩
      · exact .inl rfl
  | cycleComplete =>
    simp only [completeStep, notifyStep, sinkAnswerStep]
    split
    · exact hcal hfsm
    · exact henc hfsm
    · split
      · split
        · next hs => exact hsend hfsm hs
        · next ok rest hs => exact (hntf hfsm).2 ok rest hs
      · next hsub => exact (hntf hfsm).1 (by simpa using hsub)
    · cases hs : s.sinkAnswers with
      | nil => trivial
      | cons ok rest => exact (hntf hfsm).2 ok rest hs

theorem EngineStep.all_mono {P Q P' Q' : State → Prop} {e : EngineStep} (h : e.All P Q) (hp : ∀ s, P s → P' s)
    (hq : ∀ s, Q s → Q' s) : e.All P' Q' := by
  cases e with
  | go s => exact hp s h
  | done s => exact hq s h
  | wait => trivial

theorem EngineStep.all_and {P Q P' Q' : State → Prop} {e : EngineStep} (h : e.All P Q) (h' : e.All P' Q') :
    e.All (fun s => P s ∧ P' s) (fun s => Q s ∧ Q' s) := by
  cases e with
  | go s => exact ⟨h, h'⟩
  | done s => exact ⟨h, h'⟩
  | wait => trivial

/-- What a step of an operation in progress leaves of its registers. -/
theorem opStep_frame (i : Instr) (s : State) (hl : s.cfg.wf = true) :
    (opStep s.cfg i s).All
      (fun t => t.cfg = s.cfg ∧ t.eng = s.eng ∧ t.curW = s.curW ∧ t.sched = s.sched)
      (fun t => t.cfg = s.cfg ∧ t.eng = .idle ∧ t.curW = s.curW ∧ t.sched = s.sched) := by
  refine opStep_all True _ i s rfl hl ?_ ?_ ?_ ?_ ?_
  · intro fr fi _ _ _ h1 h2 _ _
    exact frameStep_all (fun _ => by simp) (fun _ _ _ _ _ _ _ _ => by simp)
        (fun a b => h1 a b trivial) (fun a b _ => h2 a b trivial)
  · rintro t st d (rfl | rfl | ⟨a, v, -, rfl⟩) <;> simp
  · simp
  · simp
  · intro _
    refine cycleStep_all True s hl ?_ ?_ ?_ ?_ ?_ ?_ ?_ ?_ ?_ ?_ ?_ ?_ ?_ ?_ ?_ ?_ ?_
    · simp
    · intro fr fi _ _ _ h1 h2
      exact frameStep_all (fun _ => by simp) (fun _ _ _ _ _ _ _ _ => by simp)
        (fun a b => h1 a b trivial) (fun a b _ => h2 a b trivial)
    all_goals simp

/-- A property that the engine steps of an operation keep holds in the state `exec` answers. -/
theorem exec_all {P Q : State → Prop} {i : Instr} {s t : State} (hl : s.cfg.wf = true)
    (hstep : ∀ s, s.cfg.wf = true → P s → (opStep s.cfg i s).All P Q) (hpq : ∀ s, P s → Q s)
    (hpe : ∀ s, P s → P s.elapse) (hqe : ∀ s, Q s → Q s.elapse) (hh : ∀ s, P s → Q s.hasten) (hs :
        P s) (h : exec i s = .next t) : Q t := by
  rw [exec_eq, runOperation_eq] at h
  subst h
  refine (drive_all (P := fun t => P t ∧ t.cfg = s.cfg) (Q := fun t => Q t ∧
      t.cfg = s.cfg) ?_ ?_ ?_ ?_ ?_ _ s ⟨hs, rfl⟩).1
  · intro u ⟨hu, hc⟩
    have h1 := hstep u (hc ▸ hl) hu
    have h2 := opStep_frame i u (hc ▸ hl)
    rw [hc] at h1 h2
    exact EngineStep.all_mono (EngineStep.all_and h1 h2) (fun v h => ⟨h.1, h.2.1⟩) (fun v h => ⟨h.1, h.2.1⟩)
  · intro u ⟨h, h'⟩; exact ⟨hpq u h, h'⟩
  · intro u ⟨h, h'⟩; exact ⟨hpe u h, h'⟩
  · intro u ⟨h, h'⟩; exact ⟨hqe u h, h'⟩
  · intro u ⟨h, h'⟩; exact ⟨hh u h, h'⟩

end Sys2Proof.Machine
end

