-- ==== Sys2Proof/Laws/PerInstr.lean ====
section
/-! SUPPORT. The family `OpcodeRow`: the word of an operation lies in its row of the opcode table
(30_encoding.md R85). -/

namespace Sys2Proof.Laws.OpcodeRow

/-- The encoded word under the row's mask is the row's match value. -/
def Statement (i : Instr) : Prop := encode i &&& rowMask i = rowMatch i

/-- A word is its three fields under a mask, field by field. -/
theorem packWord_and (op mo : BitVec 3) (a ma : BitVec 5) (d md : BitVec 8) :
    packWord op a d &&& packWord mo ma md = packWord (op &&& mo) (a &&& ma) (d &&& md) := by
  unfold packWord
  rw [BitVec.and_append, BitVec.and_append]

theorem reset : Statement .reset := rfl
theorem start : Statement .start := rfl
theorem stop : Statement .stop := rfl
theorem rdata : Statement .rdata := rfl

theorem rreg (a : RegAddr) : Statement (.rreg a) := by
  revert a; unfold Statement; decide

theorem wreg (a : RegAddr) (v : Byte) : Statement (.wreg a v) := by
  have h := packWord_and 5#3 7#3 a 0#5 v 0#8
  simp only [BitVec.and_zero] at h
  exact h

theorem setmux (pos neg : InputCode) : Statement (.setmux pos neg) := by
  have h := packWord_and 6#3 7#3 0#5 31#5 ((pos ++ neg)) 0#8
  simp only [BitVec.and_zero] at h
  exact h

theorem setgain (code : Byte) : Statement (.setgain code) := by
  have h := packWord_and 6#3 7#3 1#5 31#5 (code) 0#8
  simp only [BitVec.and_zero] at h
  exact h

theorem setrate (code : Byte) : Statement (.setrate code) := by
  have h := packWord_and 6#3 7#3 2#5 31#5 (code) 0#8
  simp only [BitVec.and_zero] at h
  exact h

theorem setref (code : Byte) : Statement (.setref code) := by
  have h := packWord_and 6#3 7#3 3#5 31#5 (code) 0#8
  simp only [BitVec.and_zero] at h
  exact h

theorem cycle : Statement .cycle := rfl
theorem tare : Statement .tare := rfl

end Sys2Proof.Laws.OpcodeRow
end

