-- ==== Sys2Proof/Laws/Step.lean ====
section
/-! SUPPORT. What a step can be, said once (40 R100 to R104, 60 R228), and the induction principle that
follows from it. -/

namespace Sys2Proof.Machine


/-- Everything a step with a next state can be: the due event, an idle engine's wait, the acceptance of the
tick, of a legal word or of an illegal one, or the operation in progress going on. -/
theorem step_cases {s t : State} (h : step s = .next t) :
    s.cfg.wf = true ∧
    ((∃ e es, s.sched = ⟨0, e⟩ :: es ∧ applyEvent e { s.lowerHres with sched := es } = .next t) ∨
     (s.eventDue = false ∧ s.eng = .idle ∧ t = s.lowerHres.hasten) ∨
     (s.eventDue = false ∧ s.eng = .idle ∧ s.settleCnt = 0 ∧ s.tickPend = true ∧
         exec .cycle s.lowerHres.acceptTick = .next t) ∨
     (s.eventDue = false ∧ s.eng = .idle ∧ s.settleCnt = 0 ∧ s.tickPend = false ∧ s.hcmdValid = true ∧
       ∃ i, decodeWord s.hcmdWord = some i ∧ exec i s.lowerHres.acceptHost.elapse = .next t) ∨
     (s.eventDue = false ∧ s.eng = .idle ∧ s.settleCnt = 0 ∧ s.tickPend = false ∧ s.hcmdValid = true ∧
       decodeWord s.hcmdWord = none ∧ t = (s.lowerHres.acceptHost.complete .invalidArgument 0).elapse) ∨
     (s.eventDue = false ∧ s.eng ≠ .idle ∧ ∃ i, decodeWord s.curW = some i ∧
         exec i s.lowerHres = .next t)) := by
  unfold step at h
  split at h
  · next hw =>
    refine ⟨hw, ?_⟩
    unfold runTurn at h
    split at h
    · next e es he =>
      exact .inl ⟨e, es, by simpa using he, h⟩
    · next hne =>
      have hdue : s.eventDue = false := by
        unfold State.eventDue
        cases hs : s.sched with
        | nil => rfl
        | cons e es =>
          obtain ⟨d, e⟩ := e
          cases d with
          | zero => exact absurd (by simpa using hs) (hne e es)
          | succ d => simp
      right
      have hb : ∀ e, s.eng = e → e ≠ .idle → runBusy s.lowerHres = .next t → (s.eventDue = false ∧
          s.eng ≠ .idle ∧ ∃ i, decodeWord s.curW = some i ∧ exec i s.lowerHres = .next t) := by
        intro e he hne h
        unfold runBusy at h
        cases hd : decodeWord s.curW with
        | none => simp [hd] at h
        | some i => exact ⟨hdue, he ▸ hne, i, rfl, by simpa [hd] using h⟩
      unfold runEngine at h
      cases he : s.eng with
      | host => simp only [State.lowerHres_frame,
          he] at h; exact .inr (.inr (.inr (.inr (he ▸ hb _ he (by simp) h))))
      | tick => simp only [State.lowerHres_frame,
          he] at h; exact .inr (.inr (.inr (.inr (he ▸ hb _ he (by simp) h))))
      | idle =>
        simp only [State.lowerHres_frame, he, runIdle] at h
        split at h
        · injection h with h; exact .inl ⟨hdue, rfl, h.symm⟩
        · next hset =>
          split at h
          · next htp => exact .inr (.inl ⟨hdue, rfl, by simpa using hset, htp, h⟩)
          · next htp =>
            split at h
            · next hv =>
              unfold runHostWord at h
              cases hd : decodeWord s.hcmdWord with
              | none =>
                simp only [State.lowerHres_frame, hd] at h
                injection h with h
                exact .inr (.inr (.inr (.inl ⟨hdue, rfl, by simpa using hset, by simpa using htp, hv, rfl,
                    h.symm⟩)))
              | some i =>
                simp only [State.lowerHres_frame, hd] at h
                exact .inr (.inr (.inl ⟨hdue, rfl, by simpa using hset, by simpa using htp, hv, i, rfl, h⟩))
            · injection h with h; exact .inl ⟨hdue, rfl, h.symm⟩
  · cases h

/-- Operation `i` is in progress. -/
def Running (i : Instr) (s : State) : Prop := s.eng ≠ .idle ∧ decodeWord s.curW = some i

/-- A property kept by events, by acceptance, by engine steps and by the passing of time is kept by a step. -/
theorem step_keeps {P : State → Prop} {s t : State}
    (hev : ∀ e es u, s.sched = ⟨0, e⟩ :: es → applyEvent e { s.lowerHres with sched := es } = .next u → P u)
    (hlow : P s.lowerHres)
    (hstep : ∀ i s, s.cfg.wf = true → P s → Running i s → (opStep s.cfg i s).All P P)
    (hel : ∀ s, P s → P s.elapse) (hh : ∀ s, P s → P s.hasten)
    (htick : s.eng = .idle → P s.lowerHres.acceptTick)
    (hhost : s.eng = .idle → ∀ i, decodeWord s.hcmdWord = some i → P s.lowerHres.acceptHost)
    (hill : s.eng = .idle → decodeWord s.hcmdWord = none →
        P (s.lowerHres.acceptHost.complete .invalidArgument 0))
    (h : step s = .next t) : P t := by
  have key : ∀ (i : Instr) (u : State), u.cfg.wf = true → P u → Running i u → exec i u = .next t → P t := by
    intro i u hw hu hr h
    refine exec_all (P := fun v => P v ∧ Running i v) (Q := P) hw ?_ (fun _ h => h.1) ?_ hel ?_ ⟨hu, hr⟩ h
    · intro v hv ⟨h1, h2⟩
      refine EngineStep.all_mono (EngineStep.all_and (hstep i v hv h1 h2) (opStep_frame i v hv)) ?_ (fun v h => h.1)
      intro w ⟨h3, h4⟩
      exact ⟨h3, by rw [h4.2.1]; exact h2.1, by rw [h4.2.2.1]; exact h2.2⟩
    · intro v ⟨h1, h2⟩; exact ⟨hel v h1, h2⟩
    · intro v ⟨h1, h2⟩; exact hh v h1
  obtain ⟨hw, h⟩ := step_cases h
  rcases h with ⟨e, es, h1, h2⟩ | ⟨_, _, rfl⟩ | ⟨_, h1, _, _, h⟩ | ⟨_, h1, _, _, _, i, hi, h⟩ | ⟨_, h1, _,
      _, _, hi, rfl⟩ | ⟨_, h1, i, hi, h⟩
  · exact hev e es t h1 h2
  · exact hh _ hlow
  · exact key _ s.lowerHres.acceptTick hw (htick h1) ⟨by simp [State.acceptTick],
      by simp [State.acceptTick]; rfl⟩ h
  · exact key _ s.lowerHres.acceptHost.elapse hw (hel _ (hhost h1 i hi)) ⟨by simp, by simpa using hi⟩ h
  · exact hel _ (hill h1 hi)
  · exact key i s.lowerHres hw hlow ⟨by simpa using h1, by simpa using hi⟩ h

end Sys2Proof.Machine
end

