-- ==== Sys2Proof/Tests/Slice0.lean ====
section
/-! SUPPORT. Tests: the checks of WellFormed refuse what they should, written-out words decode, one step of
each operation against the vectors of 95_test_vectors.md, and a witness for the hypotheses of each
statement. -/

namespace Sys2Proof.Tests

open Sys2Proof Sys2Proof.Machine

/-! ## WellFormed: TESTCFG passes, and for each check a configuration it refuses -/

theorem test_testcfg_wellFormed : Cfg.test.wf = true := by decide
theorem test_refuses_nine_channels : { Cfg.test with n := 9 }.channelsOk = false := by decide
theorem test_refuses_no_channel :
    { Cfg.test with n := 0, chDesc := [], scale := [] }.channelsOk = false := by decide
theorem test_refuses_missing_scale : { Cfg.test with scale := [1, 2, 3] }.channelsOk = false := by decide
theorem test_refuses_shared_input :
    { Cfg.test with chDesc := [(1, 2), (3, 4), (5, 6), (7, 1)] }.descriptorsOk = false := by decide
theorem test_refuses_illegal_input : { Cfg.test with muxLegal := [1, 2, 3] }.descriptorsOk = false := by decide
theorem test_refuses_empty_window : { Cfg.test with w := 0 }.windowOk = false := by decide
theorem test_refuses_long_window : { Cfg.test with w := 17 }.windowOk = false := by decide
theorem test_refuses_equal_opcodes : { Cfg.test with opStart := 0x06 }.opcodesOk = false := by decide
theorem test_refuses_opcode_among_reads : { Cfg.test with opStop := 0x2A }.opcodesOk = false := by decide
theorem test_refuses_read_opcode_as_write : { Cfg.test with opWreg := 0x20 }.opcodesOk = false := by decide
theorem test_refuses_low_bits_of_rreg : { Cfg.test with opRreg := 0x21 }.opcodesOk = false := by decide
theorem test_refuses_repeated_register :
    { Cfg.test with regMap := [(0x01, 0x01), (0x01, 0x02)] }.registersOk = false := by decide
theorem test_refuses_illegal_status_address : { Cfg.test with addrStatus := 0x13 }.registersOk = false := by
  decide
theorem test_refuses_zero_status_mask : { Cfg.test with statusDrdyMask := 0 }.registersOk = false := by decide
theorem test_refuses_overlapping_mux_fields :
    { Cfg.test with fMux := ⟨0x11, 4, 4⟩ }.muxFieldOk = false := by decide
theorem test_refuses_illegal_mux_address :
    { Cfg.test with fMux := ⟨0x1F, 4, 0⟩ }.muxFieldOk = false := by decide
theorem test_refuses_gappy_mask : Cfg.test.fieldOk ⟨0x10, 0x05, 0⟩ [0] = false := by decide
theorem test_refuses_mask_off_shift : Cfg.test.fieldOk ⟨0x02, 0xF8, 2⟩ [0] = false := by decide
theorem test_refuses_code_too_wide : Cfg.test.fieldOk ⟨0x10, 0x07, 0⟩ [8] = false := by decide
theorem test_refuses_three_fill_bytes : { Cfg.test with rdataDummy := 3 }.wf = false := by decide

theorem test_refuses_rreg_operand : Instr.wf Cfg.test (.rreg 0x13) = false := by decide
theorem test_refuses_wreg_operand : Instr.wf Cfg.test (.wreg 0x1F 0xFF) = false := by decide
theorem test_refuses_setmux_operand :
    Instr.wf { Cfg.test with muxLegal := [1, 2] } (.setmux 1 3) = false := by decide
theorem test_refuses_setgain_operand : Instr.wf Cfg.test (.setgain 8) = false := by decide
theorem test_refuses_setrate_operand : Instr.wf Cfg.test (.setrate 17) = false := by decide
theorem test_refuses_setref_operand : Instr.wf Cfg.test (.setref 16) = false := by decide

theorem test_refuses_line_rreg : AsmLine.wf (.rreg 32) = false := by decide
theorem test_refuses_line_wreg : AsmLine.wf (.wreg 31 256) = false := by decide
theorem test_refuses_line_setmux : AsmLine.wf (.setmux 0 16) = false := by decide
theorem test_refuses_line_code : AsmLine.wf (.setgain 256) = false := by decide

/-! ## Decode: a word of every row written from its encoding (30 R82 to R85), and illegal words by name -/

theorem test_decode_reset : decode 0b000_00000_00000000 = .ok .reset := by decide
theorem test_decode_start : decode 0b001_00000_00000000 = .ok .start := by decide
theorem test_decode_stop : decode 0b010_00000_00000000 = .ok .stop := by decide
theorem test_decode_rdata : decode 0b011_00000_00000000 = .ok .rdata := by decide
theorem test_decode_rreg : decode 0b100_10010_00000000 = .ok (.rreg 0x12) := by decide
theorem test_decode_wreg : decode 0b101_10001_11111111 = .ok (.wreg 0x11 0xFF) := by decide
theorem test_decode_setmux : decode 0b110_00000_0011_0100 = .ok (.setmux 3 4) := by decide
theorem test_decode_setgain : decode 0b110_00001_00000111 = .ok (.setgain 7) := by decide
theorem test_decode_setrate : decode 0b110_00010_00010000 = .ok (.setrate 16) := by decide
theorem test_decode_setref : decode 0b110_00011_00001010 = .ok (.setref 10) := by decide
theorem test_decode_cycle : decode 0b111_00000_00000000 = .ok .cycle := by decide
theorem test_decode_tare : decode 0b111_00001_00000000 = .ok .tare := by decide
theorem test_rejects_nonzero_address : decode 0x5F00 = .error .mustBeZero := by decide
theorem test_rejects_nonzero_data : decode 0x8101 = .error .mustBeZero := by decide
theorem test_rejects_reserved_cfg : decode 0xC400 = .error .reservedCfg := by decide
theorem test_rejects_reserved_sys : decode 0xFFFF = .error .reservedSys := by decide
theorem test_source_call_word :
    encode (sourceCallInstr (.writeRegister 0x03 0x11)) = 0xA311 := by decide

/-! ## One step of each operation, against 95_test_vectors.md 2.2 to 2.7 -/

/-- Answers with `ok = 1`. -/
def good (rxs : List Byte) : List Answer := rxs.map (Answer.mk true)

/-- TESTCFG with a host operation accepted, the answers `as` to come, and one event after `k` engine
steps. -/
def begun (k : Nat) (as : List Answer) : State :=
  { State.reset with eng := .host, hcmdValid := true, busAnswers := as, sched := [⟨k, .msTick⟩] }

/-- The state a step answers. -/
def after : Host.Outcome State Fault Refusal → State
  | .next s => s
  | .fault _ => State.reset
  | .refused _ => State.reset

def isNext : Host.Outcome State Fault Refusal → Bool
  | .next _ => true
  | .fault _ => false
  | .refused _ => false

theorem next_of_isNext {o : Host.Outcome State Fault Refusal} (h : isNext o = true) : o = .next (after o) := by
  cases o with
  | next s => rfl
  | fault r => cases h
  | refused r => cases h

/-- The response `hres_status`, `hres_data` given in a step, if one was. -/
def response (s : State) : Option (Status × BitVec 32) :=
  if s.hresValid then some (s.resStatus, s.resData) else none

theorem test_reset_restores_defaults :
    let t := after (exec .reset ((begun 3 (good [0])).setShadow 0x11 0x34))
    (response t, t.settleCnt, t.shadowAt 0x11, t.byteIdx) = (some (.ok, 0), 10, 0xFF, 1) := by decide
theorem test_reset_failed_keeps_shadow :
    let t := after (exec .reset ((begun 3 [⟨false, 0⟩]).setShadow 0x11 0x34))
    (response t, t.settleCnt, t.shadowAt 0x11) = (some (.transportFailure, 0), 0, 0x34) := by decide
theorem test_start_trace :
    (after (exec .start (begun 3 (good [9])))).busTrace = [.sel, .x 0x08 9 true, .desel] := by decide
theorem test_stop_failed :
    let t := after (exec .stop (begun 3 [⟨false, 9⟩]))
    (response t, t.busTrace) =
      (some (.transportFailure, 0), [.sel, .x 0x0A 9 false, .desel]) := by decide
theorem test_rdata_sign_extends :
    response (after (exec .rdata (begun 6 (good [7, 0x80, 0, 0])))) = some (.ok, 0xFF800000) := by decide
theorem test_rdata_third_exchange_fails :
    let t := after (exec .rdata (begun 5 (good [7, 0x12] ++ [⟨false, 0⟩])))
    (response t, t.byteIdx, t.cs) = (some (.transportFailure, 0), 3, false) := by decide
theorem test_rreg_answers_third_byte :
    let t := after (exec (.rreg 0x01) (begun 5 (good [8, 9, 5])))
    (response t, t.shadowAt 0x01, t.busTrace.take 2) =
      (some (.ok, 5), 0x01, [.sel, .x 0x21 8 true]) := by decide
theorem test_rreg_illegal_address :
    let t := after (exec (.rreg 0x13) (begun 1 []))
    (response t, t.busTrace, t.cs) = (some (.invalidArgument, 0), [], false) := by decide
theorem test_wreg_updates_shadow :
    let t := after (exec (.wreg 0x11 0x34) (begun 4 (good [8, 9])))
    (response t, t.shadowAt 0x11, t.busTrace) =
      (some (.ok, 0), 0x34, [.sel, .x 0x51 8 true, .x 0x34 9 true, .desel]) := by decide
theorem test_wreg_second_exchange_fails :
    let t := after (exec (.wreg 0x11 0x34) (begun 4 (good [8] ++ [⟨false, 9⟩])))
    (response t, t.shadowAt 0x11, t.byteIdx) = (some (.transportFailure, 0), 0xFF, 2) := by decide
theorem test_setmux_packs_codes :
    (after (exec (.setmux 3 4) (begun 4 (good [8, 9])))).shadowAt 0x11 = 0x34 := by decide
theorem test_setgain_keeps_other_bits :
    (after (exec (.setgain 3) ((begun 4 (good [8, 9])).setShadow 0x10 0x80))).shadowAt 0x10 = 0x83 := by
  decide
theorem test_setgain_illegal_code :
    response (after (exec (.setgain 8) (begun 1 []))) = some (.invalidArgument, 0) := by decide
theorem test_setrate_shifts_code :
    (after (exec (.setrate 16) (begun 4 (good [8, 9])))).shadowAt 0x02 = 0x84 := by decide
theorem test_setref_keeps_other_bits :
    (after (exec (.setref 0x0A) ((begun 4 (good [8, 9])).setShadow 0x06 0x15))).shadowAt 0x06 = 0x1A := by
  decide

/-- A channel with sample `raw` and offset `offset`. -/
def chan (raw offset : Int) (valid : Bool) : Chan :=
  { Chan.reset 5 with raw := BitVec.ofInt 32 raw, offset := BitVec.ofInt 32 offset, valid := valid }

theorem test_tare_takes_invalid_channels_too :
    let t := after (exec .tare { begun 1 [] with
      chans := [chan 100 1 true, chan (-5) 2 false, chan 0 3 true, chan 8388607 4 true] })
    (response t, t.chans.map fun c => c.offset.toInt) =
      (some (.ok, 0), [100, -5, 0, 8388607]) := by decide

/-- A whole CYCLE of one channel in continuous mode on an active polled line (95 AQ5), with the samples of
program P2's first channel. -/
def oneChannel : Cfg :=
  { Cfg.test with
    n := 1
    chDesc := [(1, 2)]
    scale := [256000]
    convMode := .continuous
    irqOk := false }

/-- That configuration with a CYCLE accepted, the line active, and six answers to come. -/
def oneCycle : State :=
  { State.resetWith oneChannel with
    eng := .host
    curW := 0xE000
    hcmdValid := true
    drdySync := true
    now := 1234
    busAnswers := good [1, 2, 3, 0x12, 0x34, 0x56] }

theorem test_cycle_samples_and_calibrates :
    let t := after (exec .cycle oneCycle)
    (response t, (t.chan 0).raw.toInt, (t.chan 0).phys.toInt, t.packet) =
      (some (.ok, 0x401), 1193046, 305419776000, [0xD2, 0x04, 0x8E, 0x05]) := by decide
theorem test_cycle_aborts_failed_visit :
    let t := after (exec .cycle { oneCycle with busAnswers := [⟨false, 0⟩] })
    (response t, (t.chan 0).err, t.busTrace) =
      (some (.ok, 0x400), .transportFailure, [.sel, .x 0x51 0 false, .desel]) := by decide

/-! ## Operand operations (95 E1, 2.5) and reset -/

theorem test_decode24_corners :
    (decode24 0x80 0 1 = 0xFF800001) ∧ (decode24 0x7F 0xFF 0xFF = 0x007FFFFF) := by decide
theorem test_rha_ties_away_from_zero :
    [rha 5 10, rha (-5) 10, rha 25 10, rha (-4) 10, rha 7 2, rha (-6) 4] = [1, -1, 3, 0, 4, -2] := by decide
theorem test_ring_of_three_evicts_oldest :
    let c := [1, 2, 3, 4, 5].foldl (fun c x => c.ringInsert 3 (BitVec.ofNat 64 x)) (Chan.reset 3)
    (c.ring, c.head, c.cnt, c.sum) = ([4, 5, 3], 2, 3, 12) := by decide
theorem test_reset_memories_canonical :
    Memory.wf State.reset.cfg.regDefault State.reset.shadow = true ∧
    Memory.wf pktDefault State.reset.pkt = true := by decide
theorem test_ms_tick_wraps_now :
    let t := ({ State.reset with now := 0xFFFFFFFF, tmoCnt := 1 } : State).msTick
    (t.now, t.tmoCnt, t.settleCnt) = (0, 0, 0) := by decide

theorem test_placed_word_is_run :
    let t := after (step (State.reset.withFetchWord 16 0x9300))
    (t.curW, response t) = (0x9300, some (.invalidArgument, 0)) := by decide

/-! ## Witnesses: states and operands that meet the hypotheses of each statement, clause by clause -/

/-- An idle engine with word `w` on the host port, and the settle hold at `settle`. -/
def offered (w : CmdWord) (settle : BitVec 16) (tick : Bool) : State :=
  { State.reset with
    hcmdValid := true
    hcmdWord := w
    settleCnt := settle
    tickPend := tick
    sched := [⟨1, .msTick⟩] }

/-- In the middle of RREG 1: one of its three exchanges made. -/
def midRreg : State :=
  { begun 2 (good [9, 5]) with
    curW := 0x8100
    cs := true
    byteIdx := 1
    tickPend := true
    busTrace := [.sel, .x 0x21 8 true] }

/-- `s` with event `e` due, and one more to come. -/
def due (e : Event) (s : State) : State := { s with sched := [⟨0, e⟩, ⟨1, .tick⟩] }

/-- In a CYCLE of the host under TESTCFG: state `f`, channel `ch`, one event after `k` engine steps. -/
def inCycle (f : Fsm) (ch : BitVec 3) (k : Nat) (as : List Answer) : State :=
  { begun k as with curW := 0xE000, fsm := f, ch := ch }

theorem witness_encodeInvertsDecode : decodeWord 0xA311 = some (.wreg 0x03 0x11) := by decide
theorem witness_decoderFollowsRowTable :
    (0xA311 : CmdWord) &&& rowMask (.wreg 0 0) = rowMatch (.wreg 0 0) := by decide
theorem witness_roundingAndClampingLaws :
    (0 : Int) < 10 ∧ 2 * |25 - 10 * rha 25 10| = 10 ∧ (0 : Int) ≤ 25 ∧ (-25 : Int) < 0 ∧
    (-32769 : Int) < -32768 ∧ (32767 : Int) < 32768 ∧ (-32768 : Int) ≤ 32767 := by decide
theorem witness_fieldInsertKeepsOtherBits : 0 < 8 ∧ 7 < 8 := by decide
theorem witness_packetReadsBackByConsumer :
    State.reset.cfg.n ≤ 8 ∧ Memory.wf pktDefault State.reset.pkt = true ∧ 0 < State.reset.cfg.n ∧
    3 < State.reset.cfg.n := by decide
theorem witness_readyMethodFallsBack :
    (Cfg.test.readyMethod = .lineEdge ∧ Cfg.test.irqOk = true) ∧
    ({ Cfg.test with irqOk := false }.readyMethod = .lineEdge ∧
      { Cfg.test with irqOk := false }.irqOk = false) ∧
    { Cfg.test with readyMethod := .statusBit }.readyMethod ≠ .lineEdge ∧
    step midRreg = .next (after (step midRreg)) :=
  ⟨by decide, by decide, by decide, next_of_isNext (by decide)⟩

theorem witness_stepRunsDecodedHostWord :
    let s := offered 0xA311 0 false
    s.cfg.wf = true ∧ s.eventDue = false ∧ s.eng = .idle ∧ s.settleCnt = 0 ∧ s.tickPend = false ∧
    s.hcmdValid = true ∧ decodeWord s.hcmdWord = some (.wreg 0x03 0x11) := by decide
theorem witness_stepResumesOperation :
    midRreg.cfg.wf = true ∧ midRreg.eventDue = false ∧ midRreg.eng ≠ .idle ∧
    decodeWord midRreg.curW = some (.rreg 0x01) := by decide
theorem witness_acceptanceOrder :
    (∀ s ∈ [offered 0xA311 0 true, offered 0xA311 0 false, offered 0xC400 0 false, offered 0xA311 1 false,
        { State.reset with sched := [⟨1, .tick⟩] }],
      s.cfg.wf = true ∧ s.eventDue = false ∧ s.eng = .idle) ∧
    ((offered 0xA311 0 true).settleCnt = 0 ∧ (offered 0xA311 0 true).tickPend = true) ∧
    ((offered 0xA311 0 false).tickPend = false ∧ (offered 0xA311 0 false).hcmdValid = true ∧
      decodeWord (offered 0xA311 0 false).hcmdWord = some (.wreg 0x03 0x11)) ∧
    decodeWord (offered 0xC400 0 false).hcmdWord = none ∧ (offered 0xA311 1 false).settleCnt ≠ 0 ∧
    (State.reset.tickPend = false ∧ State.reset.hcmdValid = false) := by decide
theorem witness_busyEngineAcceptsNothing :
    midRreg.eng ≠ .idle ∧ step midRreg = .next (after (step midRreg)) ∧
    ∀ es, midRreg.sched ≠ ⟨0, .rst⟩ :: es :=
  ⟨by decide, next_of_isNext (by decide), by simp [midRreg, begun]⟩

/-- Every event can be due, with a well-formed configuration: the hypotheses of the statements about
events. -/
theorem witness_events :
    Cfg.test.wf = true ∧
    ∀ e ∈ [Event.drdyChange true, .drdyChange false, .msTick, .tick, .connect, .disconnect, .subscribe,
        .unsubscribe, .hostWord 0xE100, .rst],
      (due e midRreg).cfg = Cfg.test ∧ (due e midRreg).sched = ⟨0, e⟩ :: [⟨1, .tick⟩] := by decide
theorem witness_hostPresentsOneWord :
    (due (.hostWord 0xE100) State.reset).hcmdValid = false ∧
    (due (.hostWord 0xE100) midRreg).hcmdValid = true := by decide

theorem witness_resetCommandEffect :
    let s := begun 3 (good [9])
    let f := begun 3 [⟨false, 9⟩]
    (s.begun ∧ s.calm 3 = true ∧ Memory.wf s.cfg.regDefault s.shadow = true ∧ s.busAnswers = ⟨true, 9⟩ :: []) ∧
    (f.begun ∧ f.calm 3 = true ∧ f.busAnswers = ⟨false, 9⟩ :: []) := by decide
theorem witness_startAndStopEffect :
    ∀ ok : Bool, let s := begun 3 [⟨ok, 9⟩]
      s.begun ∧ s.calm 3 = true ∧ s.busAnswers = ⟨ok, 9⟩ :: [] := by decide
theorem witness_readDataEffect :
    ∀ d ∈ [0, 2], let s : State :=
        { begun (6 + d) (good ([8] ++ List.replicate d 7 ++ [1, 2, 3])) with
          cfg := { Cfg.test with rdataDummy := d } }
      s.begun ∧ s.cfg.rdataDummy ≤ 2 ∧ (List.replicate d (7 : Byte)).length = s.cfg.rdataDummy ∧
      s.calm (6 + s.cfg.rdataDummy) = true ∧
      s.busAnswers = ⟨true, 8⟩ :: (List.replicate d 7).map (Answer.mk true) ++
        [⟨true, 1⟩, ⟨true, 2⟩, ⟨true, 3⟩] ++ [] := by decide
theorem witness_readRegisterEffect :
    let s := begun 5 (good [8, 9, 5])
    s.begun ∧ s.cfg.regLegal 0x12 = true ∧ s.calm 5 = true ∧
    s.busAnswers = ⟨true, 8⟩ :: ⟨true, 9⟩ :: ⟨true, 5⟩ :: [] := by decide

/-- A begun operation with two good answers: what WREG and the helpers need. -/
theorem witness_writeRegisterEffect :
    let s := begun 4 (good [8, 9])
    s.begun ∧ s.cfg.wf = true ∧ s.cfg.regLegal 0x11 = true ∧
    Memory.wf s.cfg.regDefault s.shadow = true ∧ s.calm 4 = true ∧
    s.busAnswers = ⟨true, 8⟩ :: ⟨true, 9⟩ :: [] := by decide
theorem witness_setMuxEffect :
    let s := begun 4 (good [8, 9])
    s.begun ∧ s.cfg.wf = true ∧ Instr.wf s.cfg (.setmux 3 4) = true ∧
    Memory.wf s.cfg.regDefault s.shadow = true ∧ s.calm 4 = true ∧
    s.busAnswers = ⟨true, 8⟩ :: ⟨true, 9⟩ :: [] := by decide
theorem witness_fieldHelperEffect :
    let s := begun 4 (good [8, 9])
    s.begun ∧ s.cfg.wf = true ∧ Instr.wf s.cfg (.setgain 7) = true ∧ Instr.wf s.cfg (.setrate 16) = true ∧
    Instr.wf s.cfg (.setref 15) = true ∧ Memory.wf s.cfg.regDefault s.shadow = true ∧ s.calm 4 = true ∧
    s.busAnswers = ⟨true, 8⟩ :: ⟨true, 9⟩ :: [] := by decide
theorem witness_failedExchangeEndsOperation :
    let s := begun 5 (good [8, 9] ++ [⟨false, 7⟩])
    s.begun ∧ s.cfg.wf = true ∧ hostFrame s (.rreg 0x01) = some (rregFrame s.cfg 0x01) ∧
    s.busAnswers = good [8, 9] ++ ⟨false, 7⟩ :: [] ∧ (good [8, 9]).length < (rregFrame s.cfg 0x01).length ∧
    (∀ a ∈ good [8, 9], a.ok = true) ∧ s.calm ((good [8, 9]).length + 3) = true := by decide
theorem witness_illegalOperandsAnswered :
    (begun 1 []).begun ∧ (begun 1 []).calm 1 = true ∧
    ∀ i ∈ [Instr.rreg 0x13, .wreg 0x1F 0, .setgain 8, .setrate 17, .setref 16],
      i.wf (begun 1 []).cfg = false := by decide
theorem witness_unansweredExchangeWaits :
    let s := begun 1 []
    s.begun ∧ s.cfg.wf = true ∧ hostFrame s .rdata = some (rdataFrame s.cfg) ∧ s.busAnswers = [] ∧
    s.calm 1 = true := by decide
theorem witness_tareEffect :
    let s := begun 1 []
    s.eng = .host ∧ s.chans.length = s.cfg.n ∧ s.calm 1 = true ∧ 3 < s.cfg.n := by decide

theorem witness_cycleBeginsWithChannelZero :
    let s := inCycle .idle 0 1 []
    s.fsm = .idle ∧ s.eventAfter 1 ∧ 0 < s.cfg.n ∧ s.chans.length = s.cfg.n := by decide
theorem witness_selectChannelWritesDescriptor :
    let s := inCycle .selectChannel 3 4 (good [8, 9])
    let f := inCycle .selectChannel 3 3 [⟨false, 8⟩]
    let g := inCycle .selectChannel 3 4 [⟨true, 8⟩, ⟨false, 9⟩]
    (s.cfg.wf = true ∧ s.fsm = .selectChannel ∧ s.cs = false ∧ s.cfg.chDesc[s.ch.toNat]? = some (7, 8) ∧
      Memory.wf s.cfg.regDefault s.shadow = true ∧ s.eventAfter 4 ∧
      s.busAnswers = ⟨true, 8⟩ :: ⟨true, 9⟩ :: []) ∧
    (f.fsm = .selectChannel ∧ f.cs = false ∧ f.cfg.chDesc[f.ch.toNat]? = some (7, 8) ∧ f.eventAfter 3 ∧
      f.busAnswers = ⟨false, 8⟩ :: []) ∧
    (g.fsm = .selectChannel ∧ g.cs = false ∧ g.cfg.chDesc[g.ch.toNat]? = some (7, 8) ∧ g.eventAfter 4 ∧
      Memory.wf g.cfg.regDefault g.shadow = true ∧ g.busAnswers = ⟨true, 8⟩ :: ⟨false, 9⟩ :: []) := by decide
theorem witness_startStateByConversionMode :
    let c : State := { inCycle .start 0 1 [] with cfg := { Cfg.test with convMode := .continuous } }
    (c.fsm = .start ∧ c.cs = false ∧ c.cfg.convMode = .continuous ∧ c.eventAfter 1) ∧
    ∀ ok : Bool, let s := inCycle .start 0 3 [⟨ok, 9⟩]
      s.fsm = .start ∧ s.cs = false ∧ s.cfg.convMode = .pulse ∧ s.eventAfter 3 ∧
      s.busAnswers = ⟨ok, 9⟩ :: [] := by decide

/-- Waiting with the ready line and its latch at `b`, `tmo` milliseconds left. -/
def waiting (b : Bool) (tmo : BitVec 16) (irqOk : Bool) : State :=
  { inCycle .awaitReady 2 1 [] with
    cfg := { Cfg.test with irqOk := irqOk }
    rdyFlag := b
    drdySync := b
    tmoCnt := tmo }

theorem witness_lineEdgeWait :
    (∀ s ∈ [waiting true 0 true, waiting false 0 true, waiting false 1 true],
      s.fsm = .awaitReady ∧ readyMethodInForce s.cfg = .lineEdge ∧ s.eventAfter 1) ∧
    (waiting true 0 true).rdyFlag = true ∧
    ((waiting false 0 true).rdyFlag = false ∧ (waiting false 0 true).tmoCnt = 0) ∧
    ((waiting false 1 true).rdyFlag = false ∧ (waiting false 1 true).tmoCnt ≠ 0) := by decide
theorem witness_lineLevelWait :
    (∀ s ∈ [waiting true 0 false, waiting false 0 false, waiting false 1 false],
      s.fsm = .awaitReady ∧ readyMethodInForce s.cfg = .lineLevel ∧ s.eventAfter 1) ∧
    (waiting true 0 false).drdySync = true ∧
    ((waiting false 0 false).drdySync = false ∧ (waiting false 0 false).tmoCnt = 0) ∧
    ((waiting false 1 false).drdySync = false ∧ (waiting false 1 false).tmoCnt ≠ 0) := by decide

/-- Polling the status register, with poll byte `p` read or not, `tmo` milliseconds left. -/
def polling (p : Option Byte) (tmo : BitVec 16) (k : Nat) : State :=
  { inCycle .awaitReady 2 k (good [8, 9, 4]) with
    cfg := { Cfg.test with readyMethod := .statusBit }
    poll := p
    tmoCnt := tmo }

theorem witness_statusPollWait :
    (∀ s ∈ [polling none 0 5, polling (some 4) 0 1, polling (some 0xFB) 0 1, polling (some 0xFB) 1 1],
      s.cfg.wf = true ∧ s.fsm = .awaitReady ∧ s.cs = false ∧ readyMethodInForce s.cfg = .statusBit) ∧
    ((polling none 0 5).poll = none ∧ (polling none 0 5).eventAfter 5 ∧
      (polling none 0 5).busAnswers = ⟨true, 8⟩ :: ⟨true, 9⟩ :: ⟨true, 4⟩ :: []) ∧
    (polling (some 4) 0 1).eventAfter 1 ∧ (4 : Byte) &&& Cfg.test.statusDrdyMask ≠ 0 ∧
    (0xFB : Byte) &&& Cfg.test.statusDrdyMask = 0 ∧ (polling (some 0xFB) 0 1).tmoCnt = 0 ∧
    (polling (some 0xFB) 1 1).tmoCnt ≠ 0 := by decide
theorem witness_statusPollWait_failed :
    ∀ as ∈ [good [], good [8, 9]],
      let s : State := { polling none 0 (as.length + 3) with busAnswers := as ++ [⟨false, 4⟩] }
      s.cfg.wf = true ∧ s.fsm = .awaitReady ∧ s.cs = false ∧ readyMethodInForce s.cfg = .statusBit ∧
      s.poll = none ∧ (∀ a ∈ as, a.ok = true) ∧ as.length < 3 ∧ s.eventAfter (as.length + 3) ∧
      s.busAnswers = as ++ ⟨false, 4⟩ :: [] := by decide
theorem witness_readStateCaptures :
    ∀ ch ∈ [(0 : BitVec 3), 3], let s := inCycle .read ch 6 (good [8, 1, 2, 3])
      s.cfg.wf = true ∧ s.fsm = .read ∧ s.cs = false ∧ s.chans.length = s.cfg.n ∧ s.ch.toNat < s.cfg.n ∧
      ([] : List Byte).length = s.cfg.rdataDummy ∧ s.eventAfter (6 + s.cfg.rdataDummy) ∧
      s.busAnswers =
        ⟨true, 8⟩ :: ([] : List Byte).map (Answer.mk true) ++ [⟨true, 1⟩, ⟨true, 2⟩, ⟨true, 3⟩] ++ [] := by
  decide
theorem witness_readStateCaptures_failed :
    ∀ as ∈ [good [], good [8, 1, 2]], let s := inCycle .read 3 (as.length + 3) (as ++ [⟨false, 4⟩])
      s.cfg.wf = true ∧ s.fsm = .read ∧ s.cs = false ∧ s.chans.length = s.cfg.n ∧ s.ch.toNat < s.cfg.n ∧
      (∀ a ∈ as, a.ok = true) ∧ as.length < 4 + s.cfg.rdataDummy ∧ s.eventAfter (as.length + 3) ∧
      s.busAnswers = as ++ ⟨false, 4⟩ :: [] := by decide
theorem witness_visitErrorAdvances :
    ∀ ch ∈ [(2 : BitVec 3), 3], let s := inCycle .read ch 6 []
      s.cfg.wf = true ∧ s.chans.length = s.cfg.n ∧ s.ch.toNat < s.cfg.n ∧
      (s.ch.toNat + 1 < s.cfg.n ∨ s.ch.toNat + 1 = s.cfg.n) := by decide

/-- At CYCLE_COMPLETE, before step `p`, subscribed or not. -/
def completing (p : Phase) (subscribed : Bool) : State :=
  { inCycle .cycleComplete 3 1 [] with
    phase := p
    connected := subscribed
    notifyEn := subscribed
    sinkAnswers := [true]
    chans := List.replicate 4 (chan 100 0 true) }

theorem witness_cycleCompleteCalibratesThenEncodes :
    ∀ p ∈ [Phase.calibrate, .encode], let s := completing p false
      s.fsm = .cycleComplete ∧ s.eventAfter 1 ∧ s.phase = p ∧ s.chans.length = s.cfg.n := by decide
theorem witness_notifyGateEndsCycle :
    (∀ b : Bool, let s := completing .notify b
      s.cfg.n ≤ 8 ∧ s.chans.length = s.cfg.n ∧ s.fsm = .cycleComplete ∧ s.phase = .notify ∧
      s.calm 1 = true ∧ s.connected = b ∧ s.notifyEn = b ∧ s.sinkAnswers = true :: []) ∧
    ((after (exec .cycle (completing .notify true))).eng = .idle ∧
      exec .cycle (completing .notify true) = .next (after (exec .cycle (completing .notify true))) ∧
      (completing .notify true).eng = .host ∧
      ({ completing .notify true with eng := .tick } : State).eng = .tick) :=
  ⟨by decide, by decide, next_of_isNext (by decide), by decide⟩
theorem witness_notifyGateEndsCycle_unanswered :
    ∀ p ∈ [Phase.notify, .sending], let s : State := { completing p true with sinkAnswers := [] }
      s.cfg.n ≤ 8 ∧ s.chans.length = s.cfg.n ∧ s.fsm = .cycleComplete ∧ s.calm 1 = true ∧ s.phase = p ∧
      s.connected = true ∧ s.notifyEn = true ∧ s.sinkAnswers = [] := by decide

/-- An unanswered send still waits after a disconnect (44 R204, 93 U15). -/
theorem test_disconnect_leaves_send_waiting :
    let t := after (step { completing .sending false with sinkAnswers := [] })
    (t.eng, t.fsm, t.phase, t.ntfStatus) = (.host, .cycleComplete, .sending, .ok) := by decide
theorem witness_cycleCompletesEveryChannel :
    let s := oneCycle
    let ans := good [1, 2, 3, 0x12, 0x34, 0x56]
    s.cfg.wf = true ∧ s.begun ∧ s.fsm = .idle ∧ s.sched = [] ∧ s.chans.length = s.cfg.n ∧
    Memory.wf pktDefault s.pkt = true ∧ readyMethodInForce s.cfg = .lineLevel ∧ s.drdySync = true ∧
    s.subscribed = false ∧ s.busAnswers = ans ++ [] ∧ ans.length = s.cfg.n * visitExchanges s.cfg ∧
    (∀ a ∈ ans, a.ok = true) := by decide

/-! ### Calibration -/

theorem slots_bounded {l : List (BitVec 64)} (h : (l.all fun x => decide (|x.toInt| ≤ physBound)) = true) :
    ∀ x ∈ l, |x.toInt| ≤ physBound := by simpa using h

theorem chan_inv : (chan 8388607 (-8388608) true).Inv 5 :=
  ⟨by decide, by decide, by decide, by decide, slots_bounded (by decide), by decide, by decide, by decide,
    by decide⟩

/-- A ring of three after `k` inserts of 1, 2, …. -/
def ringAfter (k : Nat) : Chan :=
  ((List.range k).map (· + 1)).foldl (fun c x => c.ringInsert 3 (BitVec.ofNat 64 x)) (Chan.reset 3)

theorem ringAfter_inv : (ringAfter 2).Inv 3 ∧ (ringAfter 3).Inv 3 :=
  ⟨⟨by decide, by decide, by decide, by decide, slots_bounded (by decide), by decide, by decide, by decide,
    by decide⟩, ⟨by decide, by decide, by decide, by decide, slots_bounded (by decide), by decide, by decide,
    by decide, by decide⟩⟩

theorem witness_calibrationIsExact :
    1 ≤ 5 ∧ 5 ≤ 16 ∧ (chan 8388607 (-8388608) true).Inv 5 ∧ (chan 8388607 (-8388608) true).valid = true ∧
    (chan 5 7 false).valid = false :=
  ⟨by decide, by decide, chan_inv, rfl, rfl⟩
theorem witness_movingAverageHoldsLatest :
    1 ≤ 3 ∧ 3 ≤ 16 ∧ ∀ x ∈ [(1 : BitVec 64), 2, 3, -4], |x.toInt| ≤ physBound :=
  ⟨by decide, by decide, slots_bounded (by decide)⟩
theorem witness_ringInsertEvictsOldest :
    1 ≤ 3 ∧ 3 ≤ 16 ∧ (ringAfter 2).Inv 3 ∧ (ringAfter 3).Inv 3 ∧ |(7 : BitVec 64).toInt| ≤ physBound ∧
    (ringAfter 2).cnt.toNat < 3 ∧ (ringAfter 3).cnt.toNat = 3 :=
  ⟨by decide, by decide, ringAfter_inv.1, ringAfter_inv.2, by decide, by decide, by decide⟩
theorem witness_tareThenSameSampleIsZero :
    let s : State := { begun 1 [] with chans := List.replicate 4 (chan 100 7 true) }
    let t := after (exec .tare s)
    s.chans.length = s.cfg.n ∧ 2 < s.cfg.n ∧ s.calm 1 = true ∧ exec .tare s = .next t ∧
    (t.chan 2).offset = (chan 100 100 true).offset ∧ (s.chan 2).raw = (chan 100 100 true).raw ∧
    (chan 100 100 true).valid = true :=
  ⟨by decide, by decide, by decide, next_of_isNext (by decide), by decide, by decide, by decide⟩

/-! ### Frames and invariants -/

theorem witness_operationsLeaveEventRegisters :
    exec .cycle oneCycle = .next (after (exec .cycle oneCycle)) := next_of_isNext (by decide)
theorem witness_onlyCycleWritesMeasurements :
    (∀ i ∈ [Instr.rdata, .tare], i ≠ .cycle ∧ exec i (begun 9 (good [8, 1, 2, 3])) =
      .next (after (exec i (begun 9 (good [8, 1, 2, 3]))))) ∧ Instr.rdata ≠ .tare :=
  ⟨fun i hi => ⟨by revert i; decide, next_of_isNext (by revert i; decide)⟩, by decide⟩
theorem witness_onlyConfigurationWritesShadow :
    let s := begun 9 (good [8, 9, 5])
    Memory.wf s.cfg.regDefault s.shadow = true ∧
    (∀ i ∈ [Instr.rdata, .rreg 0x01, .wreg 0x11 0x34], exec i s = .next (after (exec i s)) ∧ i ≠ .reset) ∧
    (0x10 : RegAddr) ≠ 0x11 :=
  ⟨by decide, fun i hi => ⟨next_of_isNext (by revert i; decide), by revert i; decide⟩, by decide⟩
theorem witness_stepNeverChangesConfiguration : step midRreg = .next (after (step midRreg)) :=
  next_of_isNext (by decide)
theorem witness_stepKeepsSubscriberInvariant :
    (completing .notify true).SubscriberInv ∧
    step (completing .notify true) = .next (after (step (completing .notify true))) :=
  ⟨fun _ => by decide, next_of_isNext (by decide)⟩

/-- Before the encode step, with one shadow register and one packet byte already written. -/
def withMemories : State :=
  { completing .encode false with shadow := [(0x11, 0x78)], pkt := [(2, 5)] }

theorem witness_stepKeepsMemories :
    withMemories.MemoryInv ∧ step withMemories = .next (after (step withMemories)) :=
  ⟨⟨by decide, by decide, by decide, by decide⟩, next_of_isNext (by decide)⟩
theorem witness_stepKeepsChannels :
    (completing .calibrate false).ChannelInv ∧
    step (completing .calibrate false) = .next (after (step (completing .calibrate false))) := by
  refine ⟨⟨by decide, by decide, ?_⟩, next_of_isNext (by decide)⟩
  intro c hc
  obtain rfl : c = chan 100 0 true := List.eq_of_mem_replicate hc
  exact ⟨by decide, by decide, by decide, by decide, slots_bounded (by decide), by decide, by decide,
    by decide, by decide⟩

theorem midRreg_sequenceInv : midRreg.SequenceInv := by
  constructor <;> decide

theorem witness_stepKeepsSequencing :
    midRreg.SequenceInv ∧ step midRreg = .next (after (step midRreg)) :=
  ⟨midRreg_sequenceInv, next_of_isNext (by decide)⟩
theorem witness_stepKeepsTraceBracketed :
    midRreg.TraceInv ∧ step midRreg = .next (after (step midRreg)) :=
  ⟨⟨by decide, by decide, by decide⟩, next_of_isNext (by decide)⟩
theorem witness_resetMeetsInvariants : oneChannel.wf = true := by decide
theorem witness_sequencedStatesAlwaysStep : midRreg.SequenceInv ∧ midRreg.hostKeepsWord :=
  ⟨midRreg_sequenceInv, by intro w es h; simp [midRreg, begun] at h⟩
theorem witness_operationRunsUntilItMustWait :
    midRreg.SequenceInv ∧ midRreg.eng ≠ .idle ∧ decodeWord midRreg.curW = some (.rreg 0x01) ∧
    exec (.rreg 0x01) midRreg = .next (after (exec (.rreg 0x01) midRreg)) :=
  ⟨midRreg_sequenceInv, by decide, by decide, next_of_isNext (by decide)⟩

end Sys2Proof.Tests
end

