-- ==== Sys2Proof/Proofs/Scope.lean ====
section
/-! PROOFS. The statements of 00_scope.md: the field insert (R12), rounding and clamping (R10, R11), and the
configuration that no step changes (R5). -/

namespace Sys2Proof.Machine

/-! ## The field insert (00 R12) -/

/-- Under the mask stands the shifted code, outside it the byte written into. -/
theorem insertField_getLsbD {k : Nat} (b mask : Byte) (shift : Nat) (code : Byte) (hk : k < 8) :
    (insertField b mask shift code).getLsbD k =
      (b.getLsbD k && !mask.getLsbD k || (decide (shift ≤ k) && code.getLsbD (k - shift)) && mask.getLsbD k) := by
  simp only [insertField, BitVec.getLsbD_or, BitVec.getLsbD_and, BitVec.getLsbD_not, BitVec.getLsbD_shiftLeft,
    hk, decide_true, Bool.true_and, ← decide_not, not_lt]

/-- Settles O9, by whether the mask has the bit. -/
theorem fieldInsertKeepsOtherBits : Obligations.FieldInsertKeepsOtherBits := by
  intro b mask code shift k hk
  cases hm : mask.getLsbD k with
  | true => simp [insertField_getLsbD _ _ _ _ hk, hm]
  | false => simp [insertField_getLsbD _ _ _ _ hk, hm]

/-! ## Rounding (00 R10) -/

theorem rha_of_nonneg {n : Int} (d : Int) (hn : 0 ≤ n) : rha n d = (2 * n + d) / (2 * d) := if_pos hn

theorem rha_of_neg {n : Int} (d : Int) (hn : n < 0) : rha n d = -((2 * (-n) + d) / (2 * d)) :=
  if_neg (not_le.mpr hn)

/-- Rounding is odd: below 0 it is the mirror image of what it is above. -/
theorem rha_neg_of_pos {n : Int} (d : Int) (hn : 0 < n) : rha (-n) d = -rha n d := by
  rw [rha_of_neg d (neg_lt_zero.mpr hn), rha_of_nonneg d hn.le, neg_neg]

/-- For `n ≥ 0` the error `n - d * rha n d` lies in `[-d/2, d/2)`: the half belongs to the upper side. -/
theorem rha_error_of_nonneg {n d : Int} (hn : 0 ≤ n) (hd : 0 < d) :
    -d ≤ 2 * (n - d * rha n d) ∧ 2 * (n - d * rha n d) < d := by
  rw [rha_of_nonneg d hn]
  have hdiv := Int.mul_ediv_add_emod (2 * n + d) (2 * d)
  have hlow := Int.emod_nonneg (2 * n + d) (show 2 * d ≠ 0 by omega)
  have hhigh := Int.emod_lt_of_pos (2 * n + d) (show 0 < 2 * d by omega)
  rw [mul_assoc] at hdiv
  omega

/-- `q` is an integer nearest to `n / d`, the one away from zero on a tie (00 R10); `rha` is one by
`rha_roundsAway`. -/
def RoundsAway (n d q : Int) : Prop :=
  2 * |n - d * q| ≤ d ∧ (2 * |n - d * q| = d → |n| < |d * q|)

theorem RoundsAway.neg {n d q : Int} (h : RoundsAway n d q) : RoundsAway (-n) d (-q) := by
  have herr : |-n - d * -q| = |n - d * q| := by rw [← abs_neg]; congr 1; ring
  rwa [RoundsAway, herr, mul_neg, abs_neg, abs_neg]

/-- A tie for `n ≥ 0` leaves the error `-d/2`, so that the rounded value lies above `n`. -/
theorem rha_roundsAway_of_nonneg {n d : Int} (hn : 0 ≤ n) (hd : 0 < d) : RoundsAway n d (rha n d) := by
  obtain ⟨hlow, hhigh⟩ := rha_error_of_nonneg hn hd
  refine ⟨?_, fun htie => ?_⟩
  · have hhalf : |n - d * rha n d| ≤ d / 2 := abs_le.mpr ⟨by omega, by omega⟩
    omega
  · have habove : n < d * rha n d := by
      rcases abs_cases (n - d * rha n d) with ⟨h, -⟩ | ⟨h, -⟩ <;> omega
    rwa [abs_of_nonneg hn, abs_of_pos (hn.trans_lt habove)]

theorem rha_roundsAway (n : Int) {d : Int} (hd : 0 < d) : RoundsAway n d (rha n d) := by
  rcases le_or_gt 0 n with hn | hn
  · exact rha_roundsAway_of_nonneg hn hd
  · have hpos : 0 < -n := neg_pos.mpr hn
    simpa only [← rha_neg_of_pos d hpos, neg_neg] using (rha_roundsAway_of_nonneg hpos.le hd).neg

/-! ## Clamping (00 R11) -/

theorem clamp16_of_lt {q : Int} (h : q < -32768) : clamp16 q = -32768 := if_pos h

theorem clamp16_of_gt {q : Int} (h : 32767 < q) : clamp16 q = 32767 := by
  rw [clamp16, if_neg (by omega), if_pos h]

theorem clamp16_of_mem {q : Int} (hlow : -32768 ≤ q) (hhigh : q ≤ 32767) : clamp16 q = q := by
  rw [clamp16, if_neg (not_lt.mpr hlow), if_neg (not_lt.mpr hhigh)]

/-- Settles O8: rounding for `n < 0` from rounding for `-n > 0` by oddness, clamping range by range. -/
theorem roundingAndClampingLaws : Obligations.RoundingAndClampingLaws := by
  refine ⟨fun n d hd => ?_, fun q => ⟨clamp16_of_lt, clamp16_of_gt, clamp16_of_mem⟩⟩
  obtain ⟨hnear, htie⟩ := rha_roundsAway n hd
  exact ⟨hnear, htie, rha_of_nonneg d, rha_of_neg d⟩

/-! ## The configuration (00 R5) -/

/-- No event of the environment, `rst` among them, changes the configuration. -/
theorem applyEvent_cfg {e : Event} {s t : State} (h : applyEvent e s = .next t) : t.cfg = s.cfg := by
  cases e with
  | hostWord w =>
    simp only [applyEvent] at h
    split at h
    · cases h
    · cases h; simp
  | rst => cases h; rfl
  | _ => cases h; simp

/-- Settles O51: no event changes the configuration (`applyEvent_cfg`), nor does any engine step
(`opStep_frame`), acceptance or wait. -/
theorem stepNeverChangesConfiguration : Obligations.StepNeverChangesConfiguration := by
  intro s t h
  refine step_keeps (P := fun u => u.cfg = s.cfg) ?event ?lower ?engine ?elapse ?hasten ?tick ?host ?illegal h
  case event => exact fun e es u _ hu => (applyEvent_cfg hu).trans rfl
  case lower => simp
  case engine =>
    intro i u hwf hu _
    exact EngineStep.all_mono (opStep_frame i u hwf) (fun v hv => hv.1.trans hu) (fun v hv => hv.1.trans hu)
  case elapse => simp
  case hasten => simp
  case tick => simp [State.acceptTick]
  case host => simp
  case illegal => simp

end Sys2Proof.Machine
end

/-! PROOFS. The statements of 10_state.md: what an operation leaves alone (R27, R30, R33 to R46), the host
port, `rst` and the registers after reset (R20, R25, R49), and the invariants of the subscriber flags (R45),
of the channels (R38 to R43) and of the sequencing registers (R26 to R28). -/

namespace Sys2Proof.Machine

/-! ## Views of the state -/

variable {α : Type} {g : State → α} {P Q : State → Prop}

/-- A view of the state that does not show what every operation may write on its way: the bus and the
registers of a command cycle (40 R105), the response (10 R29) and the schedule (log 2). -/
structure BusBlind (g : State → α) : Prop where
  select : ∀ s, g s.select = g s
  xfer : ∀ s tx keep ans, g (s.xfer tx keep ans) = g s
  deselect : ∀ s, g s.deselect = g s
  complete : ∀ s st d, g (s.complete st d) = g s
  elapse : ∀ s, g s.elapse = g s
  hasten : ∀ s, g s.hasten = g s

/-- An engine step from `s` leaves what the view `g` shows. -/
abbrev EngineStep.Keeps (g : State → α) (s : State) (e : EngineStep) : Prop :=
  e.All (fun t => g t = g s) (fun t => g t = g s)

/-- An operation that leaves a view alone until it completes: what its completing steps bring about, or
what holds without one, is what `exec` answers. -/
theorem exec_ends {i : Instr} {s t : State} (hg : BusBlind g)
    (hstep : ∀ u, g u = g s → (opStep s.cfg i u).All (fun v => g v = g s) Q) (hpause : ∀ u, g u = g s → Q u)
    (helapse : ∀ u, Q u → Q u.elapse) (h : exec i s = .next t) : Q t := by
  rw [exec_eq, runOperation_eq] at h
  subst h
  refine drive_all hstep hpause ?_ helapse ?_ s.fuel s rfl
  · exact fun u hu => (hg.elapse u).trans hu
  · exact fun u hu => hpause _ ((hg.hasten u).trans hu)

/-- A view that every engine step of an operation leaves alone is left alone by `exec`. -/
theorem exec_keeps {i : Instr} {s t : State} (hg : BusBlind g)
    (hstep : ∀ u, (opStep s.cfg i u).Keeps g u) (h : exec i s = .next t) : g t = g s := by
  refine exec_ends (Q := fun u => g u = g s) hg ?_ (fun _ hu => hu) (fun u hu => (hg.elapse u).trans hu) h
  intro u hu
  have hkeeps := hstep u
  rwa [EngineStep.Keeps, hu] at hkeeps

/-! ### Engine steps under every configuration -/

/-- What an engine step of a command cycle leads to, wherever in the cycle it falls. -/
theorem frameStep_ends {frame : Frame} {finish : Status → List Byte → State → EngineStep} {s : State}
    (hsel : P s.select) (hx : ∀ tx keep ans, P (s.xfer tx keep ans))
    (hfail : (finish .transportFailure [] s.deselect).All P Q)
    (hok : ∀ kept, (finish .ok kept s.deselect).All P Q) : (frameStep frame finish s).All P Q :=
  frameStep_all (fun _ => hsel) (fun tx keep ans _ _ _ _ _ => hx tx keep ans) (fun _ _ => hfail)
    (fun _ _ _ => hok _)

/-- What an engine step of `DoWREG` leads to, by the state its caller is given (40 R115). -/
theorem doWreg_all {a : RegAddr} {v : Byte} {k : Status → State → EngineStep} {s : State}
    (hsel : P s.select) (hx : ∀ tx keep ans, P (s.xfer tx keep ans))
    (hrefuse : (k .invalidArgument s).All P Q) (hfail : (k .transportFailure s.deselect).All P Q)
    (hok : (k .ok (s.deselect.setShadow a v)).All P Q) : (doWreg a v k s).All P Q := by
  unfold doWreg
  split
  · exact frameStep_ends hsel hx hfail fun _ => hok
  · exact hrefuse

/-- The shadow registers an operation may write (10 R30): WREG the one at its own address, those that only
read or answer none. Of the helpers, RESET and CYCLE nothing is said here. -/
def MaySetShadow (a : RegAddr) : Instr → Prop
  | .wreg b _ => a = b
  | .start | .stop | .rdata | .rreg _ | .tare => False
  | .reset | .setmux _ _ | .setgain _ | .setrate _ | .setref _ | .cycle => True

/-- The states, but for the answer, that the completing step of a wire command or a helper leads to: the
operands were refused, the cycle was released, or it was released and the shadow registers were written. -/
inductive HostEnd (i : Instr) (s : State) : State → Prop
  | refused : HostEnd i s s
  | released : HostEnd i s s.deselect
  | reset : i = .reset → HostEnd i s s.deselect.resetDevice
  | configured (a : RegAddr) (v : Byte) : MaySetShadow a i → HostEnd i s (s.deselect.setShadow a v)

/-- `DoWREG` on behalf of a host operation that may write the address. -/
theorem doWreg_answer_all {i : Instr} {a : RegAddr} {v : Byte} {s : State} (ha : MaySetShadow a i)
    (hsel : P s.select) (hx : ∀ tx keep ans, P (s.xfer tx keep ans))
    (hend : ∀ t, HostEnd i s t → ∀ st d, Q (t.complete st d)) : (doWreg a v answer s).All P Q :=
  doWreg_all hsel hx (hend _ .refused _ _) (hend _ .released _ _) (hend _ (.configured a v ha) _ _)

/-- A field helper: its operand is refused, or it is a `DoWREG` (41 R130). -/
theorem doSetField_answer_all {i : Instr} {f : RegField} {legal : List Byte} {code : Byte} {s : State}
    (ha : MaySetShadow f.addr i) (hsel : P s.select) (hx : ∀ tx keep ans, P (s.xfer tx keep ans))
    (hend : ∀ t, HostEnd i s t → ∀ st d, Q (t.complete st d)) :
    (doSetField f legal code answer s).All P Q := by
  unfold doSetField
  split
  · exact doWreg_answer_all ha hsel hx hend
  · exact hend _ .refused _ _

/-- Everything an engine step of a wire command or a helper can be, under every configuration. -/
theorem opStep_host_all (c : Cfg) {i : Instr} {s : State} (hcycle : i ≠ .cycle) (htare : i ≠ .tare)
    (hsel : P s.select) (hx : ∀ tx keep ans, P (s.xfer tx keep ans))
    (hend : ∀ t, HostEnd i s t → ∀ st d, Q (t.complete st d)) : (opStep c i s).All P Q := by
  have hrefused := hend _ .refused
  have hreleased := hend _ .released
  cases i with
  | reset =>
    simp only [opStep, doReset]
    exact frameStep_ends hsel hx (hreleased _ _) fun _ => hend _ (.reset rfl) _ _
  | start =>
    simp only [opStep, doStart]
    exact frameStep_ends hsel hx (hreleased _ _) fun _ => hreleased _ _
  | stop =>
    simp only [opStep, doStop]
    exact frameStep_ends hsel hx (hreleased _ _) fun _ => hreleased _ _
  | rdata =>
    simp only [opStep, doRdata]
    exact frameStep_ends hsel hx (hreleased _ _) fun _ => hreleased _ _
  | rreg a =>
    simp only [opStep, doRreg]
    split
    · exact frameStep_ends hsel hx (hreleased _ _) fun _ => hreleased _ _
    · exact hrefused _ _
  | wreg a v => exact doWreg_answer_all (i := .wreg a v) rfl hsel hx hend
  | setmux p n =>
    simp only [opStep, doSetmux]
    split
    · exact doWreg_answer_all (i := .setmux p n) trivial hsel hx hend
    · exact hrefused _ _
  | setgain code => exact doSetField_answer_all (i := .setgain code) trivial hsel hx hend
  | setrate code => exact doSetField_answer_all (i := .setrate code) trivial hsel hx hend
  | setref code => exact doSetField_answer_all (i := .setref code) trivial hsel hx hend
  | cycle => exact absurd rfl hcycle
  | tare => exact absurd rfl htare

/-- A view that neither the bus nor the shadow registers show in is kept by wire commands and helpers. -/
theorem opStep_host_keeps (hg : BusBlind g) (c : Cfg) {i : Instr} (hcycle : i ≠ .cycle) (htare : i ≠ .tare)
    (hshadow : ∀ s a v, g (s.setShadow a v) = g s) (hreset : ∀ s, i = .reset → g s.resetDevice = g s)
    (s : State) : (opStep c i s).Keeps g s := by
  refine opStep_host_all c hcycle htare (hg.select s) (hg.xfer s) fun t ht st d => ?_
  rw [hg.complete]
  cases ht with
  | refused => rfl
  | released => exact hg.deselect s
  | reset hi => exact (hreset _ hi).trans (hg.deselect s)
  | configured a v => exact (hshadow _ a v).trans (hg.deselect s)

/-! ### What operations leave alone -/

/-- The registers that only the environment's events and acceptance write, with the configuration (10 R26,
R34, R36, R37, R45). -/
@[simp] def State.eventRegs (s : State) : Cfg × BitVec 32 × Bool × Bool × Bool × Bool × CmdWord × CmdWord :=
  (s.cfg, s.now, s.drdySync, s.connected, s.notifyEn, s.tickPend, s.hcmdWord, s.curW)

theorem busBlind_eventRegs : BusBlind State.eventRegs := by
  constructor <;> simp

/-- What a CYCLE leaves alone: the event registers and `SETTLE_CNT` (10 R33). -/
@[simp] def State.cycleFixed (s : State) := (s.eventRegs, s.settleCnt)

theorem busBlind_cycleFixed : BusBlind State.cycleFixed := by
  constructor <;> simp

/-- `AWAIT_READY` leaves alone what a CYCLE does, by every ready method (42 R155 to R159). -/
theorem awaitStep_keeps (s : State) : (awaitStep s).Keeps State.cycleFixed s := by
  unfold awaitStep
  split
  · unfold awaitEdgeStep timeoutOr
    split_ifs <;> simp
  · unfold awaitLevelStep timeoutOr
    split_ifs <;> simp
  · unfold awaitStatusStep
    split
    · unfold doRreg
      split
      · refine frameStep_ends (busBlind_cycleFixed.select s) (busBlind_cycleFixed.xfer s) ?_ fun _ => ?_
        · simp
        · simp
      · simp
    · simp only [timeoutOr]
      split_ifs <;> simp

/-- Calibration, framing and the notify step leave alone what a CYCLE does (42 R163). -/
theorem completeStep_keeps (s : State) : (completeStep s).Keeps State.cycleFixed s := by
  unfold completeStep
  split
  · simp
  · simp
  · unfold notifyStep
    split
    · split <;> simp
    · simp
  · unfold sinkAnswerStep
    split <;> simp

/-- No engine step of a CYCLE writes an event register or `SETTLE_CNT`. -/
theorem cycleStep_keeps (s : State) : (cycleStep s).Keeps State.cycleFixed s := by
  have hsel := busBlind_cycleFixed.select s
  have hx := busBlind_cycleFixed.xfer s
  have hvisit : ∀ st, (s.deselect.abortVisit st).cycleFixed = s.cycleFixed := by
    simp
  unfold cycleStep
  split
  · simp
  · simp only [selectChannelStep, doSetmux]
    split
    · refine doWreg_all hsel hx ?_ (hvisit _) ?_ <;> simp
    · simp
  · unfold startStep
    split
    · refine frameStep_ends hsel hx (hvisit _) fun _ => ?_
      simp
    · simp
  · exact awaitStep_keeps s
  · unfold readStep doRdata
    refine frameStep_ends hsel hx (hvisit _) fun _ => ?_
    simp
  · exact completeStep_keeps s

/-- No engine step of any operation writes an event register. -/
theorem opStep_keeps_eventRegs (c : Cfg) (i : Instr) (s : State) :
    (opStep c i s).Keeps State.eventRegs s := by
  by_cases hcycle : i = .cycle
  · subst hcycle
    exact EngineStep.all_mono (cycleStep_keeps s) (fun _ h => congrArg Prod.fst h)
      (fun _ h => congrArg Prod.fst h)
  by_cases htare : i = .tare
  · subst htare
    simp [opStep, State.eventRegs]
  exact opStep_host_keeps busBlind_eventRegs c hcycle htare (by simp)
    (by simp) s

/-- Settles O48, by `opStep_keeps_eventRegs` along the run of the operation. -/
theorem operationsLeaveEventRegisters : Obligations.OperationsLeaveEventRegisters := by
  intro i s t h
  simpa using exec_keeps busBlind_eventRegs (opStep_keeps_eventRegs s.cfg i) h

/-- A channel without its offset, the one register of it that TARE writes (43 R187). -/
def Chan.untared (c : Chan) : Chan := { c with offset := 0 }

/-- The registers that only CYCLE writes (10 R27, R34, R35, R38 to R44, R46), with the configuration and
the sink trace. -/
@[simp] def State.measured (s : State) :=
  (s.cfg, s.chans.map Chan.untared, s.pkt, s.ntfStatus, s.sinkTrace, s.fsm, s.ch, s.rdyFlag, s.tmoCnt)

theorem busBlind_measured : BusBlind State.measured := by
  constructor <;> simp

theorem busBlind_chans : BusBlind State.chans := by
  constructor <;> simp

theorem State.tareAll_untared (s : State) : s.tareAll.chans.map Chan.untared = s.chans.map Chan.untared := by
  apply List.ext_getElem
  · simp
  · intro k _ _
    simp only [State.tareAll_chans, List.getElem_map, List.getElem_mapIdx]
    split <;> rfl

/-- No engine step of an operation but CYCLE writes a register that only CYCLE writes. -/
theorem opStep_keeps_measured (c : Cfg) {i : Instr} (hcycle : i ≠ .cycle) (s : State) :
    (opStep c i s).Keeps State.measured s := by
  by_cases htare : i = .tare
  · subst htare
    simp only [opStep, EngineStep.Keeps, EngineStep.all_done, busBlind_measured.complete]
    simp only [State.measured, State.tareAll_untared, State.tareAll_frame]
  · exact opStep_host_keeps busBlind_measured c hcycle htare (by simp)
      (by simp) s

theorem State.chan_untared {s t : State} (hcfg : t.cfg = s.cfg)
    (hchans : t.chans.map Chan.untared = s.chans.map Chan.untared) (k : Nat) :
    (t.chan k).untared = (s.chan k).untared := by
  unfold State.chan
  rw [hcfg, ← List.getD_map (f := Chan.untared), hchans, List.getD_map]

/-- Settles O49, by `opStep_keeps_measured`; an operation that is not TARE leaves the channels whole. -/
theorem onlyCycleWritesMeasurements : Obligations.OnlyCycleWritesMeasurements := by
  intro i s t hcycle h
  have hmeas := exec_keeps busBlind_measured (opStep_keeps_measured s.cfg hcycle) h
  simp only [State.measured, Prod.mk.injEq] at hmeas
  obtain ⟨hcfg, hchans, hpkt, hntf, hsink, hfsm, hch, hrdy, htmo⟩ := hmeas
  refine ⟨fun htare => ?whole, fun k => ?chan, fun j => ?byte, hntf, hsink, hfsm, hch, hrdy, htmo⟩
  case whole =>
    exact exec_keeps busBlind_chans
      (opStep_host_keeps busBlind_chans s.cfg hcycle htare (by simp) (by simp)) h
  case chan => simpa [Chan.untared] using State.chan_untared hcfg hchans k
  case byte => simp only [State.pktAt, hpkt]

/-- `SETTLE_CNT` is written by no operation but RESET (10 R33). -/
theorem exec_settleCnt {i : Instr} {s t : State} (hreset : i ≠ .reset) (h : exec i s = .next t) :
    t.settleCnt = s.settleCnt := by
  have hblind : BusBlind State.settleCnt := by constructor <;> simp
  refine exec_keeps hblind (fun u => ?_) h
  by_cases hcycle : i = .cycle
  · subst hcycle
    exact EngineStep.all_mono (cycleStep_keeps u) (fun _ h => congrArg Prod.snd h)
      (fun _ h => congrArg Prod.snd h)
  by_cases htare : i = .tare
  · subst htare
    simp [opStep]
  exact opStep_host_keeps hblind s.cfg hcycle htare (by simp) (fun _ hi => absurd hi hreset) u

/-- The shadow registers with the configuration that says what they read as after RESET (10 R30). -/
@[simp] def State.shadowRegs (s : State) := (s.cfg, s.shadow)

theorem busBlind_shadowRegs : BusBlind State.shadowRegs := by
  constructor <;> simp

theorem State.shadowAt_congr {s t : State} (h : t.shadowRegs = s.shadowRegs) (a : RegAddr) :
    t.shadowAt a = s.shadowAt a := by
  simp only [State.shadowRegs, Prod.mk.injEq] at h
  simp only [State.shadowAt, h]

/-- A shadow register after a write to one of them. -/
theorem State.shadowAt_setShadow {s : State} (hwf : Memory.wf s.cfg.regDefault s.shadow = true)
    (a b : RegAddr) (v : Byte) : (s.setShadow a v).shadowAt b = if a = b then v else s.shadowAt b := by
  simp only [State.shadowAt, State.setShadow, Memory.read_write _ _ _ _ hwf, BitVec.toNat_inj]

/-- An operation writes no shadow register but those `MaySetShadow` lists. -/
theorem exec_shadowAt {i : Instr} {s t : State} (hwf : Memory.wf s.cfg.regDefault s.shadow = true)
    {b : RegAddr} (hb : ¬ MaySetShadow b i) (h : exec i s = .next t) : t.shadowAt b = s.shadowAt b := by
  have hcycle : i ≠ .cycle := fun hi => hb (hi ▸ trivial)
  have hkept : ∀ u : State, u.shadowRegs = s.shadowRegs → u.shadowAt b = s.shadowAt b :=
    fun u hu => State.shadowAt_congr hu b
  refine exec_ends (Q := fun u => u.shadowAt b = s.shadowAt b) busBlind_shadowRegs (fun u hu => ?_) hkept
    (fun u hu => (State.shadowAt_congr (busBlind_shadowRegs.elapse u) b).trans hu) h
  by_cases htare : i = .tare
  · subst htare
    exact hkept _ (by simpa using hu)
  refine opStep_host_all s.cfg hcycle htare ((busBlind_shadowRegs.select u).trans hu)
    (fun tx keep ans => (busBlind_shadowRegs.xfer u tx keep ans).trans hu) fun v hv st d => ?_
  rw [State.shadowAt_congr (busBlind_shadowRegs.complete v st d)]
  have hreleased := (busBlind_shadowRegs.deselect u).trans hu
  cases hv with
  | refused => exact hkept u hu
  | released => exact hkept _ hreleased
  | reset hi => exact absurd (hi ▸ trivial) hb
  | configured a v ha =>
    have hne : a ≠ b := fun hab => hb (hab ▸ ha)
    have hwf' : Memory.wf u.deselect.cfg.regDefault u.deselect.shadow = true := by
      simp only [State.shadowRegs, Prod.mk.injEq] at hreleased
      rwa [hreleased.1, hreleased.2]
    rw [State.shadowAt_setShadow hwf', if_neg hne]
    exact hkept _ hreleased

/-- Settles O50: `MaySetShadow` says of each operation which shadow registers it may write. -/
theorem onlyConfigurationWritesShadow : Obligations.OnlyConfigurationWritesShadow := by
  intro i s t hwf h
  refine ⟨fun hi b => ?reads, fun a v hi b hb => ?wreg, fun hi => exec_settleCnt hi h⟩
  case reads =>
    refine exec_shadowAt hwf ?_ h
    rcases hi with hi | ⟨a, rfl⟩
    · simp only [List.mem_cons, List.not_mem_nil, or_false] at hi
      rcases hi with rfl | rfl | rfl | rfl <;> exact id
    · exact id
  case wreg =>
    subst hi
    exact exec_shadowAt (i := .wreg a v) hwf hb h

/-! ## The subscriber flags (10 R45) -/

/-- The four subscriber events keep `NOTIFY_EN = 1` implying `CONNECTED = 1` (44 R205 to R208); no other
event but `rst` touches the two flags. -/
theorem applyEvent_subscriberInv {e : Event} {s t : State} (hs : s.SubscriberInv)
    (h : applyEvent e s = .next t) : t.SubscriberInv := by
  unfold State.SubscriberInv at hs ⊢
  cases e with
  | drdyChange b => cases h; simpa using hs
  | msTick => cases h; simpa using hs
  | tick => cases h; simpa using hs
  | connect => cases h; simp
  | disconnect => cases h; simp
  | subscribe =>
    cases h
    unfold State.subscribe
    split
    · next hconn => exact fun _ => hconn
    · exact hs
  | unsubscribe => cases h; simp
  | hostWord w =>
    simp only [applyEvent] at h
    split at h
    · cases h
    · cases h; simpa using hs
  | rst => cases h; simp [State.rst, State.resetWith]

theorem State.subscriberInv_congr {s t : State} (hs : s.SubscriberInv) (h : t.eventRegs = s.eventRegs) :
    t.SubscriberInv := by
  simp only [State.eventRegs, Prod.mk.injEq] at h
  obtain ⟨-, -, -, hconn, hntf, -⟩ := h
  rwa [State.SubscriberInv, hconn, hntf]

/-- Settles O52: the events keep the flags in order, and no engine step writes them. -/
theorem stepKeepsSubscriberInvariant : Obligations.StepKeepsSubscriberInvariant := by
  intro s t hs h
  refine step_keeps (P := State.SubscriberInv) ?event ?lower ?engine ?elapse ?hasten ?tick ?host ?illegal h
  case event => exact fun e es u _ hu => applyEvent_subscriberInv (s := { s.lowerHres with sched := es }) hs hu
  case lower => exact hs
  case engine =>
    intro i u _ hu _
    exact EngineStep.all_mono (opStep_keeps_eventRegs u.cfg i u) (fun _ => State.subscriberInv_congr hu)
      (fun _ => State.subscriberInv_congr hu)
  case elapse => exact fun _ hu => hu
  case hasten => exact fun _ hu => hu
  case tick => exact fun _ => hs
  case host => exact fun _ _ _ => hs
  case illegal => exact fun _ _ => by simpa [State.SubscriberInv] using hs

/-! ## The host port and `rst` (10 R20, R25, R49) -/

/-- A step with an event due is that event. -/
theorem step_of_due {s : State} {e : Event} {es : List Scheduled} (hwf : s.cfg.wf = true)
    (hs : s.sched = ⟨0, e⟩ :: es) : step s = applyEvent e { s with hresValid := false, sched := es } := by
  simp [step, hwf, runTurn, State.lowerHres, hs]

/-- Settles O19, by whether a word is outstanding. -/
theorem hostPresentsOneWord : Obligations.HostPresentsOneWord := by
  intro s w es hwf hs
  rw [step_of_due hwf hs]
  exact ⟨fun hfree => by simp [applyEvent, hfree, State.present], fun hheld => by simp [applyEvent, hheld]⟩

/-- Settles O20: `rst` is `State.resetWith` but for the port, the answers, the schedule and the traces. -/
theorem blockResetEvent : Obligations.BlockResetEvent := by
  intro s es hwf hs
  refine ⟨State.rst { s with hresValid := false, sched := es }, step_of_due hwf hs, ?_⟩
  simp [State.rst, State.resetWith, State.shadowAt, State.pktAt, Memory.read, pktDefault]

theorem State.resetWith_chan (c : Cfg) (i : Nat) : (State.resetWith c).chan i = Chan.reset c.w := by
  simp only [State.chan, State.resetWith, List.getD_eq_getElem?_getD, List.getElem?_replicate]
  split <;> rfl

theorem Chan.reset_slot (w k : Nat) : (Chan.reset w).slot k = 0 := by
  simp only [Chan.slot, Chan.reset, List.getD_eq_getElem?_getD, List.getElem?_replicate]
  split <;> rfl

/-- Settles O21, register by register. -/
theorem resetRegisterValues : Obligations.ResetRegisterValues := by
  intro c
  refine ⟨?scalars, fun a => rfl, fun j => rfl, fun i _ => ?channel⟩
  case scalars => simp [State.resetWith]
  case channel =>
    rw [State.resetWith_chan]
    exact ⟨rfl, rfl, rfl, rfl, rfl, rfl, fun k _ => Chan.reset_slot c.w k, rfl, rfl, rfl⟩

/-! ## The invariants right after reset (10 R49) -/

theorem Chan.reset_inv {w : Nat} (hw : 1 ≤ w) : (Chan.reset w).Inv w where
  rawRange := by simp [Chan.reset]
  offsetRange := by simp [Chan.reset]
  physRange := by simp [Chan.reset, physBound]
  ringLength := by simp [Chan.reset]
  slotRange := by
    intro x hx
    rw [List.eq_of_mem_replicate hx]
    decide
  headRange := hw
  cntRange := Nat.zero_le w
  filling := fun _ => rfl
  sumHeld := rfl

theorem State.resetWith_memoryInv (c : Cfg) : (State.resetWith c).MemoryInv where
  shadowWf := rfl
  shadowLegal := by simp [State.resetWith]
  pktWf := rfl
  pktInside := by simp [State.resetWith]

theorem State.resetWith_channelInv {c : Cfg} (hwf : c.wf = true) : (State.resetWith c).ChannelInv where
  cfgOk := hwf
  count := by simp [State.resetWith]
  each := by
    obtain ⟨-, -, -, -, -, -, -, hw, -⟩ := cfg_wf_facts hwf
    intro ch hch
    rw [List.eq_of_mem_replicate hch]
    exact Chan.reset_inv hw

theorem State.resetWith_sequenceInv {c : Cfg} (hwf : c.wf = true) : (State.resetWith c).SequenceInv where
  cfgOk := hwf
  selectBusy := by simp [State.resetWith]
  released := by simp [State.resetWith]
  idleFsm := by simp [State.resetWith]
  busyWord := by simp [State.resetWith]
  tickWord := by simp [State.resetWith]
  cycleWord := by simp [State.resetWith]
  channelRange := by simp [State.resetWith]
  pollWhere := by simp [State.resetWith]

theorem State.resetWith_traceInv {c : Cfg} (hwf : c.wf = true) : (State.resetWith c).TraceInv where
  cfgOk := hwf
  noRst := by simp [State.resetWith]
  bracketed := rfl

/-- Settles O57, invariant by invariant. -/
theorem resetMeetsInvariants : Obligations.ResetMeetsInvariants :=
  ⟨by decide, fun _ hwf => ⟨nofun, State.resetWith_memoryInv _, State.resetWith_channelInv hwf,
    State.resetWith_sequenceInv hwf, State.resetWith_traceInv hwf⟩⟩

/-! ## The ring buffer (10 R43, 43 R184) -/

/-- A sum of values within a bound is within that many times the bound. -/
theorem abs_sum_le_length_mul {l : List Int} {b : Int} (h : ∀ x ∈ l, |x| ≤ b) : |l.sum| ≤ l.length * b := by
  induction l with
  | nil => simp
  | cons x l ih =>
    have hx := h x (by simp)
    have hl := ih fun y hy => h y (by simp [hy])
    calc |(x :: l).sum| = |x + l.sum| := by rw [List.sum_cons]
      _ ≤ |x| + |l.sum| := abs_add_le _ _
      _ ≤ b + l.length * b := add_le_add hx hl
      _ = (x :: l).length * b := by push_cast [List.length_cons]; ring

/-- A ring insert writes the ring's registers only. -/
@[simp] theorem Chan.ringInsert_frame (w : Nat) (x : BitVec 64) (c : Chan) :
    (c.ringInsert w x).raw = c.raw ∧ (c.ringInsert w x).ts = c.ts ∧ (c.ringInsert w x).valid = c.valid ∧
    (c.ringInsert w x).err = c.err ∧ (c.ringInsert w x).offset = c.offset ∧
    (c.ringInsert w x).phys = c.phys := by
  unfold Chan.ringInsert
  split <;> simp

@[simp] theorem Chan.ringInsert_ring (w : Nat) (x : BitVec 64) (c : Chan) :
    (c.ringInsert w x).ring = c.ring.set c.head.toNat x := rfl

@[simp] theorem Chan.ringInsert_head (w : Nat) (x : BitVec 64) (c : Chan) :
    (c.ringInsert w x).head = BitVec.ofNat 4 ((c.head.toNat + 1) % w) := rfl

@[simp] theorem Chan.ringInsert_cnt (w : Nat) (x : BitVec 64) (c : Chan) :
    (c.ringInsert w x).cnt = if c.cnt.toNat < w then c.cnt + 1 else c.cnt := by
  unfold Chan.ringInsert
  split <;> rfl

@[simp] theorem Chan.ringInsert_sum (w : Nat) (x : BitVec 64) (c : Chan) :
    (c.ringInsert w x).sum =
      BitVec.ofInt 64 (c.sum.toInt + x.toInt - if c.cnt.toNat < w then 0 else c.slot c.head.toNat) := by
  unfold Chan.ringInsert
  split <;> simp

section RingInsert

variable {w : Nat} {x : BitVec 64} {c : Chan}

/-- `HEAD` moves on modulo `W`, and fits its four bits. -/
theorem Chan.ringInsert_head_toNat (hw : 1 ≤ w) (hw' : w ≤ 16) :
    (c.ringInsert w x).head.toNat = (c.head.toNat + 1) % w := by
  have hlt : (c.head.toNat + 1) % w < w := Nat.mod_lt _ hw
  rw [Chan.ringInsert_head, BitVec.toNat_ofNat, Nat.mod_eq_of_lt (by omega)]

/-- `CNT` counts up to `W`, and fits its five bits. -/
theorem Chan.ringInsert_cnt_toNat (hw' : w ≤ 16) :
    (c.ringInsert w x).cnt.toNat = if c.cnt.toNat < w then c.cnt.toNat + 1 else c.cnt.toNat := by
  rw [Chan.ringInsert_cnt]
  split
  · have hone : (1 : BitVec 5).toNat = 1 := rfl
    rw [BitVec.toNat_add, hone, Nat.mod_eq_of_lt (by omega)]
  · rfl

theorem Chan.Inv.slot_le (hc : c.Inv w) (k : Nat) : |c.slot k| ≤ physBound := by
  unfold Chan.slot
  rcases lt_or_ge k c.ring.length with hk | hk
  · rw [List.getD_eq_getElem _ _ hk]
    exact hc.slotRange _ (List.getElem_mem hk)
  · rw [List.getD_eq_default _ _ hk]
    decide

/-- The sum of the held slots lies within `CNT` times the bound of one (43 R190). -/
theorem Chan.Inv.sum_le (hc : c.Inv w) : |c.sum.toInt| ≤ c.cnt.toNat * physBound := by
  have hlen : c.held.length = c.cnt.toNat := by
    simp [Chan.held, hc.ringLength, hc.cntRange]
  rw [hc.sumHeld, ← hlen]
  refine abs_sum_le_length_mul fun y hy => ?_
  obtain ⟨z, hz, rfl⟩ := List.mem_map.1 hy
  exact hc.slotRange z (List.mem_of_mem_take hz)

/-- The new sum needs no more than the 64 bits of its register (43 R190). -/
theorem Chan.ringInsert_sum_toInt (hw' : w ≤ 16) (hc : c.Inv w) (hx : |x.toInt| ≤ physBound) :
    (c.ringInsert w x).sum.toInt =
      c.sum.toInt + x.toInt - if c.cnt.toNat < w then 0 else c.slot c.head.toNat := by
  have hcnt : (c.cnt.toNat : Int) ≤ 16 := by exact_mod_cast hc.cntRange.trans hw'
  have hsum := abs_le.1 hc.sum_le
  have hslot := abs_le.1 (hc.slot_le c.head.toNat)
  have hx := abs_le.1 hx
  simp only [physBound] at hsum hslot hx
  rw [Chan.ringInsert_sum]
  apply BitVec.toInt_ofInt_eq_self (by norm_num) <;> split <;> norm_num <;> omega

/-- A ring that is not full holds the new value after those it held. -/
theorem Chan.ringInsert_held_of_lt (hw' : w ≤ 16) (hc : c.Inv w) (hlt : c.cnt.toNat < w) :
    (c.ringInsert w x).held = c.held ++ [x.toInt] := by
  have hlen : c.cnt.toNat < c.ring.length := hc.ringLength ▸ hlt
  have htake : (c.ring.take c.cnt.toNat).length = c.cnt.toNat := List.length_take_of_le hlen.le
  simp only [Chan.held, Chan.ringInsert_cnt_toNat hw', Chan.ringInsert_ring, hc.filling hlt, if_pos hlt,
    List.set_eq_take_append_cons_drop, if_pos hlen]
  rw [List.take_append, htake]
  simp

/-- A full ring holds all its slots. -/
theorem Chan.Inv.held_of_full (hc : c.Inv w) (hfull : ¬ c.cnt.toNat < w) : c.held = c.ring.map BitVec.toInt := by
  rw [Chan.held, List.take_of_length_le (by rw [hc.ringLength]; omega)]

/-- The held slots after a full ring evicted the one at `HEAD`. -/
theorem Chan.ringInsert_held_of_full (hw' : w ≤ 16) (hc : c.Inv w) (hfull : ¬ c.cnt.toNat < w) :
    (c.ringInsert w x).held = c.held.set c.head.toNat x.toInt := by
  rw [hc.held_of_full hfull, ← List.map_set, Chan.held, Chan.ringInsert_cnt_toNat hw', if_neg hfull,
    Chan.ringInsert_ring, List.take_of_length_le]
  rw [List.length_set, hc.ringLength]
  omega

/-- The sum of the held slots takes the new value and loses the evicted one. -/
theorem Chan.ringInsert_held_sum (hw' : w ≤ 16) (hc : c.Inv w) :
    (c.ringInsert w x).held.sum =
      c.held.sum + x.toInt - if c.cnt.toNat < w then 0 else c.slot c.head.toNat := by
  split
  · next hlt => simp [Chan.ringInsert_held_of_lt hw' hc hlt]
  · next hfull =>
    have hhead : c.head.toNat < c.ring.length := hc.ringLength ▸ hc.headRange
    rw [Chan.ringInsert_held_of_full hw' hc hfull, List.sum_set', hc.held_of_full hfull]
    simp only [List.length_map, hhead, dite_true, List.getElem_map, Chan.slot, List.getD_eq_getElem _ _ hhead]
    ring

/-- A ring insert keeps the ranges and relations of a channel's registers (43 R184, R190). -/
theorem Chan.Inv.ringInsert (hw : 1 ≤ w) (hw' : w ≤ 16) (hc : c.Inv w) (hx : |x.toInt| ≤ physBound) :
    (c.ringInsert w x).Inv w where
  rawRange := by simpa using hc.rawRange
  offsetRange := by simpa using hc.offsetRange
  physRange := by simpa using hc.physRange
  ringLength := by simpa using hc.ringLength
  slotRange := by
    intro y hy
    rcases List.mem_or_eq_of_mem_set hy with hy | rfl
    · exact hc.slotRange y hy
    · exact hx
  headRange := by
    rw [Chan.ringInsert_head_toNat hw hw']
    exact Nat.mod_lt _ hw
  cntRange := by
    have hcnt := hc.cntRange
    rw [Chan.ringInsert_cnt_toNat hw']
    split <;> omega
  filling := by
    rw [Chan.ringInsert_cnt_toNat hw', Chan.ringInsert_head_toNat hw hw']
    split
    · next hlt =>
      intro hnext
      rw [hc.filling hlt, Nat.mod_eq_of_lt hnext]
    · next hfull => exact fun hlt => absurd hlt hfull
  sumHeld := by
    rw [Chan.ringInsert_sum_toInt hw' hc hx, Chan.ringInsert_held_sum hw' hc, hc.sumHeld]

end RingInsert

/-! ## Calibration of a channel (43 R182, R186) -/

theorem Chan.Inv.diff_le {w : Nat} {c : Chan} (hc : c.Inv w) : |c.diff| ≤ 16777215 := by
  obtain ⟨hraw, hraw'⟩ := hc.rawRange
  obtain ⟨hoff, hoff'⟩ := hc.offsetRange
  exact abs_le.2 ⟨by unfold Chan.diff; omega, by unfold Chan.diff; omega⟩

theorem abs_chanScale_le (c : Cfg) (i : Nat) : |chanScale c i| ≤ 2147483648 := by
  have hlow := BitVec.le_toInt (c.scale.getD i 0)
  have hhigh := BitVec.toInt_lt (x := c.scale.getD i 0)
  norm_num at hlow hhigh
  exact abs_le.2 ⟨hlow, hhigh.le⟩

/-- The physical value of a sample in range, by any scale of 32 bits, is within `physBound` (43 R190). -/
theorem Chan.Inv.product_le {w : Nat} {c : Chan} (hc : c.Inv w) {scale : Int} (hscale : |scale| ≤ 2147483648) :
    |c.diff * scale| ≤ physBound :=
  calc |c.diff * scale| = |c.diff| * |scale| := abs_mul _ _
    _ ≤ 16777215 * 2147483648 := mul_le_mul hc.diff_le hscale (abs_nonneg _) (by norm_num)
    _ = physBound := by norm_num [physBound]

/-- The product fits the 64 bits of `PHYS` (43 R190). -/
theorem Chan.Inv.product_toInt {w : Nat} {c : Chan} (hc : c.Inv w) {scale : Int}
    (hscale : |scale| ≤ 2147483648) : (BitVec.ofInt 64 (c.diff * scale)).toInt = c.diff * scale := by
  obtain ⟨hlow, hhigh⟩ := abs_le.1 (hc.product_le hscale)
  simp only [physBound] at hlow hhigh
  apply BitVec.toInt_ofInt_eq_self (by norm_num) <;> norm_num <;> omega

/-- Calibration keeps the ranges and relations of a channel's registers. -/
theorem Chan.Inv.calibrate {w : Nat} {c : Chan} (hw : 1 ≤ w) (hw' : w ≤ 16) (hc : c.Inv w) {scale : Int}
    (hscale : |scale| ≤ 2147483648) : (c.calibrate w scale).Inv w := by
  have hphys : |(BitVec.ofInt 64 (c.diff * scale)).toInt| ≤ physBound := by
    rw [hc.product_toInt hscale]
    exact hc.product_le hscale
  unfold Chan.calibrate
  split
  · exact Chan.Inv.ringInsert hw hw' { hc with physRange := hphys } hphys
  · exact hc

/-! ## The samples (40 R116) -/

/-- `Decode24` answers a value of 24 bits. -/
theorem decode24_range (b2 b1 b0 : Byte) :
    -8388608 ≤ (decode24 b2 b1 b0).toInt ∧ (decode24 b2 b1 b0).toInt ≤ 8388607 := by
  have hlow := BitVec.le_toInt (b2 ++ b1 ++ b0)
  have hhigh := BitVec.toInt_lt (x := b2 ++ b1 ++ b0)
  norm_num at hlow hhigh
  rw [decode24, BitVec.toInt_signExtend_of_le (by norm_num)]
  omega

/-! ## The registers of all channels -/

/-- The channel invariants are about the configuration and the channels only. -/
theorem State.ChannelInv.congr {s t : State} (hs : s.ChannelInv) (hcfg : t.cfg = s.cfg)
    (hchans : t.chans = s.chans) : t.ChannelInv where
  cfgOk := hcfg ▸ hs.cfgOk
  count := by rw [hchans, hcfg, hs.count]
  each := by
    rw [hchans, hcfg]
    exact hs.each

/-- A change of one channel that keeps its invariants. -/
theorem State.ChannelInv.modChan {s : State} (hs : s.ChannelInv) (i : Nat) {f : Chan → Chan}
    (hf : ∀ c, c.Inv s.cfg.w → (f c).Inv s.cfg.w) : (s.modChan i f).ChannelInv where
  cfgOk := hs.cfgOk
  count := by simpa using hs.count
  each := by
    refine List.forall_mem_iff_getElem.2 fun k hk => ?_
    have hold := hs.each _ (List.getElem_mem (by simpa using hk))
    simp only [State.modChan_chans, List.getElem_modify]
    split
    · exact hf _ hold
    · exact hold

/-- A change of every channel below `N` that keeps its invariants. -/
theorem State.ChannelInv.mapChans {s t : State} (hs : s.ChannelInv) {f : Nat → Chan → Chan}
    (hcfg : t.cfg = s.cfg) (hchans : t.chans = s.chans.mapIdx fun i c => if i < s.cfg.n then f i c else c)
    (hf : ∀ i c, c.Inv s.cfg.w → (f i c).Inv s.cfg.w) : t.ChannelInv where
  cfgOk := hcfg ▸ hs.cfgOk
  count := by rw [hchans, List.length_mapIdx, hcfg, hs.count]
  each := by
    rw [hchans, hcfg]
    intro c hc
    obtain ⟨k, hk, rfl⟩ := List.mem_mapIdx.1 hc
    have hold := hs.each _ (List.getElem_mem hk)
    split
    · exact hf k _ hold
    · exact hold

theorem State.ChannelInv.beginVisit {s : State} (hs : s.ChannelInv) (i : Nat) : (s.beginVisit i).ChannelInv :=
  (hs.modChan i (f := fun c => { c with valid := false }) fun _ hc => { hc with }).congr rfl rfl

theorem State.ChannelInv.advance {s : State} (hs : s.ChannelInv) : s.advance.ChannelInv := by
  unfold State.advance
  split
  · exact hs.beginVisit _
  · exact hs.congr rfl rfl

theorem State.ChannelInv.abortVisit {s : State} (hs : s.ChannelInv) (st : Status) : (s.abortVisit st).ChannelInv :=
  (hs.modChan _ (f := fun c => { c with err := st }) fun _ hc => { hc with }).advance

theorem State.ChannelInv.capture {s : State} (hs : s.ChannelInv) {raw : BitVec 32}
    (hraw : -8388608 ≤ raw.toInt ∧ raw.toInt ≤ 8388607) : (s.capture raw).ChannelInv :=
  hs.modChan _ fun _ hc => { hc with rawRange := hraw }

theorem State.ChannelInv.tareAll {s : State} (hs : s.ChannelInv) : s.tareAll.ChannelInv :=
  hs.mapChans (by simp) (State.tareAll_chans s) fun _ _ hc => { hc with offsetRange := hc.rawRange }

theorem State.ChannelInv.calibrate {s : State} (hs : s.ChannelInv) : s.calibrate.ChannelInv := by
  obtain ⟨-, -, -, -, -, -, -, hw, hw', -⟩ := cfg_wf_facts hs.cfgOk
  exact hs.mapChans (by simp) (State.calibrate_chans s) fun i _ hc =>
    hc.calibrate hw hw' (abs_chanScale_le s.cfg i)

/-! ## Every step keeps the channels (10 R38 to R43) -/

/-- A command cycle on behalf of an operation that keeps the channels. -/
theorem frameStep_channelInv {frame : Frame} {finish : Status → List Byte → State → EngineStep} {s : State}
    (hs : s.ChannelInv)
    (hfail : s.cs = true → s.xferFailed = true → True →
      (finish .transportFailure [] s.deselect).All State.ChannelInv State.ChannelInv)
    (hok : s.cs = true → s.xferFailed = false → True →
      (finish .ok s.kept s.deselect).All State.ChannelInv State.ChannelInv) :
    (frameStep frame finish s).All State.ChannelInv State.ChannelInv :=
  frameStep_all (fun _ => hs.congr rfl rfl) (fun _ _ _ _ _ _ _ _ => hs.congr rfl rfl)
    (fun hcs hx => hfail hcs hx trivial) (fun hcs hx _ => hok hcs hx trivial)

theorem State.ChannelInv.complete {s : State} (hs : s.ChannelInv) (st : Status) (d : BitVec 32) :
    (s.complete st d).ChannelInv :=
  hs.congr (by simp) (by simp)

/-- Every engine step of a CYCLE keeps the channels: the visits write single registers of one channel, the
calibration step all of them. -/
theorem cycleStep_channelInv {s : State} (hs : s.ChannelInv) :
    (cycleStep s).All State.ChannelInv State.ChannelInv := by
  have hdes : s.deselect.ChannelInv := hs.congr rfl rfl
  refine cycleStep_all True s hs.cfgOk ?idle ?frame ?bad ?abort ?select ?start ?start' ?timeout ?edge ?level
    ?polled ?test ?read ?calibrate ?encode ?notify ?send
  case idle => exact fun _ => hs.beginVisit 0
  case frame => exact fun _ _ _ _ _ hfail hok => frameStep_channelInv hs hfail hok
  case bad => exact fun _ _ => hs.abortVisit _
  case abort => exact fun _ _ _ _ => hdes.abortVisit _
  case select => exact fun v _ _ _ => hs.congr rfl rfl
  case start => exact fun _ _ _ _ => hs.congr rfl rfl
  case start' => exact fun _ _ => hs.congr rfl rfl
  case timeout => exact fun _ _ => hs.abortVisit _
  case edge => exact fun _ _ => hs.congr rfl rfl
  case level => exact fun _ _ => hs.congr rfl rfl
  case polled => exact fun b _ _ _ _ _ => hs.congr rfl rfl
  case test =>
    intro b _ _ _
    have htested : ({ s with poll := none } : State).ChannelInv := hs.congr rfl rfl
    exact ⟨hs.congr rfl rfl, htested.abortVisit _, htested⟩
  case read =>
    rintro raw _ _ _ (rfl | ⟨b2, b1, b0, rfl⟩)
    · exact (hdes.capture (by decide)).advance
    · exact (hdes.capture (decode24_range b2 b1 b0)).advance
  case calibrate => exact fun _ => hs.calibrate.congr rfl rfl
  case encode => exact fun _ => hs.congr (by simp) (by simp)
  case notify => exact fun _ => ⟨fun _ => hs.congr (by simp) (by simp), fun ok _ _ => hs.congr (by simp) (by simp)⟩
  case send => exact fun _ _ => hs.congr rfl rfl

theorem opStep_channelInv (i : Instr) {s : State} (hs : s.ChannelInv) :
    (opStep s.cfg i s).All State.ChannelInv State.ChannelInv := by
  refine opStep_all True s.cfg i s rfl hs.cfgOk ?frame ?complete ?invalid ?tare ?cycle
  case frame => exact fun _ _ _ _ _ hfail hok _ _ => frameStep_channelInv hs hfail hok
  case complete =>
    rintro t st d (rfl | rfl | ⟨a, v, -, rfl⟩) _ _ _ _ _
    · exact (hs.congr rfl rfl : s.deselect.ChannelInv).complete st d
    · exact hs.congr (by simp) (by simp)
    · exact hs.congr (by simp) (by simp)
  case invalid => exact fun _ => hs.complete _ _
  case tare => exact fun _ => hs.tareAll.complete _ _
  case cycle => exact fun _ => cycleStep_channelInv hs

/-- The registers that say where the engine stands (10 R26 to R28, log 4). -/
@[simp] def State.engineRegs (s : State) :=
  (s.cfg, s.eng, s.curW, s.fsm, s.ch, s.cs, s.kept, s.xferFailed, s.poll)

/-- No event but `rst` moves the engine or writes a channel (60 R228). -/
theorem applyEvent_engineRegs {e : Event} {s t : State} (h : applyEvent e s = .next t) :
    t = s.rst ∨ t.engineRegs = s.engineRegs ∧ t.chans = s.chans := by
  cases e with
  | hostWord w =>
    simp only [applyEvent] at h
    split at h
    · cases h
    · cases h; exact .inr ⟨rfl, rfl⟩
  | rst => cases h; exact .inl rfl
  | _ => cases h; exact .inr (by simp)

theorem applyEvent_channelInv {e : Event} {s t : State} (hs : s.ChannelInv) (h : applyEvent e s = .next t) :
    t.ChannelInv := by
  rcases applyEvent_engineRegs h with rfl | ⟨hregs, hchans⟩
  · exact (State.resetWith_channelInv hs.cfgOk).congr rfl rfl
  · exact hs.congr (congrArg Prod.fst hregs) hchans

/-- Settles O54: engine steps keep the channels (`opStep_channelInv`), events leave them or reset them. -/
theorem stepKeepsChannels : Obligations.StepKeepsChannels := by
  intro s t hs h
  refine step_keeps (P := State.ChannelInv) ?event ?lower ?engine ?elapse ?hasten ?tick ?host ?illegal h
  case event =>
    exact fun e es u _ hu => applyEvent_channelInv (s := { s.lowerHres with sched := es }) (hs.congr rfl rfl) hu
  case lower => exact hs.congr rfl rfl
  case engine => exact fun i u _ hu _ => opStep_channelInv i hu
  case elapse => exact fun _ hu => hu.congr rfl rfl
  case hasten => exact fun _ hu => hu.congr rfl rfl
  case tick => exact fun _ => hs.congr rfl rfl
  case host => exact fun _ _ _ => hs.congr rfl rfl
  case illegal => exact fun _ _ => hs.congr (by simp) (by simp)

/-! ## The word of CYCLE (30 R84) -/

/-- A command word is made up of its fields (30 R81). -/
theorem packWord_fields (w : CmdWord) : packWord (opField w) (aField w) (dField w) = w := by
  unfold packWord opField aField dField
  rw [BitVec.extractLsb'_append_extractLsb'_eq_extractLsb' (show 13 = 8 + 5 from rfl),
    BitVec.extractLsb'_append_extractLsb'_eq_extractLsb' (show 8 = 0 + 8 from rfl)]
  exact BitVec.extractLsb'_eq_self

theorem whenZero_eq_ok {zero : Bool} {i j : Instr} (h : whenZero zero i = .ok j) : zero = true ∧ i = j := by
  unfold whenZero at h
  split at h
  · next hz => exact ⟨hz, Except.ok.inj h⟩
  · cases h

theorem decodeCfg_ne_cycle (a : BitVec 5) (d : BitVec 8) : decodeCfg a d ≠ .ok .cycle := by
  unfold decodeCfg
  split_ifs <;> simp

theorem decodeSys_cycle {a : BitVec 5} {d : BitVec 8} (h : decodeSys a d = .ok .cycle) : a = 0 ∧ d = 0 := by
  unfold decodeSys at h
  split at h
  · next ha => exact ⟨ha, by simpa using (whenZero_eq_ok h).1⟩
  · split at h
    · cases (whenZero_eq_ok h).2
    · cases h

theorem opField_of_decode_cycle {w : CmdWord} (h : decode w = .ok .cycle) : opField w = 7 ∧
    decodeSys (aField w) (dField w) = .ok .cycle := by
  simp only [decode] at h
  split_ifs at h with h0 h1 h2 h3 h4 h5 h6
  · cases (whenZero_eq_ok h).2
  · cases (whenZero_eq_ok h).2
  · cases (whenZero_eq_ok h).2
  · cases (whenZero_eq_ok h).2
  · cases (whenZero_eq_ok h).2
  · cases h
  · exact absurd h (decodeCfg_ne_cycle _ _)
  · exact ⟨by bv_omega, h⟩

/-- CYCLE has one word. -/
theorem decodeWord_eq_cycle {w : CmdWord} : decodeWord w = some .cycle ↔ w = encode .cycle := by
  constructor
  · intro h
    have hdec : decode w = .ok .cycle := by
      unfold decodeWord at h
      split at h
      · next i hi => rw [hi, Option.some.inj h]
      · cases h
    obtain ⟨hop, hsys⟩ := opField_of_decode_cycle hdec
    obtain ⟨ha, hd⟩ := decodeSys_cycle hsys
    rw [← packWord_fields w, hop, ha, hd]
    rfl
  · rintro rfl
    rfl

/-! ## Every step keeps the sequencing registers in agreement (10 R26 to R28) -/

/-- No command cycle and no CYCLE is under way. -/
structure State.Quiet (s : State) : Prop where
  cs : s.cs = false
  kept : s.kept = []
  xferFailed : s.xferFailed = false
  fsm : s.fsm = .idle
  poll : s.poll = none

/-- Quietness is about five registers only. -/
theorem State.Quiet.congr {s t : State} (hq : s.Quiet)
    (h : (t.cs, t.kept, t.xferFailed, t.fsm, t.poll) = (s.cs, s.kept, s.xferFailed, s.fsm, s.poll)) : t.Quiet := by
  simp only [Prod.mk.injEq] at h
  obtain ⟨hcs, hkept, hx, hfsm, hpoll⟩ := h
  exact ⟨hcs.trans hq.cs, hkept.trans hq.kept, hx.trans hq.xferFailed, hfsm.trans hq.fsm, hpoll.trans hq.poll⟩

/-- A quiet state is sequenced when its requester and its command word fit. -/
theorem State.Quiet.sequenceInv {s : State} (hq : s.Quiet) (hwf : s.cfg.wf = true)
    (hword : s.eng ≠ .idle → (decodeWord s.curW).isSome = true) (htick : s.eng = .tick → s.curW = encode .cycle) :
    s.SequenceInv where
  cfgOk := hwf
  selectBusy := by simp [hq.cs]
  released := fun _ => ⟨hq.kept, hq.xferFailed⟩
  idleFsm := fun _ => hq.fsm
  busyWord := hword
  tickWord := htick
  cycleWord := fun h => absurd hq.fsm h
  channelRange := fun h => absurd hq.fsm h
  pollWhere := fun h => absurd hq.poll h

/-- Completion in a quiet state: the engine is idle, whatever the command word. -/
theorem State.Quiet.complete {s : State} (hq : s.Quiet) (hwf : s.cfg.wf = true) (st : Status) (d : BitVec 32) :
    (s.complete st d).SequenceInv := by
  have hq' : (s.complete st d).Quiet := hq.congr (by simp)
  exact hq'.sequenceInv (by simpa using hwf) (by simp) (by simp)

/-- Inside a CYCLE the command cycles are those of SELECT_CHANNEL, START in pulse mode, a status poll and
READ (42 R152 to R160). -/
theorem State.inCommandCycle_of_cycle {s : State} (hword : s.curW = encode .cycle) :
    s.inCommandCycle = true ↔
      s.fsm = .selectChannel ∨ (s.fsm = .start ∧ s.cfg.convMode = .pulse) ∨
      (s.fsm = .awaitReady ∧ readyMethodInForce s.cfg = .statusBit ∧ s.poll = none) ∨ s.fsm = .read := by
  simp only [State.inCommandCycle, decodeWord_eq_cycle.2 hword]
  cases s.fsm <;> simp

/-- A host operation but TARE is one command cycle, if its operands are legal (40 R108). -/
theorem State.inCommandCycle_of_host {s : State} {i : Instr} (hi : decodeWord s.curW = some i)
    (hcycle : i ≠ .cycle) (htare : i ≠ .tare) : s.inCommandCycle = i.wf s.cfg := by
  unfold State.inCommandCycle
  rw [hi]
  cases i with
  | cycle => exact absurd rfl hcycle
  | tare => exact absurd rfl htare
  | _ => rfl

theorem State.inCommandCycle_of_tare {s : State} (hi : decodeWord s.curW = some .tare) :
    s.inCommandCycle = false := by
  simp only [State.inCommandCycle, hi]

section Sequence

variable {s t : State}

/-- The sequencing invariant is about the engine's registers only. -/
theorem State.SequenceInv.congr (hs : s.SequenceInv) (h : t.engineRegs = s.engineRegs) : t.SequenceInv := by
  simp only [State.engineRegs, Prod.mk.injEq] at h
  obtain ⟨hcfg, heng, hword, hfsm, hch, hcs, hkept, hx, hpoll⟩ := h
  have hin : t.inCommandCycle = s.inCommandCycle := by
    simp only [State.inCommandCycle, hcfg, hword, hfsm, hpoll]
  constructor
  · rw [hcfg]; exact hs.cfgOk
  · rw [hcs, heng, hin]; exact hs.selectBusy
  · rw [hcs, hkept, hx]; exact hs.released
  · rw [heng, hfsm]; exact hs.idleFsm
  · rw [heng, hword]; exact hs.busyWord
  · rw [heng, hword]; exact hs.tickWord
  · rw [hfsm, hword]; exact hs.cycleWord
  · rw [hfsm, hch, hcfg]; exact hs.channelRange
  · rw [hpoll, hfsm, hcs, hcfg]; exact hs.pollWhere

theorem State.SequenceInv.cs_of_not_inCommandCycle (hs : s.SequenceInv) (h : s.inCommandCycle = false) :
    s.cs = false := by
  by_contra hcs
  simp [(hs.selectBusy (by simpa using hcs)).2] at h

theorem State.SequenceInv.cs_of_idle (hs : s.SequenceInv) (h : s.eng = .idle) : s.cs = false := by
  by_contra hcs
  exact (hs.selectBusy (by simpa using hcs)).1 h

/-- Only AWAIT_READY holds an untested status byte. -/
theorem State.SequenceInv.poll_of_fsm (hs : s.SequenceInv) (h : s.fsm ≠ .awaitReady) : s.poll = none := by
  by_contra hpoll
  exact h (hs.pollWhere hpoll).1

/-- Where a command cycle may begin, no status byte waits for its test. -/
theorem State.SequenceInv.poll_of_inCommandCycle (hs : s.SequenceInv) (h : s.inCommandCycle = true) :
    s.poll = none := by
  by_contra hpoll
  obtain ⟨hfsm, -, -⟩ := hs.pollWhere hpoll
  have hword := hs.cycleWord (by simp [hfsm])
  simp [State.inCommandCycle_of_cycle hword, hfsm, hpoll] at h

theorem State.SequenceInv.quiet (hs : s.SequenceInv) (hfsm : s.fsm = .idle) (hcs : s.cs = false) : s.Quiet where
  cs := hcs
  kept := (hs.released hcs).1
  xferFailed := (hs.released hcs).2
  fsm := hfsm
  poll := hs.poll_of_fsm (by simp [hfsm])

theorem State.SequenceInv.quiet_of_idle (hs : s.SequenceInv) (h : s.eng = .idle) : s.Quiet :=
  hs.quiet (hs.idleFsm h) (hs.cs_of_idle h)

/-- While an operation other than CYCLE runs, FSM is IDLE (10 R27). -/
theorem State.SequenceInv.fsm_of_host {i : Instr} (hs : s.SequenceInv) (hi : decodeWord s.curW = some i)
    (hcycle : i ≠ .cycle) : s.fsm = .idle := by
  by_contra hfsm
  rw [decodeWord_eq_cycle.2 (hs.cycleWord hfsm)] at hi
  exact hcycle (Option.some.inj hi).symm

/-! ### Inside a command cycle -/

theorem State.SequenceInv.select (hs : s.SequenceInv) (hbusy : s.eng ≠ .idle) (hin : s.inCommandCycle = true) :
    s.select.SequenceInv :=
  { hs with
    selectBusy := fun _ => ⟨hbusy, hin⟩
    released := fun h => absurd h (by simp)
    pollWhere := fun h => absurd (hs.poll_of_inCommandCycle hin) h }

theorem State.SequenceInv.xfer (hs : s.SequenceInv) (hcs : s.cs = true) (tx : Byte) (keep : Bool) (ans : Answer) :
    (s.xfer tx keep ans).SequenceInv :=
  { hs with released := fun h => absurd h (by simp [hcs]) }

theorem State.SequenceInv.deselect (hs : s.SequenceInv) (hcs : s.cs = true) : s.deselect.SequenceInv :=
  { hs with
    selectBusy := fun h => absurd h (by simp)
    released := fun _ => ⟨rfl, rfl⟩
    pollWhere := fun h => absurd (hs.poll_of_inCommandCycle (hs.selectBusy hcs).2) h }

/-- An engine step of a command cycle that may be run where the engine stands. -/
theorem frameStep_sequenceInv {frame : Frame} {finish : Status → List Byte → State → EngineStep}
    (hs : s.SequenceInv) (hbusy : s.eng ≠ .idle) (hin : s.inCommandCycle = true)
    (hfail : s.cs = true → s.xferFailed = true → True →
      (finish .transportFailure [] s.deselect).All State.SequenceInv State.SequenceInv)
    (hok : s.cs = true → s.xferFailed = false → True →
      (finish .ok s.kept s.deselect).All State.SequenceInv State.SequenceInv) :
    (frameStep frame finish s).All State.SequenceInv State.SequenceInv :=
  frameStep_all (fun _ => hs.select hbusy hin) (fun tx keep ans _ hcs _ _ _ => hs.xfer hcs tx keep ans)
    (fun hcs hx => hfail hcs hx trivial) (fun hcs hx _ => hok hcs hx trivial)

/-! ### Inside a CYCLE -/

/-- The registers that a CYCLE leaves alone while no command cycle of it is under way. -/
@[simp] def State.releasedRegs (s : State) := (s.cfg, s.eng, s.curW, s.cs, s.kept, s.xferFailed)

/-- A CYCLE moves to another state of FSM, with the boundary released. -/
theorem State.SequenceInv.moveTo (hs : s.SequenceInv) (hrun : Running .cycle s) (hcs : s.cs = false)
    (hregs : t.releasedRegs = s.releasedRegs) (hch : t.ch.toNat < s.cfg.n)
    (hpoll : t.poll = none ∨ t.fsm = .awaitReady ∧ readyMethodInForce s.cfg = .statusBit) : t.SequenceInv := by
  obtain ⟨hbusy, hi⟩ := hrun
  simp only [State.releasedRegs, Prod.mk.injEq] at hregs
  obtain ⟨hcfg, heng, hword, hcs', hkept, hx⟩ := hregs
  have htcs : t.cs = false := hcs'.trans hcs
  constructor
  · rw [hcfg]; exact hs.cfgOk
  · simp [htcs]
  · rw [hcs', hkept, hx]; exact hs.released
  · exact fun h => absurd (heng ▸ h) hbusy
  · rw [heng, hword]; exact hs.busyWord
  · rw [heng, hword]; exact hs.tickWord
  · exact fun _ => hword.trans (decodeWord_eq_cycle.1 hi)
  · exact fun _ => hcfg ▸ hch
  · intro h
    obtain ⟨hfsm, hmethod⟩ := hpoll.resolve_left h
    exact ⟨hfsm, htcs, hcfg ▸ hmethod⟩

/-- `CH` of a visit just begun is the channel visited: N is at most 8. -/
theorem State.beginVisit_ch_lt (hwf : s.cfg.wf = true) {i : Nat} (hi : i < s.cfg.n) :
    (s.beginVisit i).ch.toNat < s.cfg.n := by
  obtain ⟨-, -, -, -, -, -, hn, -⟩ := cfg_wf_facts hwf
  rw [State.beginVisit_ch, BitVec.toNat_ofNat, Nat.mod_eq_of_lt (by omega)]
  exact hi

/-- The next visit, if there is one, is of a channel below N. -/
theorem State.advance_ch_lt (hwf : s.cfg.wf = true) (hch : s.ch.toNat < s.cfg.n) :
    s.advance.ch.toNat < s.cfg.n := by
  unfold State.advance
  split
  · next hnext => exact State.beginVisit_ch_lt hwf hnext
  · exact hch

/-- The end of a visit, on success or with an error (42 R159 to R162). -/
theorem State.SequenceInv.advance (hs : s.SequenceInv) (hrun : Running .cycle s) (hcs : s.cs = false)
    (hch : s.ch.toNat < s.cfg.n) (hpoll : s.poll = none) : s.advance.SequenceInv :=
  hs.moveTo hrun hcs (by simp) (State.advance_ch_lt hs.cfgOk hch) (.inl (by simpa using hpoll))

theorem State.SequenceInv.abortVisit (hs : s.SequenceInv) (hrun : Running .cycle s) (hcs : s.cs = false)
    (hch : s.ch.toNat < s.cfg.n) (hpoll : s.poll = none) (st : Status) : (s.abortVisit st).SequenceInv :=
  (hs.congr (t := s.modChan s.ch.toNat fun c => { c with err := st }) rfl).advance hrun hcs hch hpoll

/-- The end of a CYCLE (42 R163): FSM is IDLE and the engine too. -/
theorem State.SequenceInv.finishCycle (hs : s.SequenceInv) (hcs : s.cs = false) (hpoll : s.poll = none) :
    s.finishCycle.SequenceInv :=
  State.Quiet.complete (s := { s with fsm := .idle, phase := .calibrate })
    ⟨hcs, (hs.released hcs).1, (hs.released hcs).2, rfl, hpoll⟩ hs.cfgOk _ _

end Sequence

/-- Every engine step of a CYCLE keeps the sequencing registers in agreement: a command cycle is under way
only in the states of FSM that have one, and any other step finds the boundary released. -/
theorem cycleStep_sequenceInv {s : State} (hs : s.SequenceInv) (hrun : Running .cycle s) :
    (cycleStep s).All State.SequenceInv State.SequenceInv := by
  have ⟨hbusy, hi⟩ := hrun
  have hin := State.inCommandCycle_of_cycle (decodeWord_eq_cycle.1 hi)
  have hreleased : s.inCommandCycle ≠ true → s.cs = false := fun h =>
    hs.cs_of_not_inCommandCycle (by simpa using h)
  have hn : 0 < s.cfg.n := by
    obtain ⟨-, -, -, -, -, hn, -⟩ := cfg_wf_facts hs.cfgOk
    exact hn
  have hpollCs : s.cs = true → s.poll = none := fun hcs => hs.poll_of_inCommandCycle (hs.selectBusy hcs).2
  have hpollMethod : readyMethodInForce s.cfg ≠ .statusBit → s.poll = none := fun hm => by
    by_contra hpoll
    exact hm (hs.pollWhere hpoll).2.2
  refine cycleStep_all True s hs.cfgOk ?idle ?frame ?bad ?abort ?select ?start ?start' ?timeout ?edge ?level
    ?polled ?test ?read ?calibrate ?encode ?notify ?send
  case idle =>
    intro hfsm
    exact hs.moveTo hrun (hreleased (by simp [hin, hfsm])) rfl (State.beginVisit_ch_lt hs.cfgOk hn)
      (.inl (hs.poll_of_fsm (by simp [hfsm])))
  case frame => exact fun _ _ _ _ hwhere hfail hok => frameStep_sequenceInv hs hbusy (hin.2 hwhere) hfail hok
  case bad => exact fun hfsm hch => absurd (hs.channelRange (by simp [hfsm])) (by omega)
  case abort =>
    exact fun hfsm _ hcs _ => (hs.deselect hcs).abortVisit hrun rfl (hs.channelRange hfsm) (hpollCs hcs) _
  case select =>
    exact fun v hfsm hcs _ => (hs.deselect hcs).moveTo hrun rfl rfl (hs.channelRange (by simp [hfsm]))
      (.inl (hpollCs hcs))
  case start =>
    exact fun hfsm _ hcs _ => (hs.deselect hcs).moveTo hrun rfl rfl (hs.channelRange (by simp [hfsm]))
      (.inl (hpollCs hcs))
  case start' =>
    exact fun hfsm hmode => hs.moveTo hrun (hreleased (by simp [hin, hfsm, hmode])) rfl
      (hs.channelRange (by simp [hfsm])) (.inl (hs.poll_of_fsm (by simp [hfsm])))
  case timeout =>
    exact fun hfsm hm => hs.abortVisit hrun (hreleased (by simp [hin, hfsm, hm]))
      (hs.channelRange (by simp [hfsm])) (hpollMethod hm) _
  case edge =>
    exact fun hfsm hm => hs.moveTo hrun (hreleased (by simp [hin, hfsm, hm])) rfl
      (hs.channelRange (by simp [hfsm])) (.inl (hpollMethod (by simp [hm])))
  case level =>
    exact fun hfsm hm => hs.moveTo hrun (hreleased (by simp [hin, hfsm, hm])) rfl
      (hs.channelRange (by simp [hfsm])) (.inl (hpollMethod (by simp [hm])))
  case polled =>
    exact fun b hfsm hm _ hcs _ => (hs.deselect hcs).moveTo hrun rfl rfl
      (hs.channelRange (by simp [hfsm])) (.inr ⟨hfsm, hm⟩)
  case test =>
    intro b hfsm hm hpoll
    have hcs := hreleased (by simp [hin, hfsm, hpoll])
    have hch := hs.channelRange (by simp [hfsm])
    have htested : ({ s with poll := none } : State).SequenceInv :=
      hs.moveTo hrun hcs rfl hch (.inl rfl)
    exact ⟨hs.moveTo hrun hcs rfl hch (.inl rfl), htested.abortVisit hrun hcs hch rfl _, htested⟩
  case read =>
    intro raw hfsm hcs _ _
    have hcaptured : (s.deselect.capture raw).SequenceInv := (hs.deselect hcs).congr rfl
    exact hcaptured.advance hrun rfl (hs.channelRange (by simp [hfsm])) (hpollCs hcs)
  case calibrate => exact fun _ => hs.congr rfl
  case encode => exact fun _ => hs.congr (by simp)
  case notify =>
    intro hfsm
    have hcs := hreleased (by simp [hin, hfsm])
    have hpoll := hs.poll_of_fsm (by simp [hfsm])
    exact ⟨fun _ => (hs.congr (t := { s with ntfStatus := .notReady }) rfl).finishCycle hcs hpoll,
      fun ok _ _ => (hs.congr (t := s.sinkSend ok) rfl).finishCycle hcs hpoll⟩
  case send => exact fun _ _ => hs.congr rfl

/-- Every engine step of an operation in progress keeps the sequencing registers in agreement. -/
theorem opStep_sequenceInv {i : Instr} {s : State} (hs : s.SequenceInv) (hrun : Running i s) :
    (opStep s.cfg i s).All State.SequenceInv State.SequenceInv := by
  have ⟨hbusy, hi⟩ := hrun
  refine opStep_all True s.cfg i s rfl hs.cfgOk ?frame ?complete ?invalid ?tare ?cycle
  case frame =>
    intro _ _ _ _ hwf hfail hok hcycle htare
    exact frameStep_sequenceInv hs hbusy ((State.inCommandCycle_of_host hi hcycle htare).trans hwf) hfail hok
  case complete =>
    intro t st d ht hcs hcycle _ _ _
    have hquiet := (hs.deselect hcs).quiet (hs.fsm_of_host hi hcycle) rfl
    rcases ht with rfl | rfl | ⟨a, v, -, rfl⟩
    · exact hquiet.complete hs.cfgOk st d
    · exact (hquiet.congr (t := s.deselect.resetDevice) (by simp)).complete (by simpa using hs.cfgOk) st d
    · exact (hquiet.congr (t := s.deselect.setShadow a v) rfl).complete hs.cfgOk st d
  case invalid =>
    intro hwf
    have hcycle : i ≠ .cycle := by rintro rfl; cases hwf
    have htare : i ≠ .tare := by rintro rfl; cases hwf
    have hcs := hs.cs_of_not_inCommandCycle ((State.inCommandCycle_of_host hi hcycle htare).trans hwf)
    exact (hs.quiet (hs.fsm_of_host hi hcycle) hcs).complete hs.cfgOk _ _
  case tare =>
    rintro rfl
    have hcs := hs.cs_of_not_inCommandCycle (State.inCommandCycle_of_tare hi)
    have htared : s.tareAll.SequenceInv := hs.congr rfl
    exact (htared.quiet (hs.fsm_of_host hi (by simp)) hcs).complete hs.cfgOk _ _
  case cycle =>
    rintro rfl
    exact cycleStep_sequenceInv hs hrun

theorem applyEvent_sequenceInv {e : Event} {s t : State} (hs : s.SequenceInv) (h : applyEvent e s = .next t) :
    t.SequenceInv := by
  rcases applyEvent_engineRegs h with rfl | ⟨hregs, -⟩
  · exact (State.resetWith_sequenceInv hs.cfgOk).congr rfl
  · exact hs.congr hregs

/-- Settles O55: engine steps keep the agreement (`opStep_sequenceInv`), events leave it or reset it, and
acceptance finds a quiet engine. -/
theorem stepKeepsSequencing : Obligations.StepKeepsSequencing := by
  intro s t hs h
  refine step_keeps (P := State.SequenceInv) ?event ?lower ?engine ?elapse ?hasten ?tick ?host ?illegal h
  case event =>
    exact fun e es u _ hu => applyEvent_sequenceInv (s := { s.lowerHres with sched := es }) (hs.congr rfl) hu
  case lower => exact hs.congr rfl
  case engine => exact fun i u _ hu hrun => opStep_sequenceInv hu hrun
  case elapse => exact fun _ hu => hu.congr rfl
  case hasten => exact fun _ hu => hu.congr rfl
  case tick =>
    intro hidle
    have hquiet : s.lowerHres.acceptTick.Quiet := (hs.quiet_of_idle hidle).congr rfl
    have hword : s.lowerHres.acceptTick.curW = encode .cycle := rfl
    exact hquiet.sequenceInv hs.cfgOk (fun _ => by rw [decodeWord_eq_cycle.2 hword]; rfl) (fun _ => hword)
  case host =>
    intro hidle i hi
    have hquiet : s.lowerHres.acceptHost.Quiet := (hs.quiet_of_idle hidle).congr rfl
    exact hquiet.sequenceInv hs.cfgOk (fun _ => by simp [hi]) (by simp)
  case illegal =>
    intro hidle _
    have hquiet : s.lowerHres.acceptHost.Quiet := (hs.quiet_of_idle hidle).congr rfl
    exact hquiet.complete hs.cfgOk _ _

end Sys2Proof.Machine

/-! PROOFS. The statements of 20_memory.md: every step keeps both memories canonical and within the locations
that exist (R61, R63, R65). -/

namespace Sys2Proof.Machine

section Memories

variable {s t : State}

/-! ## One memory -/

/-- A write inside a set of locations lists nothing outside it. -/
theorem Memory.write_within {d : Nat → Byte} {L : Nat → Prop} {m : Memory} {a : Nat} {v : Byte}
    (hm : ∀ c ∈ m, L c.1) (ha : L a) : ∀ c ∈ Memory.write d m a v, L c.1 := by
  intro c hc
  rcases Memory.mem_write hc with h | h
  · exact h ▸ ha
  · exact hm c h

/-! ## The writes of both memories -/

/-- What the memory invariants are about: the configuration, `SHADOW` and `PKT`. -/
@[simp] def State.memories (s : State) : Cfg × Memory × Memory := (s.cfg, s.shadow, s.pkt)

theorem State.MemoryInv.congr (hs : s.MemoryInv) (h : t.memories = s.memories) : t.MemoryInv := by
  simp only [State.memories, Prod.mk.injEq] at h
  obtain ⟨hcfg, hshadow, hpkt⟩ := h
  obtain ⟨hswf, hlegal, hpwf, hinside⟩ := hs
  constructor
  case shadowWf => rwa [hcfg, hshadow]
  case shadowLegal => rwa [hcfg, hshadow]
  case pktWf => rwa [hpkt]
  case pktInside => rwa [State.pktLen, hcfg, hpkt]

/-- A write to a shadow register at a legal address (20 R61, R63). -/
theorem State.MemoryInv.setShadow (hs : s.MemoryInv) {a : RegAddr} (ha : s.cfg.regLegal a = true) (v : Byte) :
    (s.setShadow a v).MemoryInv :=
  { hs with
    shadowWf := Memory.wf_write _ _ _ hs.shadowWf
    shadowLegal :=
      Memory.write_within (L := fun k => ∃ b ∈ s.cfg.regAddrs, b.toNat = k) hs.shadowLegal
        ⟨a, by simpa [Cfg.regLegal] using ha, rfl⟩ }

/-- A row of writes, each of which keeps the memories where the configuration is that of `s`. -/
theorem State.MemoryInv.foldl {α : Type} {write : State → α → State} {l : List α} (hs : s.MemoryInv)
    (hcfg : ∀ u x, (write u x).cfg = u.cfg)
    (hwrite : ∀ u, u.MemoryInv → u.cfg = s.cfg → ∀ x ∈ l, (write u x).MemoryInv) :
    (l.foldl write s).MemoryInv := by
  induction l generalizing s with
  | nil => exact hs
  | cons x l ih =>
    refine ih (hwrite s hs rfl x List.mem_cons_self) fun u hu hu' y hy => ?_
    exact hwrite u hu (hu'.trans (hcfg s x)) y (List.mem_cons_of_mem x hy)

/-- RESET writes shadow registers at legal addresses only (40 R110). -/
theorem State.MemoryInv.resetDevice (hs : s.MemoryInv) : s.resetDevice.MemoryInv := by
  have hdefaults := hs.foldl (l := s.cfg.regAddrs)
    (write := fun u a => u.setShadow a (u.cfg.regDefault a.toNat)) (fun _ _ => rfl)
    fun u hu hcfg a ha => hu.setShadow (by simpa [Cfg.regLegal, hcfg] using ha) _
  exact hdefaults.congr rfl

/-- A field stored inside the packet: both of its bytes are (20 R65, 30 R91). -/
theorem State.MemoryInv.store16 (hs : s.MemoryInv) {o : Nat} (ho : o + 1 < s.pktLen) (f : BitVec 16) :
    (s.store16 o f).MemoryInv :=
  { hs with
    pktWf := Memory.wf_write _ _ _ (Memory.wf_write _ _ _ hs.pktWf)
    pktInside :=
      Memory.write_within (L := (· < s.pktLen))
        (Memory.write_within (L := (· < s.pktLen)) hs.pktInside (Nat.lt_of_succ_lt ho)) ho }

/-- The encode step stores the time at offset 0 and channel `i` at offset `2 + 2i`, with `i < N`, so it stays
below `2N + 2` (44 R201, R203). -/
theorem State.MemoryInv.encodePacket (hs : s.MemoryInv) : s.encodePacket.MemoryInv := by
  have htime : (s.store16 0 (s.now.setWidth 16)).MemoryInv := hs.store16 (by simp [State.pktLen]) _
  refine htime.foldl (fun _ _ => rfl) fun u hu hcfg i hi => hu.store16 ?_ _
  have hlt : i < s.cfg.n := List.mem_range.1 hi
  have hn : u.cfg.n = s.cfg.n := congrArg Cfg.n hcfg
  rw [State.pktLen, hn]
  omega

/-! ## Every step keeps both memories -/

theorem State.MemoryInv.deselect (hs : s.MemoryInv) : s.deselect.MemoryInv := hs.congr rfl

theorem State.MemoryInv.complete (hs : s.MemoryInv) (st : Status) (d : BitVec 32) : (s.complete st d).MemoryInv :=
  hs.congr (by simp)

theorem State.MemoryInv.abortVisit (hs : s.MemoryInv) (st : Status) : (s.abortVisit st).MemoryInv :=
  hs.congr (by simp)

/-- A command cycle on behalf of an operation that keeps the memories. -/
theorem frameStep_memoryInv {frame : Frame} {finish : Status → List Byte → State → EngineStep}
    (hs : s.MemoryInv)
    (hfail : s.cs = true → s.xferFailed = true → True →
      (finish .transportFailure [] s.deselect).All State.MemoryInv State.MemoryInv)
    (hok : s.cs = true → s.xferFailed = false → True →
      (finish .ok s.kept s.deselect).All State.MemoryInv State.MemoryInv) :
    (frameStep frame finish s).All State.MemoryInv State.MemoryInv :=
  frameStep_all (fun _ => hs.congr rfl) (fun _ _ _ _ _ _ _ _ => hs.congr rfl)
    (fun hcs hx => hfail hcs hx trivial) (fun hcs hx _ => hok hcs hx trivial)

/-- Every engine step of a CYCLE keeps the memories: `SHADOW` is written at the end of a selection, at the
multiplexer's address, and `PKT` by the encode step. -/
theorem cycleStep_memoryInv (hwf : s.cfg.wf = true) (hs : s.MemoryInv) :
    (cycleStep s).All State.MemoryInv State.MemoryInv := by
  obtain ⟨hmux, -⟩ := cfg_wf_facts hwf
  refine cycleStep_all True s hwf ?idle ?frame ?bad ?abort ?select ?start ?start' ?timeout ?edge ?level
    ?polled ?test ?read ?calibrate ?encode ?notify ?send
  case idle => exact fun _ => hs.congr rfl
  case frame => exact fun _ _ _ _ _ hfail hok => frameStep_memoryInv hs hfail hok
  case bad => exact fun _ _ => hs.abortVisit _
  case abort => exact fun _ _ _ _ => hs.deselect.abortVisit _
  case select => exact fun v _ _ _ => (hs.deselect.setShadow hmux v).congr rfl
  case start => exact fun _ _ _ _ => hs.congr rfl
  case start' => exact fun _ _ => hs.congr rfl
  case timeout => exact fun _ _ => hs.abortVisit _
  case edge => exact fun _ _ => hs.congr rfl
  case level => exact fun _ _ => hs.congr rfl
  case polled => exact fun _ _ _ _ _ _ => hs.congr rfl
  case test =>
    intro _ _ _ _
    have htested : ({ s with poll := none } : State).MemoryInv := hs.congr rfl
    exact ⟨hs.congr rfl, htested.abortVisit _, htested⟩
  case read => exact fun _ _ _ _ _ => hs.congr (by simp)
  case calibrate => exact fun _ => hs.congr rfl
  case encode => exact fun _ => hs.encodePacket.congr rfl
  case notify => exact fun _ => ⟨fun _ => hs.congr (by simp), fun _ _ _ => hs.congr (by simp)⟩
  case send => exact fun _ _ => hs.congr rfl

/-- Every engine step of an operation keeps the memories: wire commands and helpers write `SHADOW` at legal
addresses (20 R61), and CYCLE alone writes `PKT`. -/
theorem opStep_memoryInv (i : Instr) (hwf : s.cfg.wf = true) (hs : s.MemoryInv) :
    (opStep s.cfg i s).All State.MemoryInv State.MemoryInv := by
  refine opStep_all True s.cfg i s rfl hwf ?frame ?complete ?invalid ?tare ?cycle
  case frame => exact fun _ _ _ _ _ hfail hok _ _ => frameStep_memoryInv hs hfail hok
  case complete =>
    rintro t st d (rfl | rfl | ⟨a, v, ha, rfl⟩) _ _ _ _ _
    · exact hs.deselect.complete st d
    · exact hs.deselect.resetDevice.complete st d
    · exact (hs.deselect.setShadow ha v).complete st d
  case invalid => exact fun _ => hs.complete _ _
  case tare => exact fun _ => (hs.congr (t := s.tareAll) rfl).complete _ _
  case cycle => exact fun _ => cycleStep_memoryInv hwf hs

/-- No event but `rst` writes a memory (60 R228), and `rst` leaves them as right after reset. -/
theorem applyEvent_memoryInv {e : Event} (hs : s.MemoryInv) (h : applyEvent e s = .next t) : t.MemoryInv := by
  cases e with
  | hostWord w =>
    simp only [applyEvent] at h
    split at h
    · cases h
    · cases h; exact hs.congr rfl
  | rst => cases h; exact (State.resetWith_memoryInv s.cfg).congr rfl
  | _ => cases h; exact hs.congr (by simp)

end Memories

/-- Settles O53: engine steps write the memories inside their locations (`opStep_memoryInv`), events leave or
reset them, and acceptance leaves them. -/
theorem stepKeepsMemories : Obligations.StepKeepsMemories := by
  intro s t hs h
  refine step_keeps (P := State.MemoryInv) ?event ?lower ?engine ?elapse ?hasten ?tick ?host ?illegal h
  case event =>
    exact fun e es u _ hu => applyEvent_memoryInv (s := { s.lowerHres with sched := es }) (hs.congr rfl) hu
  case lower => exact hs.congr rfl
  case engine => exact fun i u hwf hu _ => opStep_memoryInv i hwf hu
  case elapse => exact fun _ hu => hu.congr rfl
  case hasten => exact fun _ hu => hu.congr rfl
  case tick => exact fun _ => hs.congr rfl
  case host => exact fun _ _ _ => hs.congr rfl
  case illegal => exact fun _ _ => hs.congr (by simp)

end Sys2Proof.Machine

/-! PROOFS. The statements of 30_encoding.md: decoding and encoding are inverse (R85, R92), the rows of the
opcode table (R85), the legality conditions (R97), the assembler (R95) and sample words (R82 to R84). -/

namespace Sys2Proof.Machine

/-! ## The fields of a command word (30 R81) -/

@[simp] theorem opField_packWord (op : BitVec 3) (a : BitVec 5) (d : BitVec 8) :
    opField (packWord op a d) = op := by
  unfold opField packWord
  rw [BitVec.extractLsb'_append_eq_of_le (by decide)]
  exact BitVec.extractLsb'_append_eq_left

@[simp] theorem aField_packWord (op : BitVec 3) (a : BitVec 5) (d : BitVec 8) :
    aField (packWord op a d) = a := by
  unfold aField packWord
  rw [BitVec.extractLsb'_append_eq_of_le (by decide)]
  exact BitVec.extractLsb'_append_eq_right

@[simp] theorem dField_packWord (op : BitVec 3) (a : BitVec 5) (d : BitVec 8) :
    dField (packWord op a d) = d :=
  BitVec.extractLsb'_append_eq_right

/-- A word is known by its fields. -/
theorem packWord_eq_iff {w : CmdWord} {op : BitVec 3} {a : BitVec 5} {d : BitVec 8} :
    packWord op a d = w ↔ opField w = op ∧ aField w = a ∧ dField w = d := by
  constructor
  · rintro rfl
    simp
  · rintro ⟨rfl, rfl, rfl⟩
    exact packWord_fields w

/-- The operand of SETMUX is made up of its two codes (30 R83). -/
theorem nibbles_append (d : Byte) : d.extractLsb' 4 4 ++ d.extractLsb' 0 4 = d := by
  rw [BitVec.extractLsb'_append_extractLsb'_eq_extractLsb' (show 4 = 0 + 4 from rfl)]
  exact BitVec.extractLsb'_eq_self

theorem toNat_opField (w : CmdWord) : (opField w).toNat = w.toNat / 2 ^ 13 := by
  rw [opField, BitVec.extractLsb'_toNat, Nat.shiftRight_eq_div_pow]
  omega

theorem toNat_aField (w : CmdWord) : (aField w).toNat = w.toNat / 2 ^ 8 % 32 := by
  rw [aField, BitVec.extractLsb'_toNat, Nat.shiftRight_eq_div_pow]

theorem toNat_dField (w : CmdWord) : (dField w).toNat = w.toNat % 256 := by
  rw [dField, BitVec.extractLsb'_toNat, Nat.shiftRight_zero]

/-- The number a word stands for, as the assembler's table writes it (30 R95). -/
theorem ofNat_fields (op : BitVec 3) (a : BitVec 5) (d : BitVec 8) :
    BitVec.ofNat 16 (op.toNat <<< 13 ||| a.toNat <<< 8 ||| d.toNat) = packWord op a d := by
  have hnat : (packWord op a d).toNat = op.toNat <<< 13 ||| a.toNat <<< 8 ||| d.toNat := by
    simp only [packWord, BitVec.toNat_append, Nat.shiftLeft_or_distrib, ← Nat.shiftLeft_add]
  rw [← hnat, BitVec.ofNat_toNat, BitVec.setWidth_eq]

/-! ## Decoding and encoding are inverse (30 R85, R92) -/

theorem decodeWord_eq_some_iff {w : CmdWord} {i : Instr} : decodeWord w = some i ↔ decode w = .ok i := by
  unfold decodeWord
  cases decode w <;> simp

/-- Settles O1, operation by operation: the decoder's tests read the fields `encode` packed. -/
theorem decodeInvertsEncode : Obligations.DecodeInvertsEncode := by
  intro i
  rw [decodeWord_eq_some_iff]
  cases i with
  | setmux p n =>
    have hpos : (p ++ n).extractLsb' 4 4 = p := BitVec.extractLsb'_append_eq_left
    have hneg : (p ++ n).extractLsb' 0 4 = n := BitVec.extractLsb'_append_eq_right
    simp [decode, encode, decodeCfg, hpos, hneg]
  | setgain _ | setrate _ | setref _ => simp [decode, encode, decodeCfg]
  | cycle | tare => simp [decode, encode, decodeSys, whenZero]
  | reset | start | stop | rdata | rreg _ | wreg _ _ => simp [decode, encode, whenZero]

/-- A CFG sub-operation decodes to the operation of its word (30 R83). -/
theorem encode_of_decodeCfg {a : BitVec 5} {d : Byte} {i : Instr} (h : decodeCfg a d = .ok i) :
    encode i = packWord 6 a d := by
  unfold decodeCfg at h
  split_ifs at h with h0 h1 h2 h3 <;> cases h
  · rw [h0, encode, nibbles_append]
  · rw [h1, encode]
  · rw [h2, encode]
  · rw [h3, encode]

/-- A SYS sub-operation decodes to the operation of its word (30 R84). -/
theorem encode_of_decodeSys {a : BitVec 5} {d : Byte} {i : Instr} (h : decodeSys a d = .ok i) :
    encode i = packWord 7 a d := by
  unfold decodeSys at h
  split_ifs at h with h0 h1
  all_goals
    obtain ⟨hzero, rfl⟩ := whenZero_eq_ok h
    rw [beq_iff_eq] at hzero
  · rw [h0, hzero, encode]
  · rw [h1, hzero, encode]

/-- An operation whose word has `A = 0` and `D = 0` (30 R82). -/
theorem encode_of_whenZero {w : CmdWord} {i j : Instr} (hi : encode i = packWord (opField w) 0 0)
    (h : whenZero (aField w == 0 && dField w == 0) i = .ok j) : encode j = w := by
  obtain ⟨hzero, rfl⟩ := whenZero_eq_ok h
  simp only [Bool.and_eq_true, beq_iff_eq] at hzero
  exact hi.trans (packWord_eq_iff.2 ⟨rfl, hzero⟩)

/-- Settles O2, along the tests of the decoding procedure (30 R97). -/
theorem encodeInvertsDecode : Obligations.EncodeInvertsDecode := by
  intro w i h
  rw [decodeWord_eq_some_iff] at h
  simp only [decode] at h
  split_ifs at h with h0 h1 h2 h3 h4 h5 h6
  · exact encode_of_whenZero (h0 ▸ rfl) h
  · exact encode_of_whenZero (h1 ▸ rfl) h
  · exact encode_of_whenZero (h2 ▸ rfl) h
  · exact encode_of_whenZero (h3 ▸ rfl) h
  · obtain ⟨hzero, rfl⟩ := whenZero_eq_ok h
    exact packWord_eq_iff.2 ⟨h4, rfl, eq_of_beq hzero⟩
  · cases h
    exact packWord_eq_iff.2 ⟨h5, rfl, rfl⟩
  · rw [encode_of_decodeCfg h, ← h6, packWord_fields]
  · have h7 : opField w = 7 := by bv_omega
    rw [encode_of_decodeSys h, ← h7, packWord_fields]

/-- A word decodes to an operation exactly when it is the operation's word. -/
theorem decodeWord_eq_some_iff_encode {w : CmdWord} {i : Instr} : decodeWord w = some i ↔ encode i = w :=
  ⟨encodeInvertsDecode w i, fun h => h ▸ decodeInvertsEncode i⟩

/-! ## The rows of the opcode table (30 R85) -/

/-- The word of every operation meets its own row. -/
theorem encode_and_rowMask (i : Instr) : encode i &&& rowMask i = rowMatch i :=
  match i with
  | .reset => Laws.OpcodeRow.reset
  | .start => Laws.OpcodeRow.start
  | .stop => Laws.OpcodeRow.stop
  | .rdata => Laws.OpcodeRow.rdata
  | .rreg a => Laws.OpcodeRow.rreg a
  | .wreg a v => Laws.OpcodeRow.wreg a v
  | .setmux p n => Laws.OpcodeRow.setmux p n
  | .setgain c => Laws.OpcodeRow.setgain c
  | .setrate c => Laws.OpcodeRow.setrate c
  | .setref c => Laws.OpcodeRow.setref c
  | .cycle => Laws.OpcodeRow.cycle
  | .tare => Laws.OpcodeRow.tare

/-- A match and mask pair tests the fields one by one. -/
theorem and_packWord_eq_iff {w : CmdWord} {mo op : BitVec 3} {ma a : BitVec 5} {md d : BitVec 8} :
    w &&& packWord mo ma md = packWord op a d ↔
      opField w &&& mo = op ∧ aField w &&& ma = a ∧ dField w &&& md = d := by
  conv_lhs => rw [← packWord_fields w, Laws.OpcodeRow.packWord_and, eq_comm, packWord_eq_iff]
  simp

/-- A row without free fields is met by its operation's word alone. -/
theorem encode_of_and_fullMask {w : CmdWord} {i : Instr} (hmask : rowMask i = BitVec.allOnes 16)
    (h : w &&& rowMask i = rowMatch i) : encode i = w := by
  rw [← encode_and_rowMask i, hmask, BitVec.and_allOnes, BitVec.and_allOnes] at h
  exact h.symm

/-- The RREG row leaves `A` free. -/
theorem packWord_of_and_rregMask {w : CmdWord} (h : w &&& 0xE0FF = 0x8000) : packWord 4 (aField w) 0 = w := by
  obtain ⟨hop, -, hd⟩ := (and_packWord_eq_iff (w := w) (mo := .allOnes 3) (op := 4) (ma := 0) (a := 0)
    (md := .allOnes 8) (d := 0)).1 h
  rw [BitVec.and_allOnes] at hop hd
  exact packWord_eq_iff.2 ⟨hop, rfl, hd⟩

/-- The WREG row leaves `A` and `D` free. -/
theorem packWord_of_and_wregMask {w : CmdWord} (h : w &&& 0xE000 = 0xA000) :
    packWord 5 (aField w) (dField w) = w := by
  obtain ⟨hop, -, -⟩ := (and_packWord_eq_iff (w := w) (mo := .allOnes 3) (op := 5) (ma := 0) (a := 0)
    (md := 0) (d := 0)).1 h
  rw [BitVec.and_allOnes] at hop
  exact packWord_eq_iff.2 ⟨hop, rfl, rfl⟩

/-- The CFG rows leave `D` free. -/
theorem packWord_of_and_cfgMask {w : CmdWord} {a : BitVec 5} (h : w &&& 0xFF00 = packWord 6 a 0) :
    packWord 6 a (dField w) = w := by
  obtain ⟨hop, ha, -⟩ := (and_packWord_eq_iff (w := w) (mo := .allOnes 3) (op := 6) (ma := .allOnes 5)
    (a := a) (md := 0) (d := 0)).1 h
  rw [BitVec.and_allOnes] at hop ha
  exact packWord_eq_iff.2 ⟨hop, ha, rfl⟩

/-- A word that meets a row is the word of an operation of that row, its operands read from the free fields. -/
theorem exists_encode_of_and_rowMask {w : CmdWord} {i : Instr} (h : w &&& rowMask i = rowMatch i) :
    ∃ j, encode j = w ∧ rowMatch j = rowMatch i ∧ rowMask j = rowMask i := by
  cases i with
  | reset | start | stop | rdata | cycle | tare => exact ⟨_, encode_of_and_fullMask rfl h, rfl, rfl⟩
  | rreg _ => exact ⟨.rreg (aField w), packWord_of_and_rregMask h, rfl, rfl⟩
  | wreg _ _ => exact ⟨.wreg (aField w) (dField w), packWord_of_and_wregMask h, rfl, rfl⟩
  | setmux _ _ =>
    refine ⟨.setmux ((dField w).extractLsb' 4 4) ((dField w).extractLsb' 0 4), ?_, rfl, rfl⟩
    rw [encode, nibbles_append]
    exact packWord_of_and_cfgMask h
  | setgain _ => exact ⟨.setgain (dField w), packWord_of_and_cfgMask h, rfl, rfl⟩
  | setrate _ => exact ⟨.setrate (dField w), packWord_of_and_cfgMask h, rfl, rfl⟩
  | setref _ => exact ⟨.setref (dField w), packWord_of_and_cfgMask h, rfl, rfl⟩

/-- Settles O3: a word that meets a row is the word of one of its operations, and a word is the word of one
operation only, so it meets one row only. -/
theorem decoderFollowsRowTable : Obligations.DecoderFollowsRowTable := by
  intro w
  refine ⟨?selected, ?selects, ?disjoint⟩
  case selected =>
    intro i h
    rw [← encodeInvertsDecode w i h]
    exact encode_and_rowMask i
  case selects =>
    intro i h
    obtain ⟨j, hj, hrow⟩ := exists_encode_of_and_rowMask h
    exact ⟨j, decodeWord_eq_some_iff_encode.2 hj, hrow⟩
  case disjoint =>
    intro i j hi hj
    obtain ⟨i', hi', hmatch, -⟩ := exists_encode_of_and_rowMask hi
    obtain ⟨j', hj', hmatch', -⟩ := exists_encode_of_and_rowMask hj
    have hsame : i' = j' :=
      Option.some.inj <| (decodeWord_eq_some_iff_encode.2 hi').symm.trans (decodeWord_eq_some_iff_encode.2 hj')
    rw [← hmatch, ← hmatch', hsame]

/-! ## Legality (30 R97) -/

theorem isSome_decodeWord_iff {w : CmdWord} : (decodeWord w).isSome = true ↔ ∃ i, encode i = w := by
  simp only [Option.isSome_iff_exists, decodeWord_eq_some_iff_encode]

/-- Settles O4: the words of the operations are the words that meet the conditions on the fields. -/
theorem legalWordConditions : Obligations.LegalWordConditions := by
  intro w
  rw [← toNat_opField, ← toNat_aField, ← toNat_dField, isSome_decodeWord_iff]
  constructor
  · rintro ⟨i, rfl⟩
    cases i <;> simp [encode]
  · rintro (⟨hop, ha, hd⟩ | ⟨hop, hd⟩ | hop | ⟨hop, ha⟩ | ⟨hop, ha, hd⟩)
    · have hzero : aField w = 0 ∧ dField w = 0 := ⟨BitVec.eq_of_toNat_eq ha, BitVec.eq_of_toNat_eq hd⟩
      have hops : opField w = 0 ∨ opField w = 1 ∨ opField w = 2 ∨ opField w = 3 := by bv_omega
      obtain h | h | h | h := hops
      · exact ⟨.reset, packWord_eq_iff.2 ⟨h, hzero⟩⟩
      · exact ⟨.start, packWord_eq_iff.2 ⟨h, hzero⟩⟩
      · exact ⟨.stop, packWord_eq_iff.2 ⟨h, hzero⟩⟩
      · exact ⟨.rdata, packWord_eq_iff.2 ⟨h, hzero⟩⟩
    · have h4 : opField w = 4 := BitVec.eq_of_toNat_eq hop
      have hzero : dField w = 0 := BitVec.eq_of_toNat_eq hd
      exact ⟨.rreg (aField w), packWord_eq_iff.2 ⟨h4, rfl, hzero⟩⟩
    · have h5 : opField w = 5 := BitVec.eq_of_toNat_eq hop
      exact ⟨.wreg (aField w) (dField w), packWord_eq_iff.2 ⟨h5, rfl, rfl⟩⟩
    · have h6 : opField w = 6 := BitVec.eq_of_toNat_eq hop
      have hsubs : aField w = 0 ∨ aField w = 1 ∨ aField w = 2 ∨ aField w = 3 := by bv_omega
      obtain h | h | h | h := hsubs
      · refine ⟨.setmux ((dField w).extractLsb' 4 4) ((dField w).extractLsb' 0 4), ?_⟩
        rw [encode, nibbles_append]
        exact packWord_eq_iff.2 ⟨h6, h, rfl⟩
      · exact ⟨.setgain (dField w), packWord_eq_iff.2 ⟨h6, h, rfl⟩⟩
      · exact ⟨.setrate (dField w), packWord_eq_iff.2 ⟨h6, h, rfl⟩⟩
      · exact ⟨.setref (dField w), packWord_eq_iff.2 ⟨h6, h, rfl⟩⟩
    · have h7 : opField w = 7 := BitVec.eq_of_toNat_eq hop
      have hzero : dField w = 0 := BitVec.eq_of_toNat_eq hd
      have hsubs : aField w = 0 ∨ aField w = 1 := by bv_omega
      obtain h | h := hsubs
      · exact ⟨.cycle, packWord_eq_iff.2 ⟨h7, h, hzero⟩⟩
      · exact ⟨.tare, packWord_eq_iff.2 ⟨h7, h, hzero⟩⟩

/-! ## The assembler (30 R95) -/

theorem isSome_assemble (l : AsmLine) : (assemble l).isSome = l.wf := by
  unfold assemble
  split
  · next h => exact h.symm
  · next h => simpa using h

theorem assemble_rreg (a : RegAddr) : assemble (.rreg a.toNat) = some (encode (.rreg a)) := by
  have hword := ofNat_fields 4 a 0#8
  rw [BitVec.toNat_zero, Nat.or_zero] at hword
  exact (if_pos (decide_eq_true a.isLt)).trans (congrArg some hword)

theorem assemble_wreg (a : RegAddr) (v : Byte) :
    assemble (.wreg a.toNat v.toNat) = some (encode (.wreg a v)) := by
  have hwf : AsmLine.wf (.wreg a.toNat v.toNat) = true := by simp [AsmLine.wf, a.isLt, v.isLt]
  exact (if_pos hwf).trans (congrArg some (ofNat_fields 5 a v))

theorem assemble_setmux (p n : InputCode) :
    assemble (.setmux p.toNat n.toNat) = some (encode (.setmux p n)) := by
  have hwf : AsmLine.wf (.setmux p.toNat n.toNat) = true := by simp [AsmLine.wf, p.isLt, n.isLt]
  have hword := ofNat_fields 6 0 (p ++ n)
  rw [BitVec.toNat_append, ← Nat.or_assoc] at hword
  exact (if_pos hwf).trans (congrArg some hword)

/-- The three helpers that take a code differ in `A` alone. -/
theorem assemble_code (c : Byte) :
    assemble (.setgain c.toNat) = some (encode (.setgain c)) ∧
    assemble (.setrate c.toNat) = some (encode (.setrate c)) ∧
    assemble (.setref c.toNat) = some (encode (.setref c)) := by
  have hwf : decide (c.toNat < 256) = true := decide_eq_true c.isLt
  exact ⟨(if_pos hwf).trans (congrArg some (ofNat_fields 6 1 c)),
    (if_pos hwf).trans (congrArg some (ofNat_fields 6 2 c)),
    (if_pos hwf).trans (congrArg some (ofNat_fields 6 3 c))⟩

/-- Settles O6: the number of the table is the number its fields make up (`ofNat_fields`). -/
theorem assemblerWritesCommandWords : Obligations.AssemblerWritesCommandWords :=
  ⟨isSome_assemble, ⟨rfl, rfl, rfl, rfl, rfl, rfl⟩, assemble_rreg, assemble_wreg, assemble_setmux,
    assemble_code⟩

/-! ## Sample words (95 section 2.1) -/

/-- Settles O5: the legal words are the words of their operations; each of the others fails a test of the
decoding procedure. -/
theorem sampleWordsDecode : Obligations.SampleWordsDecode :=
  ⟨decodeInvertsEncode .reset, decodeInvertsEncode .start, decodeInvertsEncode .stop,
    decodeInvertsEncode .rdata, decodeInvertsEncode (.rreg 0x01), decodeInvertsEncode (.rreg 0x1F),
    decodeInvertsEncode (.wreg 0x03 0x11), decodeInvertsEncode (.setmux 3 4), decodeInvertsEncode (.setgain 7),
    decodeInvertsEncode (.setrate 16), decodeInvertsEncode (.setref 10), decodeInvertsEncode .cycle,
    decodeInvertsEncode .tare, by decide, by decide, by decide, by decide⟩

end Sys2Proof.Machine

/-! PROOFS. The statements of 40_wire_commands.md: the brackets of the bus trace (R107), when the engine accepts
an operation and how long it goes on with it (R100 to R104), and what the wire commands do (R105 to R116). -/

namespace Sys2Proof.Machine

/-! ## What the environment leaves to the engine -/

/-- The registers the engine and the bus trace go by, with the schedule. -/
@[simp] def State.busRegs (s : State) := (s.engineRegs, s.byteIdx, s.busTrace, s.sched)

/-- No event but `rst` moves the engine, the bus or the schedule (60 R228). -/
theorem applyEvent_busRegs {e : Event} {s t : State} (he : e ≠ .rst) (h : applyEvent e s = .next t) :
    t.busRegs = s.busRegs := by
  cases e with
  | hostWord w =>
    simp only [applyEvent] at h
    split at h
    · cases h
    · cases h; rfl
  | rst => exact absurd rfl he
  | _ => cases h; simp

/-- An engine step brings the next event nearer, and no other event. -/
theorem schedNearer_events (l : List Scheduled) :
    (schedNearer l).map Scheduled.event = l.map Scheduled.event := by
  cases l <;> rfl

/-- A wait makes the next event due, and no other. -/
theorem schedDue_events (l : List Scheduled) : (schedDue l).map Scheduled.event = l.map Scheduled.event := by
  cases l <;> rfl

/-! ## The bus trace (40 R107) -/

theorem busPhase_append_singleton (trace : List BusEvent) (e : BusEvent) :
    busPhase (trace ++ [e]) = (busPhase trace).bind (busPhaseStep · e) := by
  simp [busPhase, List.foldlM_append]

/-- A group has failed only by an exchange in it. -/
theorem busPhase_failed_pos {trace : List BusEvent} {k : Nat} (h : busPhase trace = some (.selected true k)) :
    0 < k := by
  rcases trace.eq_nil_or_concat with rfl | ⟨init, e, rfl⟩
  · cases h
  · rw [List.concat_eq_append, busPhase_append_singleton, Option.bind_eq_some_iff] at h
    obtain ⟨p, -, hp⟩ := h
    unfold busPhaseStep at hp
    split at hp
    · cases hp
    · simp only [Option.some.injEq, BusPhase.selected.injEq] at hp
      omega
    · cases hp
    · cases hp

section Trace

variable {s t : State}

/-- The trace invariant is about the bus, the configuration and the events to come. -/
theorem State.TraceInv.congr (hs : s.TraceInv) (hcfg : t.cfg = s.cfg)
    (hsched : t.sched.map Scheduled.event ⊆ s.sched.map Scheduled.event)
    (hbus : (t.cs, t.xferFailed, t.byteIdx, t.busTrace) = (s.cs, s.xferFailed, s.byteIdx, s.busTrace)) :
    t.TraceInv := by
  simp only [Prod.mk.injEq] at hbus
  obtain ⟨hcs, hx, hidx, htrace⟩ := hbus
  constructor
  case cfgOk => rw [hcfg]; exact hs.cfgOk
  case noRst =>
    intro e he
    obtain ⟨e', he', heq⟩ := List.mem_map.1 (hsched (List.mem_map_of_mem he))
    rw [← heq]
    exact hs.noRst e' he'
  case bracketed => rw [hcs, hx, hidx, htrace]; exact hs.bracketed

/-- What the trace invariant is about, with the schedule as it stands. -/
@[simp] def State.traceRegs (s : State) := (s.cfg, s.sched, s.cs, s.xferFailed, s.byteIdx, s.busTrace)

theorem State.TraceInv.of_traceRegs (hs : s.TraceInv) (h : t.traceRegs = s.traceRegs) : t.TraceInv := by
  simp only [State.traceRegs, Prod.mk.injEq] at h
  obtain ⟨hcfg, hsched, hbus⟩ := h
  exact hs.congr hcfg (by rw [hsched]; exact List.Subset.refl _) (by simp [hbus])

theorem State.TraceInv.complete (hs : s.TraceInv) (st : Status) (d : BitVec 32) : (s.complete st d).TraceInv :=
  hs.of_traceRegs (by simp)

theorem State.TraceInv.abortVisit (hs : s.TraceInv) (st : Status) : (s.abortVisit st).TraceInv :=
  hs.of_traceRegs (by simp)

theorem State.TraceInv.elapse (hs : s.TraceInv) : s.elapse.TraceInv :=
  hs.congr rfl (by simp [schedNearer_events]) rfl

theorem State.TraceInv.hasten (hs : s.TraceInv) : s.hasten.TraceInv :=
  hs.congr rfl (by simp [schedDue_events]) rfl

/-! ### Inside a command cycle -/

theorem State.TraceInv.busPhase_of_selected (hs : s.TraceInv) (hcs : s.cs = true) :
    busPhase s.busTrace = some (.selected s.xferFailed s.byteIdx.toNat) := by
  simpa [hcs] using hs.bracketed

/-- The `Select()` opens a group. -/
theorem State.TraceInv.select (hs : s.TraceInv) (hcs : s.cs = false) : s.select.TraceInv where
  cfgOk := hs.cfgOk
  noRst := hs.noRst
  bracketed := by
    have hphase : busPhase s.busTrace = some .released := by simpa [hcs] using hs.bracketed
    simp [busPhase_append_singleton, hphase, busPhaseStep]

/-- An exchange lengthens a group in which none has failed; a frame is too short for `BYTE_IDX` to wrap. -/
theorem State.TraceInv.xfer (hs : s.TraceInv) (hcs : s.cs = true) (hx : s.xferFailed = false)
    (hidx : s.byteIdx.toNat < 6) (tx : Byte) (keep : Bool) (ans : Answer) :
    (s.xfer tx keep ans).TraceInv where
  cfgOk := hs.cfgOk
  noRst := hs.noRst
  bracketed := by
    have hphase := hs.busPhase_of_selected hcs
    simp only [State.xfer_busTrace, busPhase_append_singleton, hphase, hx]
    have hnext : (s.byteIdx + 1).toNat = s.byteIdx.toNat + 1 := by bv_omega
    simp only [State.xfer_frame, State.xfer_xferFailed, State.xfer_byteIdx, hcs, hnext]
    rfl

/-- The `Deselect()` closes a group that has an exchange. -/
theorem State.TraceInv.deselect (hs : s.TraceInv) (hcs : s.cs = true) (hidx : 0 < s.byteIdx.toNat) :
    s.deselect.TraceInv where
  cfgOk := hs.cfgOk
  noRst := hs.noRst
  bracketed := by
    have hphase := hs.busPhase_of_selected hcs
    obtain ⟨k, hk⟩ := Nat.exists_eq_add_one.2 hidx
    simp [busPhase_append_singleton, hphase, hk, busPhaseStep]

/-- Where a frame is over, it has made an exchange. -/
theorem byteIdx_pos_of_frame_over {frame : Frame} (hne : frame ≠ []) (h : frame[s.byteIdx.toNat]? = none) :
    0 < s.byteIdx.toNat := by
  have hlen : frame.length ≤ s.byteIdx.toNat := List.getElem?_eq_none_iff.1 h
  exact lt_of_lt_of_le (List.length_pos_iff.2 hne) hlen

/-- A command cycle keeps the brackets, and makes an exchange before its `Deselect()`. -/
theorem frameStep_traceInv {frame : Frame} {finish : Status → List Byte → State → EngineStep} (hs : s.TraceInv)
    (hlen : frame.length ≤ 6) (hne : frame ≠ [])
    (hfail : s.cs = true → s.xferFailed = true → 0 < s.byteIdx.toNat →
      (finish .transportFailure [] s.deselect).All State.TraceInv State.TraceInv)
    (hok : s.cs = true → s.xferFailed = false → 0 < s.byteIdx.toNat →
      (finish .ok s.kept s.deselect).All State.TraceInv State.TraceInv) :
    (frameStep frame finish s).All State.TraceInv State.TraceInv := by
  refine frameStep_all hs.select ?exchange ?failed ?finished
  case exchange =>
    intro tx keep ans _ hcs hx hframe _
    obtain ⟨hlt, -⟩ := List.getElem?_eq_some_iff.1 hframe
    exact hs.xfer hcs hx (by omega) tx keep ans
  case failed =>
    intro hcs hx
    have hphase := hs.busPhase_of_selected hcs
    rw [hx] at hphase
    exact hfail hcs hx (busPhase_failed_pos hphase)
  case finished => exact fun hcs hx hframe => hok hcs hx (byteIdx_pos_of_frame_over hne hframe)

/-! ### Every step keeps the brackets -/

/-- Outside its command cycles a CYCLE leaves the bus alone (42 R150 to R163). -/
theorem cycleStep_traceInv (hs : s.TraceInv) : (cycleStep s).All State.TraceInv State.TraceInv := by
  have hdes := hs.deselect
  refine cycleStep_all (0 < s.byteIdx.toNat) s hs.cfgOk ?idle ?frame ?bad ?abort ?select ?start ?start' ?timeout
    ?edge ?level ?polled ?test ?read ?calibrate ?encode ?notify ?send
  case idle => exact fun _ => hs.of_traceRegs rfl
  case frame => exact fun _ _ hlen hne _ hfail hok => frameStep_traceInv hs hlen hne hfail hok
  case bad => exact fun _ _ => hs.abortVisit _
  case abort => exact fun _ _ hcs hidx => (hdes hcs hidx).abortVisit _
  case select => exact fun v _ hcs hidx => (hdes hcs hidx).of_traceRegs rfl
  case start => exact fun _ _ hcs hidx => (hdes hcs hidx).of_traceRegs rfl
  case start' => exact fun _ _ => hs.of_traceRegs rfl
  case timeout => exact fun _ _ => hs.abortVisit _
  case edge => exact fun _ _ => hs.of_traceRegs rfl
  case level => exact fun _ _ => hs.of_traceRegs rfl
  case polled => exact fun b _ _ _ hcs hidx => (hdes hcs hidx).of_traceRegs rfl
  case test =>
    intro b _ _ _
    have htested : ({ s with poll := none } : State).TraceInv := hs.of_traceRegs rfl
    exact ⟨hs.of_traceRegs rfl, htested.abortVisit _, htested⟩
  case read => exact fun raw _ hcs hidx _ => (hdes hcs hidx).of_traceRegs (by simp)
  case calibrate => exact fun _ => hs.of_traceRegs rfl
  case encode => exact fun _ => hs.of_traceRegs (by simp)
  case notify => exact fun _ => ⟨fun _ => hs.of_traceRegs (by simp), fun _ _ _ => hs.of_traceRegs (by simp)⟩
  case send => exact fun _ _ => hs.of_traceRegs rfl

theorem opStep_traceInv (i : Instr) (hs : s.TraceInv) :
    (opStep s.cfg i s).All State.TraceInv State.TraceInv := by
  refine opStep_all (0 < s.byteIdx.toNat) s.cfg i s rfl hs.cfgOk ?frame ?complete ?invalid ?tare ?cycle
  case frame => exact fun _ _ hlen hne _ hfail hok _ _ => frameStep_traceInv hs hlen hne hfail hok
  case complete =>
    intro t st d ht hcs _ _ _ hidx
    have hdes := hs.deselect hcs hidx
    rcases ht with rfl | rfl | ⟨a, v, -, rfl⟩
    · exact hdes.complete st d
    · exact hdes.of_traceRegs (by simp)
    · exact hdes.of_traceRegs (by simp)
  case invalid => exact fun _ => hs.complete _ _
  case tare => exact fun _ => hs.of_traceRegs (by simp)
  case cycle => exact fun _ => cycleStep_traceInv hs

end Trace

/-- Settles O56: engine steps keep the brackets (`opStep_traceInv`), and no event but `rst` touches the bus. -/
theorem stepKeepsTraceBracketed : Obligations.StepKeepsTraceBracketed := by
  intro s t hs h
  refine step_keeps (P := State.TraceInv) ?event ?lower ?engine ?elapse ?hasten ?tick ?host ?illegal h
  case event =>
    intro e es u hsched hu
    have hne : e ≠ .rst := hs.noRst ⟨0, e⟩ (by simp [hsched])
    have hregs := applyEvent_busRegs hne hu
    simp only [State.busRegs, State.engineRegs, Prod.mk.injEq] at hregs
    obtain ⟨⟨hcfg, -, -, -, -, hcs, -, hx, -⟩, hidx, htrace, hes⟩ := hregs
    refine hs.congr hcfg ?_ (by simp [hcs, hx, hidx, htrace])
    rw [hes, hsched, List.map_cons]
    exact List.subset_cons_self _ _
  case lower => exact hs.of_traceRegs rfl
  case engine => exact fun i u _ hu _ => opStep_traceInv i hu
  case elapse => exact fun _ hu => hu.elapse
  case hasten => exact fun _ hu => hu.hasten
  case tick => exact fun _ => State.TraceInv.elapse (hs.of_traceRegs rfl)
  case host => exact fun _ _ _ => hs.of_traceRegs rfl
  case illegal => exact fun _ _ => hs.of_traceRegs (by simp)

/-! ## Acceptance (40 R100 to R102) -/

/-- With no event due the step is the engine's turn (40 R104). -/
theorem step_of_not_due {s : State} (hwf : s.cfg.wf = true) (hdue : s.eventDue = false) :
    step s = runEngine s.lowerHres := by
  unfold step runTurn
  rw [if_pos hwf]
  split
  · next e es hs =>
    have hs' : s.sched = ⟨0, e⟩ :: es := hs
    simp [State.eventDue, hs'] at hdue
  · rfl

theorem step_of_idle {s : State} (hwf : s.cfg.wf = true) (hdue : s.eventDue = false) (hidle : s.eng = .idle) :
    step s = runIdle s.lowerHres := by
  rw [step_of_not_due hwf hdue]
  simp [runEngine, hidle]

theorem step_of_busy {s : State} (hwf : s.cfg.wf = true) (hdue : s.eventDue = false) (hbusy : s.eng ≠ .idle) :
    step s = runBusy s.lowerHres := by
  rw [step_of_not_due hwf hdue]
  unfold runEngine
  split
  · next hidle => exact absurd hidle hbusy
  · rfl
  · rfl

/-- An idle engine that no reset holds takes the tick first (40 R101, R102). -/
theorem runIdle_of_tick {s : State} (hsettle : s.settleCnt = 0) (htick : s.tickPend = true) :
    runIdle s = exec .cycle s.acceptTick := by
  simp [runIdle, hsettle, htick]

theorem runIdle_of_word {s : State} (hsettle : s.settleCnt = 0) (htick : s.tickPend = false)
    (hword : s.hcmdValid = true) : runIdle s = runHostWord s := by
  simp [runIdle, hsettle, htick, hword]

theorem runIdle_of_wait {s : State} (h : s.settleCnt ≠ 0 ∨ (s.tickPend = false ∧ s.hcmdValid = false)) :
    runIdle s = .next s.hasten := by
  unfold runIdle
  split
  · rfl
  · next hsettle =>
    obtain ⟨htick, hword⟩ := h.resolve_left hsettle
    simp [htick, hword]

theorem runHostWord_of_legal {s : State} {i : Instr} (hi : decodeWord s.hcmdWord = some i) :
    runHostWord s = exec i s.acceptHost.elapse := by
  simp [runHostWord, hi]

theorem runHostWord_of_illegal {s : State} (h : decodeWord s.hcmdWord = none) :
    runHostWord s = .next (s.acceptHost.complete .invalidArgument 0).elapse := by
  simp [runHostWord, h]

/-- Settles O12: the word is the one the idle engine accepts. -/
theorem stepRunsDecodedHostWord : Obligations.StepRunsDecodedHostWord := by
  intro s i hwf hdue hidle hsettle htick hword hi
  calc step s = runIdle s.lowerHres := step_of_idle hwf hdue hidle
    _ = runHostWord s.lowerHres := runIdle_of_word hsettle htick hword
    _ = exec i s.lowerHres.acceptHost.elapse := runHostWord_of_legal hi

/-- Settles O13, for a requester of either kind. -/
theorem stepResumesOperation : Obligations.StepResumesOperation := by
  intro s i hwf hdue hbusy hi
  have hrun : runBusy s.lowerHres = exec i s.lowerHres := by simp [runBusy, hi]
  rw [step_of_busy hwf hdue hbusy]
  exact hrun

/-- Settles O14, by what the idle engine finds: a tick, a word, or neither. -/
theorem acceptanceOrder : Obligations.AcceptanceOrder := by
  intro s hwf hdue hidle
  refine ⟨?tick, fun hsettle htick hword => ⟨?legal, ?illegal⟩, ?wait⟩
  case tick =>
    intro hsettle htick
    rw [step_of_idle hwf hdue hidle, runIdle_of_tick (s := s.lowerHres) hsettle htick]
    rfl
  case legal => exact fun i hi => stepRunsDecodedHostWord s i hwf hdue hidle hsettle htick hword hi
  case illegal =>
    intro hnone
    rw [step_of_idle hwf hdue hidle, runIdle_of_word (s := s.lowerHres) hsettle htick hword,
      runHostWord_of_illegal (s := s.lowerHres) hnone, State.complete_of_host rfl]
    simp [State.elapse, State.respond, State.acceptHost, State.lowerHres, hidle]
  case wait =>
    intro h
    rw [step_of_idle hwf hdue hidle, runIdle_of_wait (s := s.lowerHres) h]
    rfl

/-- An operation in progress keeps its word and its requester until it completes. -/
theorem exec_keeps_requester {i : Instr} {s t : State} (hwf : s.cfg.wf = true) (h : exec i s = .next t) :
    t.curW = s.curW ∧ (t.eng = s.eng ∨ t.eng = .idle) := by
  refine exec_all (P := fun u => u.curW = s.curW ∧ u.eng = s.eng)
    (Q := fun u => u.curW = s.curW ∧ (u.eng = s.eng ∨ u.eng = .idle)) hwf ?engine
    (fun _ hu => ⟨hu.1, .inl hu.2⟩) (fun _ hu => hu) (fun _ hu => hu) (fun _ hu => ⟨hu.1, .inl hu.2⟩) ⟨rfl, rfl⟩ h
  rintro u huwf ⟨hword, heng⟩
  refine EngineStep.all_mono (opStep_frame i u huwf) ?_ ?_
  · rintro v ⟨-, hveng, hvword, -⟩
    exact ⟨hvword.trans hword, hveng.trans heng⟩
  · rintro v ⟨-, hveng, hvword, -⟩
    exact ⟨hvword.trans hword, .inr hveng⟩

/-- Settles O15: a busy engine's step is an event, which leaves the engine alone, or its operation going on. -/
theorem busyEngineAcceptsNothing : Obligations.BusyEngineAcceptsNothing := by
  intro s t hbusy h hrst
  obtain ⟨hwf, h⟩ := step_cases h
  rcases h with ⟨e, es, hsched, he⟩ | ⟨-, hidle, -⟩ | ⟨-, hidle, -⟩ | ⟨-, hidle, -⟩ | ⟨-, hidle, -⟩ |
    ⟨-, -, i, -, hexec⟩
  · have hne : e ≠ .rst := by
      rintro rfl
      exact hrst es hsched
    have hregs := applyEvent_busRegs hne he
    simp only [State.busRegs, State.engineRegs, Prod.mk.injEq] at hregs
    obtain ⟨⟨-, heng, hword, -⟩, -⟩ := hregs
    exact ⟨hword, .inl heng⟩
  · exact absurd hidle hbusy
  · exact absurd hidle hbusy
  · exact absurd hidle hbusy
  · exact absurd hidle hbusy
  · exact exec_keeps_requester (s := s.lowerHres) hwf hexec

/-! ## How long an operation goes on (40 R100, R103, R104) -/

section Termination

variable {s t : State}

/-- With the boundary released: the engine steps an operation can take before it completes, makes a `Select()`
or waits for an event, at most (42 R150 to R163). -/
def State.stepsToSelect (s : State) : Nat :=
  match s.fsm with
  | .idle => 2
  | .selectChannel => 1
  | .start => 7
  | .awaitReady => if s.poll = none then 5 else 6
  | .read => 1
  | .cycleComplete =>
    match s.phase with
    | .calibrate => 4
    | .encode => 3
    | .notify => 2
    | .sending => 1

/-- The engine stands after an exchange of the command cycle under way. -/
abbrev State.exchanged (s : State) : Prop := s.xferFailed = true ∨ s.byteIdx ≠ 0

/-- The engine steps an operation can take before it completes, needs an answer of the transport or waits for
an event, at most: none right after the `Select()`, for an exchange comes next; after an exchange, which may
have been the last, one more than any released position has. -/
def State.stepsToAnswer (s : State) : Nat :=
  if s.cs then if s.exchanged then 8 else 0 else s.stepsToSelect

/-- What bounds the engine steps to come: an answer of the transport buys one exchange and what follows it. -/
def State.stepsLeft (s : State) : Nat := 16 * s.busAnswers.length + s.stepsToAnswer

theorem State.stepsToSelect_bounds (s : State) : 1 ≤ s.stepsToSelect ∧ s.stepsToSelect ≤ 7 := by
  unfold State.stepsToSelect
  cases s.fsm with
  | awaitReady => dsimp only; split <;> simp
  | cycleComplete => cases s.phase <;> simp
  | _ => simp

theorem State.stepsToAnswer_of_released (hcs : s.cs = false) : s.stepsToAnswer = s.stepsToSelect := by
  simp [State.stepsToAnswer, hcs]

theorem State.stepsToAnswer_of_exchanged (hcs : s.cs = true) (h : s.exchanged) : s.stepsToAnswer = 8 := by
  rw [State.stepsToAnswer, if_pos hcs, if_pos h]

@[simp] theorem State.stepsToAnswer_select (s : State) : s.select.stepsToAnswer = 0 := by
  simp [State.stepsToAnswer]

theorem State.stepsToAnswer_le (s : State) : s.stepsToAnswer ≤ 8 := by
  have hle := s.stepsToSelect_bounds.2
  unfold State.stepsToAnswer
  split
  · split <;> omega
  · omega

/-- A visit begun anew, or CYCLE_COMPLETE entered, has fewer steps left than AWAIT_READY (42 R162). -/
theorem State.stepsToSelect_advance (s : State) : s.advance.stepsToSelect ≤ 4 := by
  unfold State.advance
  split <;> simp [State.stepsToSelect]

theorem State.stepsToSelect_awaitReady (hfsm : s.fsm = .awaitReady) : 5 ≤ s.stepsToSelect := by
  simp only [State.stepsToSelect, hfsm]
  split <;> simp

/-- A step with the boundary released uses no answer and comes nearer to the next `Select()`. -/
theorem State.stepsLeft_lt_of_released (hcs : s.cs = false) (ht : (t.cs, t.busAnswers) = (s.cs, s.busAnswers))
    (h : t.stepsToSelect < s.stepsToSelect) : t.stepsLeft < s.stepsLeft := by
  simp only [Prod.mk.injEq] at ht
  obtain ⟨htcs, hanswers⟩ := ht
  simp only [State.stepsLeft, hanswers, State.stepsToAnswer_of_released hcs,
    State.stepsToAnswer_of_released (htcs.trans hcs)]
  omega

/-- The `Deselect()` comes after an exchange, whatever the caller does in its step. -/
theorem State.stepsLeft_lt_of_deselect (hcs : s.cs = true) (h : s.exchanged)
    (ht : (t.cs, t.busAnswers) = (false, s.busAnswers)) : t.stepsLeft < s.stepsLeft := by
  simp only [Prod.mk.injEq] at ht
  obtain ⟨htcs, hanswers⟩ := ht
  have hle := t.stepsToSelect_bounds.2
  simp only [State.stepsLeft, hanswers, State.stepsToAnswer_of_exchanged hcs h,
    State.stepsToAnswer_of_released htcs]
  omega

/-- The end of a visit that waits for readiness (42 R159). -/
theorem State.stepsLeft_abortVisit_lt (hfsm : s.fsm = .awaitReady) (hcs : s.cs = false) (st : Status) :
    (s.abortVisit st).stepsLeft < s.stepsLeft := by
  refine State.stepsLeft_lt_of_released hcs (by simp) ?_
  exact (State.stepsToSelect_advance _).trans_lt (State.stepsToSelect_awaitReady hfsm)

/-- Every step of a command cycle leaves fewer: the `Select()` stands before an exchange, an exchange uses an
answer, and the `Deselect()` comes after one. -/
theorem frameStep_stepsLeft {frame : Frame} {finish : Status → List Byte → State → EngineStep} {Q : State → Prop}
    (hne : frame ≠ [])
    (hfail : s.cs = true → s.xferFailed = true → s.exchanged →
      (finish .transportFailure [] s.deselect).All (fun t => t.stepsLeft < s.stepsLeft) Q)
    (hok : s.cs = true → s.xferFailed = false → s.exchanged →
      (finish .ok s.kept s.deselect).All (fun t => t.stepsLeft < s.stepsLeft) Q) :
    (frameStep frame finish s).All (fun t => t.stepsLeft < s.stepsLeft) Q := by
  refine frameStep_all ?select ?exchange (fun hcs hx => hfail hcs hx (.inl hx)) ?finished
  case select =>
    intro hcs
    have hpos := s.stepsToSelect_bounds.1
    simp only [State.stepsLeft, State.select_frame, State.stepsToAnswer_select,
      State.stepsToAnswer_of_released hcs]
    omega
  case exchange =>
    intro tx keep ans rest _ _ _ hanswers
    have hle := (s.xfer tx keep ans).stepsToAnswer_le
    simp only [State.stepsLeft, State.xfer_busAnswers, hanswers, List.tail_cons, List.length_cons]
    omega
  case finished =>
    intro hcs hx hframe
    refine hok hcs hx (.inr fun hzero => ?_)
    have hpos := byteIdx_pos_of_frame_over hne hframe
    simp [hzero] at hpos

/-- CYCLE_COMPLETE goes through its phases once (42 R163). -/
theorem completeStep_stepsLeft (hfsm : s.fsm = .cycleComplete) (hcs : s.cs = false) :
    (completeStep s).All (fun t => t.stepsLeft < s.stepsLeft) (fun _ => True) := by
  unfold completeStep
  split
  · next hphase =>
    exact State.stepsLeft_lt_of_released hcs (by simp) (by simp [State.stepsToSelect, hfsm, hphase])
  · next hphase =>
    exact State.stepsLeft_lt_of_released hcs (by simp) (by simp [State.stepsToSelect, hfsm, hphase])
  · next hphase =>
    unfold notifyStep
    split
    · split
      · exact State.stepsLeft_lt_of_released hcs rfl (by simp [State.stepsToSelect, hfsm, hphase])
      · trivial
    · trivial
  · unfold sinkAnswerStep
    split <;> trivial

/-- Every engine step of a CYCLE leaves fewer. -/
theorem cycleStep_stepsLeft (hs : s.SequenceInv) (hrun : Running .cycle s) :
    (cycleStep s).All (fun t => t.stepsLeft < s.stepsLeft) (fun _ => True) := by
  have hin := State.inCommandCycle_of_cycle (decodeWord_eq_cycle.1 hrun.2)
  have hreleased : s.inCommandCycle ≠ true → s.cs = false := fun h =>
    hs.cs_of_not_inCommandCycle (by simpa using h)
  by_cases hcomplete : s.fsm = .cycleComplete
  · have hstep := completeStep_stepsLeft hcomplete (hreleased (by simp [hin, hcomplete]))
    unfold cycleStep
    rwa [hcomplete]
  refine cycleStep_all s.exchanged s hs.cfgOk ?idle ?frame ?bad ?abort ?select ?start ?start' ?timeout
    ?edge ?level ?polled ?test ?read (absurd · hcomplete) (absurd · hcomplete) (absurd · hcomplete)
    (absurd · hcomplete)
  case idle =>
    exact fun hfsm => State.stepsLeft_lt_of_released (hreleased (by simp [hin, hfsm])) rfl
      (by simp [State.stepsToSelect, hfsm])
  case frame => exact fun _ _ _ hne _ hfail hok => frameStep_stepsLeft hne hfail hok
  case bad => exact fun hfsm hch => absurd (hs.channelRange (by simp [hfsm])) (by omega)
  case abort => exact fun _ _ hcs hx => State.stepsLeft_lt_of_deselect hcs hx (by simp)
  case select => exact fun v _ hcs hx => State.stepsLeft_lt_of_deselect hcs hx rfl
  case start => exact fun _ _ hcs hx => State.stepsLeft_lt_of_deselect hcs hx rfl
  case start' =>
    exact fun hfsm hmode => State.stepsLeft_lt_of_released (hreleased (by simp [hin, hfsm, hmode])) rfl
      (by simp [State.stepsToSelect, hfsm, hs.poll_of_fsm])
  case timeout =>
    exact fun hfsm hm => State.stepsLeft_abortVisit_lt hfsm (hreleased (by simp [hin, hfsm, hm])) _
  case edge =>
    exact fun hfsm hm => State.stepsLeft_lt_of_released (hreleased (by simp [hin, hfsm, hm])) rfl
      (lt_of_lt_of_le (by simp [State.stepsToSelect]) (State.stepsToSelect_awaitReady hfsm))
  case level =>
    exact fun hfsm hm => State.stepsLeft_lt_of_released (hreleased (by simp [hin, hfsm, hm])) rfl
      (lt_of_lt_of_le (by simp [State.stepsToSelect]) (State.stepsToSelect_awaitReady hfsm))
  case polled => exact fun b _ _ _ hcs hx => State.stepsLeft_lt_of_deselect hcs hx rfl
  case test =>
    intro b hfsm hm hpoll
    have hcs := hreleased (by simp [hin, hfsm, hpoll])
    have htested : ({ s with poll := none } : State).stepsLeft < s.stepsLeft :=
      State.stepsLeft_lt_of_released hcs rfl (by simp [State.stepsToSelect, hfsm, hpoll])
    refine ⟨?_, ?_, htested⟩
    · exact State.stepsLeft_lt_of_released hcs rfl (by simp [State.stepsToSelect, hfsm, hpoll])
    · exact (State.stepsLeft_abortVisit_lt (s := { s with poll := none }) hfsm hcs _).trans htested
  case read => exact fun raw _ hcs hx _ => State.stepsLeft_lt_of_deselect hcs hx (by simp)

/-- Every engine step of an operation in progress leaves fewer. -/
theorem opStep_stepsLeft {i : Instr} (hs : s.SequenceInv) (hrun : Running i s) :
    (opStep s.cfg i s).All (fun t => t.stepsLeft < s.stepsLeft) (fun _ => True) := by
  refine opStep_all s.exchanged s.cfg i s rfl hs.cfgOk ?frame ?complete ?invalid ?tare ?cycle
  case frame => exact fun _ _ _ hne _ hfail hok _ _ => frameStep_stepsLeft hne hfail hok
  case complete => exact fun _ _ _ _ _ _ _ _ _ => trivial
  case invalid => exact fun _ => trivial
  case tare => exact fun _ => trivial
  case cycle =>
    rintro rfl
    exact cycleStep_stepsLeft hs hrun

/-- The loop's fuel is more than the steps left (log 19). -/
theorem State.stepsLeft_lt_fuel (s : State) : s.stepsLeft < s.fuel := by
  have hle := s.stepsToAnswer_le
  unfold State.stepsLeft State.fuel
  omega

theorem State.hasten_of_no_events (h : s.sched = []) : s.hasten = s := by
  unfold State.hasten
  rw [h, schedDue, ← h]

/-- With fuel for the steps left, the loop stops for one of three reasons: the operation has completed, an
event is due, or the engine waits and no event is to come. -/
theorem drive_stops {f : State → EngineStep} {P : State → Prop} {rank : State → Nat}
    (hf : ∀ u, P u → (f u).All (fun v => P v ∧ rank v < rank u) (fun v => v.eng = .idle))
    (helapse : ∀ u, P u → P u.elapse ∧ rank u.elapse = rank u) (n : Nat) (hs : P s) (hn : rank s < n) :
    (drive f n s).eng = .idle ∨ (drive f n s).eventDue = true ∨
      f (drive f n s) = .wait ∧ (drive f n s).sched = [] := by
  induction n generalizing s with
  | zero => omega
  | succ n ih =>
    cases hdue : s.eventDue with
    | true => exact .inr (.inl (by rw [drive_due f _ s hdue, hdue]))
    | false =>
      have hnext := hf s hs
      cases hfs : f s with
      | go u =>
        rw [hfs] at hnext
        obtain ⟨hu, hlt⟩ := hnext
        obtain ⟨hue, hrank⟩ := helapse u hu
        rw [drive_go hdue hfs]
        exact ih hue (by omega)
      | done u =>
        rw [hfs] at hnext
        exact .inl (by rw [drive_done hdue hfs]; exact hnext)
      | wait =>
        rw [drive_wait hdue hfs]
        cases hsched : s.sched with
        | nil => exact .inr (.inr (by rw [State.hasten_of_no_events hsched]; exact ⟨hfs, hsched⟩))
        | cons e es => exact .inr (.inl (by simp [State.eventDue, schedDue, hsched]))

/-- An operation that waits with no event to come is answered again unchanged (60 R235, log 8). -/
theorem exec_of_wait {i : Instr} (hf : opStep s.cfg i s = .wait) (hsched : s.sched = []) :
    exec i s = .next s := by
  obtain ⟨n, hfuel⟩ := s.fuel_eq
  rw [exec_eq, runOperation_eq, hfuel, drive_wait (by simp [State.eventDue, hsched]) hf,
    State.hasten_of_no_events hsched]

end Termination

/-- Settles O59: every engine step leaves fewer (`opStep_stepsLeft`), and the fuel is for more than are left. -/
theorem operationRunsUntilItMustWait : Obligations.OperationRunsUntilItMustWait := by
  intro s t i hs hbusy hi h
  have hcfg : t.cfg = s.cfg := congrArg Prod.fst (exec_keeps busBlind_eventRegs (opStep_keeps_eventRegs s.cfg i) h)
  rw [exec_eq, runOperation_eq] at h
  have hstops := drive_stops (f := opStep s.cfg i) (rank := State.stepsLeft)
    (P := fun u => (u.SequenceInv ∧ Running i u) ∧ u.cfg = s.cfg) ?engine ?elapse s.fuel
    ⟨⟨hs, hbusy, hi⟩, rfl⟩ s.stepsLeft_lt_fuel
  case engine =>
    rintro u ⟨⟨hu, hrun⟩, hucfg⟩
    have hframe := opStep_frame i u hu.cfgOk
    have hkeeps := EngineStep.all_and (opStep_sequenceInv hu hrun)
      (EngineStep.all_and hframe (opStep_stepsLeft hu hrun))
    rw [hucfg] at hkeeps
    refine EngineStep.all_mono hkeeps ?_ ?_
    · rintro v ⟨hv, ⟨hvcfg, hveng, hvword, -⟩, hlt⟩
      exact ⟨⟨⟨hv, hveng ▸ hrun.1, hvword ▸ hrun.2⟩, hvcfg⟩, hlt⟩
    · rintro v ⟨-, ⟨-, hidle, -⟩, -⟩
      exact hidle
  case elapse => exact fun u ⟨⟨hu, hrun⟩, hucfg⟩ => ⟨⟨⟨hu.congr rfl, hrun⟩, hucfg⟩, rfl⟩
  rw [h] at hstops
  refine hstops.imp_right (Or.imp_right fun ⟨hwait, hsched⟩ => exec_of_wait ?_ hsched)
  rw [hcfg]
  exact hwait

/-! ## The sample decode (40 R116) -/

/-- Three bytes, most significant first, are the number their weights make up. -/
theorem toNat_bytes_append (b2 b1 b0 : Byte) :
    (b2 ++ b1 ++ b0).toNat = b2.toNat * 65536 + b1.toNat * 256 + b0.toNat := by
  have h1 := b1.isLt
  have h0 := b0.isLt
  rw [BitVec.toNat_append, BitVec.toNat_append, ← Nat.shiftLeft_add_eq_or_of_lt h0,
    ← Nat.shiftLeft_add_eq_or_of_lt h1, Nat.shiftLeft_eq, Nat.shiftLeft_eq]
  omega

theorem decode24_toInt (b2 b1 b0 : Byte) :
    let u : Int := b2.toNat * 65536 + b1.toNat * 256 + b0.toNat
    (decode24 b2 b1 b0).toInt = if u ≥ 2 ^ 23 then u - 2 ^ 24 else u := by
  intro u
  have hu : ((b2 ++ b1 ++ b0).toNat : Int) = u := by rw [toNat_bytes_append]; push_cast; rfl
  rw [decode24, BitVec.toInt_signExtend_of_le (by norm_num), BitVec.toInt_eq_toNat_cond, hu]
  split <;> split <;> omega

/-- Settles O7: the value says which 24 bits it came from, and those are the bytes' weights. -/
theorem sampleDecodeSignExtends : Obligations.SampleDecodeSignExtends := by
  refine ⟨decode24_toInt, fun b2 b1 b0 c2 c1 c0 h => ?_⟩
  have hvalue := congrArg BitVec.toInt h
  simp only [decode24_toInt] at hvalue
  have hbytes : b2.toNat = c2.toNat ∧ b1.toNat = c1.toNat ∧ b0.toNat = c0.toNat := by
    have := b2.isLt; have := b1.isLt; have := b0.isLt
    have := c2.isLt; have := c1.isLt; have := c0.isLt
    split at hvalue <;> split at hvalue <;> omega
  simpa only [BitVec.toNat_inj] using hbytes

/-! ## A host operation as one command cycle (40 R105, R109) -/

section HostCycle

variable {s : State} {i : Instr}

/-- What a host operation begun at `s` does with a command cycle that succeeded, in the step of its
`Deselect()`, before it answers (40 R110 to R115, 41 R131 to R134). -/
def hostEffect (s : State) (i : Instr) (t : State) : State :=
  match i with
  | .reset => t.resetDevice
  | .wreg a v => t.setShadow a v
  | .setmux p n => t.setShadow s.cfg.fMux.addr (muxValue s.cfg.fMux p n)
  | .setgain c => t.setShadow s.cfg.fGain.addr (s.fieldValue s.cfg.fGain c)
  | .setrate c => t.setShadow s.cfg.fRate.addr (s.fieldValue s.cfg.fRate c)
  | .setref c => t.setShadow s.cfg.fRef.addr (s.fieldValue s.cfg.fRef c)
  | .start | .stop | .rdata | .rreg _ | .cycle | .tare => t

/-- The data a host operation answers on success, from the bytes its command cycle kept (40 R113, R114). -/
def hostData : Instr → List Byte → BitVec 32
  | .rdata, kept => decodeKept kept
  | .rreg _, kept => (kept.headD 0).setWidth 32
  | _, _ => 0

/-- The step of the `Deselect()` of a host operation begun at `s`. -/
def hostFinish (s : State) (i : Instr) (st : Status) (kept : List Byte) (t : State) : EngineStep :=
  if st = .ok then .done ((hostEffect s i t).complete .ok (hostData i kept)) else .done (t.complete st 0)

/-- The register a helper writes is legal: what a well-formed configuration promises (10 R32). -/
def HelperLegal (c : Cfg) : Instr → Prop
  | .setmux _ _ => c.regLegal c.fMux.addr = true
  | .setgain _ => c.regLegal c.fGain.addr = true
  | .setrate _ => c.regLegal c.fRate.addr = true
  | .setref _ => c.regLegal c.fRef.addr = true
  | _ => True

theorem helperLegal_of_wf {c : Cfg} (hwf : c.wf = true) (i : Instr) : HelperLegal c i := by
  obtain ⟨hmux, hgain, hrate, href, -⟩ := cfg_wf_facts hwf
  cases i with
  | setmux p n => exact hmux
  | setgain code => exact hgain
  | setrate code => exact hrate
  | setref code => exact href
  | _ => trivial

/-- A command cycle does with its end what the caller says of success and of failure. -/
theorem frameStep_congr {frame : Frame} {f g : Status → List Byte → State → EngineStep}
    (hok : ∀ kept t, f .ok kept t = g .ok kept t)
    (hfail : ∀ t, f .transportFailure [] t = g .transportFailure [] t) (s : State) :
    frameStep frame f s = frameStep frame g s := by
  simp only [frameStep, hok, hfail]

theorem doRreg_of_legal {a : RegAddr} (h : s.cfg.regLegal a = true) (k : Status → Byte → State → EngineStep) :
    doRreg a k s =
      frameStep (rregFrame s.cfg a) (fun st kept t => k st (if st = .ok then kept.headD 0 else 0) t) s :=
  if_pos h

theorem doWreg_of_legal {a : RegAddr} (h : s.cfg.regLegal a = true) (v : Byte) (k : Status → State → EngineStep) :
    doWreg a v k s =
      frameStep (wregFrame s.cfg a v) (fun st _ t => k st (if st = .ok then t.setShadow a v else t)) s :=
  if_pos h

/-- A field helper with a legal code is a `DoWREG` (41 R130). -/
theorem doSetField_of_legal {f : RegField} {legal : List Byte} {code : Byte} (hcode : legal.contains code = true)
    (hf : s.cfg.regLegal f.addr = true) (k : Status → State → EngineStep) :
    doSetField f legal code k s =
      frameStep (wregFrame s.cfg f.addr (s.fieldValue f code))
        (fun st _ t => k st (if st = .ok then t.setShadow f.addr (s.fieldValue f code) else t)) s :=
  (if_pos hcode).trans (doWreg_of_legal hf _ k)

theorem doSetmux_of_legal {p n : InputCode} (hcodes : Instr.wf s.cfg (.setmux p n) = true)
    (hf : s.cfg.regLegal s.cfg.fMux.addr = true) (k : Status → State → EngineStep) :
    doSetmux p n k s =
      frameStep (wregFrame s.cfg s.cfg.fMux.addr (muxValue s.cfg.fMux p n))
        (fun st _ t =>
          k st (if st = .ok then t.setShadow s.cfg.fMux.addr (muxValue s.cfg.fMux p n) else t)) s :=
  (if_pos hcodes).trans (doWreg_of_legal hf _ k)

/-- The frame of an operation that checks its operands is put on the bus when they are legal. -/
theorem of_ite_some {b : Bool} {fr frame : Frame} (h : (if b then some fr else none) = some frame) :
    b = true ∧ fr = frame := by
  cases b <;> simp_all

/-- An engine step of a host operation is one of a command cycle with its frame. -/
theorem opStep_of_hostFrame {frame : Frame} (hlegal : HelperLegal s.cfg i) (hframe : hostFrame s i = some frame) :
    opStep s.cfg i s = frameStep frame (hostFinish s i) s := by
  cases i with
  | reset | start | stop | rdata =>
    cases hframe
    simp only [opStep, doReset, doStart, doStop, doRdata]
    exact frameStep_congr (fun _ _ => rfl) (fun _ => rfl) s
  | rreg a =>
    obtain ⟨ha, rfl⟩ := of_ite_some hframe
    rw [opStep, doRreg_of_legal ha]
    exact frameStep_congr (fun _ _ => rfl) (fun _ => rfl) s
  | wreg a v =>
    obtain ⟨ha, rfl⟩ := of_ite_some hframe
    rw [opStep, doWreg_of_legal ha]
    exact frameStep_congr (fun _ _ => rfl) (fun _ => rfl) s
  | setmux p n =>
    obtain ⟨hcodes, rfl⟩ := of_ite_some hframe
    rw [opStep, doSetmux_of_legal hcodes hlegal]
    exact frameStep_congr (fun _ _ => rfl) (fun _ => rfl) s
  | setgain code | setrate code | setref code =>
    obtain ⟨hcode, rfl⟩ := of_ite_some hframe
    rw [opStep, doSetField_of_legal hcode hlegal]
    exact frameStep_congr (fun _ _ => rfl) (fun _ => rfl) s
  | cycle => cases hframe
  | tare => cases hframe

/-- The frame of a host operation and what it does at the end depend on the configuration and on `SHADOW`. -/
theorem hostCycle_congr {t : State} (h : t.shadowRegs = s.shadowRegs) (i : Instr) :
    hostFrame t i = hostFrame s i ∧ hostFinish t i = hostFinish s i := by
  have hvalue : ∀ f code, t.fieldValue f code = s.fieldValue f code := fun f code => by
    simp only [State.fieldValue, State.shadowAt_congr h]
  simp only [State.shadowRegs, Prod.mk.injEq] at h
  constructor
  · cases i <;> simp only [hostFrame, h.1, hvalue]
  · funext st kept u
    cases i <;> simp only [hostFinish, hostEffect, h.1, hvalue]

/-- Wherever in its command cycle a host operation stands, its engine steps are those of the cycle. -/
theorem runsFrame_of_hostFrame {frame : Frame} (hlegal : HelperLegal s.cfg i)
    (hframe : hostFrame s i = some frame) : RunsFrame (opStep s.cfg i) frame (hostFinish s i) s := by
  have hrun : ∀ t : State, t.shadowRegs = s.shadowRegs →
      opStep s.cfg i t = frameStep frame (hostFinish s i) t := by
    intro t ht
    obtain ⟨hframe', hfinish⟩ := hostCycle_congr ht i
    have hcfg : t.cfg = s.cfg := congrArg Prod.fst ht
    rw [← hcfg, ← hfinish]
    exact opStep_of_hostFrame (hcfg ▸ hlegal) (hframe'.trans hframe)
  exact fun _ _ _ _ _ _ _ => hrun _ rfl

/-- The registers that a command cycle leaves, as the passing of its last step does. -/
theorem State.midCycle_deselect_elapse (s : State) (frame : Frame) (answers : List Answer) (failed : Bool) :
    (s.midCycle frame answers failed).deselect.elapse = s.afterFrame frame answers := by
  simp [State.midCycle, State.deselect, State.elapse, State.afterFrame]

/-- The completion of a host operation as its response shows (40 R103). -/
theorem State.complete_elapse_of_host {t : State} (h : t.eng = .host) (st : Status) (d : BitVec 32) :
    (t.complete st d).elapse = t.elapse.answered st d := by
  rw [State.complete_of_host h]
  rfl

/-- RESET writes the defaults one register after the other, whenever the step falls. -/
theorem State.resetDevice_elapse (s : State) : s.resetDevice.elapse = s.elapse.resetDevice := by
  have hfold := List.foldl_hom State.elapse (l := s.cfg.regAddrs) (init := s)
    (g₁ := fun t a => t.setShadow a (t.cfg.regDefault a.toNat))
    (g₂ := fun t a => t.setShadow a (t.cfg.regDefault a.toNat)) fun _ _ => rfl
  simp only [State.resetDevice, State.elapse_frame, hfold]
  rfl

theorem hostEffect_elapse (s : State) (i : Instr) (t : State) :
    (hostEffect s i t).elapse = hostEffect s i t.elapse := by
  cases i with
  | reset => exact t.resetDevice_elapse
  | _ => rfl

theorem hostEffect_eng (s : State) (i : Instr) (t : State) : (hostEffect s i t).eng = t.eng := by
  cases i <;> simp [hostEffect]

/-- The fuel is for every answer to come and more. -/
theorem State.fuel_of_answers {k : Nat} (h : k ≤ s.busAnswers.length + 3) : ∃ n, s.fuel = n + k :=
  ⟨s.fuel - k, by unfold State.fuel; omega⟩

/-- A host operation whose exchanges all succeed takes effect and answers OK (40 R103, R105). -/
theorem exec_of_frame_ok {frame : Frame} {answers rest : List Answer} (hbegun : s.begun)
    (hlegal : HelperLegal s.cfg i) (hframe : hostFrame s i = some frame) (hlen : frame.length ≤ 6)
    (hb : s.busAnswers = answers ++ rest) (hle : answers.length = frame.length)
    (hok : ∀ a ∈ answers, a.ok = true) (hcalm : s.calm (answers.length + 2) = true) :
    exec i s = .next ((hostEffect s i (s.afterFrame frame answers)).answered .ok
      (hostData i (keptBytes frame answers))) := by
  obtain ⟨heng, hcs⟩ := hbegun
  obtain ⟨n, hfuel⟩ := s.fuel_of_answers (k := answers.length + 2) (by simp only [hb, List.length_append]; omega)
  rw [exec_eq, runOperation_eq, hfuel,
    drive_frame_ok (runsFrame_of_hostFrame hlegal hframe) hcs hlen n answers rest hb hle hok hcalm]
  have heng' : (hostEffect s i (s.midCycle frame answers false).deselect).eng = .host :=
    (hostEffect_eng s i _).trans heng
  simp only [hostFinish, if_true]
  rw [State.complete_elapse_of_host heng', hostEffect_elapse, State.midCycle_deselect_elapse]

/-- A host operation one of whose exchanges fails makes no further one and answers TransportFailure (40 R107). -/
theorem exec_of_frame_failed {frame : Frame} {answers rest : List Answer} {a : Answer} (hbegun : s.begun)
    (hlegal : HelperLegal s.cfg i) (hframe : hostFrame s i = some frame) (hlen : frame.length ≤ 6)
    (hb : s.busAnswers = answers ++ a :: rest) (hle : answers.length < frame.length)
    (hok : ∀ a ∈ answers, a.ok = true) (ha : a.ok = false) (hcalm : s.calm (answers.length + 3) = true) :
    exec i s = .next ((s.afterFrame frame (answers ++ [a])).answered .transportFailure 0) := by
  obtain ⟨heng, hcs⟩ := hbegun
  obtain ⟨n, hfuel⟩ := s.fuel_of_answers (k := answers.length + 3) (by simp only [hb, List.length_append]; omega)
  rw [exec_eq, runOperation_eq, hfuel,
    drive_frame_failed (runsFrame_of_hostFrame hlegal hframe) hcs hlen n answers rest a hb hle hok ha hcalm]
  have heng' : (s.midCycle frame (answers ++ [a]) true).deselect.eng = .host := heng
  simp only [hostFinish, reduceCtorEq, if_false]
  rw [State.complete_elapse_of_host heng', State.midCycle_deselect_elapse]

theorem rdataFrame_length (c : Cfg) : (rdataFrame c).length = 4 + c.rdataDummy := by
  simp [rdataFrame]
  omega

/-- Every frame has at most six exchanges. -/
theorem hostFrame_length_le {frame : Frame} (hdummy : s.cfg.rdataDummy ≤ 2) (hframe : hostFrame s i = some frame) :
    frame.length ≤ 6 := by
  cases i with
  | reset | start | stop => cases hframe; simp [resetFrame, startFrame, stopFrame]
  | rdata => cases hframe; rw [rdataFrame_length]; omega
  | rreg a => obtain ⟨-, rfl⟩ := of_ite_some hframe; simp [rregFrame]
  | wreg _ _ | setmux _ _ | setgain _ | setrate _ | setref _ =>
    obtain ⟨-, rfl⟩ := of_ite_some hframe
    simp [wregFrame]
  | cycle => cases hframe
  | tare => cases hframe

end HostCycle

/-! ## The wire commands (40 R107 to R115) -/

/-- Settles O29: the command cycle of the operation fails (`exec_of_frame_failed`). -/
theorem failedExchangeEndsOperation : Obligations.FailedExchangeEndsOperation := by
  intro s i frame answers rest rx hbegun hwf hframe hb hlt hok hcalm
  obtain ⟨-, -, -, -, hdummy, -⟩ := cfg_wf_facts hwf
  exact exec_of_frame_failed hbegun (helperLegal_of_wf hwf i) hframe (hostFrame_length_le hdummy hframe) hb hlt hok
    rfl hcalm

/-- An operand check that fails is answered without a command cycle (40 R108). -/
theorem opStep_of_illegal {s : State} {i : Instr} (h : i.wf s.cfg = false) :
    opStep s.cfg i s = .done (s.complete .invalidArgument 0) := by
  have hbranch : ¬ i.wf s.cfg = true := by simp [h]
  cases i with
  | rreg a | wreg a v | setmux p n | setgain code | setrate code | setref code => exact if_neg hbranch
  | reset | start | stop | rdata | cycle | tare => cases h

/-- Settles O30: the engine step that answers is the only one. -/
theorem illegalOperandsAnswered : Obligations.IllegalOperandsAnswered := by
  rintro s i ⟨heng, -⟩ hillegal hcalm
  obtain ⟨n, hfuel⟩ := s.fuel_eq
  rw [exec_eq, runOperation_eq, hfuel,
    drive_done (State.not_eventDue_of_calm hcalm) (opStep_of_illegal hillegal),
    State.complete_elapse_of_host heng, ← schedNearer_schedAfter, schedAfter_zero]
  rfl

/-- A shadow register that a list of them is reset with takes its default. -/
theorem State.shadowAt_defaults (l : List RegAddr) (s : State) (hwf : Memory.wf s.cfg.regDefault s.shadow = true)
    (a : RegAddr) :
    (l.foldl (fun t b => t.setShadow b (t.cfg.regDefault b.toNat)) s).shadowAt a =
      if a ∈ l then s.cfg.regDefault a.toNat else s.shadowAt a := by
  induction l generalizing s with
  | nil => simp
  | cons b l ih =>
    rw [List.foldl_cons, ih (s.setShadow b _) (Memory.wf_write _ _ _ hwf), State.shadowAt_setShadow hwf]
    by_cases hb : b = a
    · simp [hb]
    · simp [hb, Ne.symm hb]

theorem State.shadowAt_resetDevice {s : State} (hwf : Memory.wf s.cfg.regDefault s.shadow = true) {a : RegAddr}
    (ha : s.cfg.regLegal a = true) : s.resetDevice.shadowAt a = s.cfg.regDefault a.toNat := by
  have hmem : a ∈ s.cfg.regAddrs := by simpa [Cfg.regLegal] using ha
  exact (State.shadowAt_defaults s.cfg.regAddrs s hwf a).trans (if_pos hmem)

/-- RESET writes `SHADOW` and `SETTLE_CNT` only (40 R110). -/
theorem State.resetDevice_eq (s : State) :
    s.resetDevice = { s with shadow := s.resetDevice.shadow, settleCnt := s.cfg.resetSettle } := by
  obtain ⟨m, hm⟩ := State.setShadows_shadow_only (fun t a => t.cfg.regDefault a.toNat) s.cfg.regAddrs s
  simp [State.resetDevice, hm]

/-- A command of one exchange, answered as the transport says (40 R105, R110 to R112). -/
theorem exec_of_one_exchange {s : State} {i : Instr} {tx r : Byte} {ok : Bool} {rest : List Answer}
    (hbegun : s.begun) (hlegal : HelperLegal s.cfg i) (hframe : hostFrame s i = some [frameSend tx])
    (hb : s.busAnswers = ⟨ok, r⟩ :: rest) (hcalm : s.calm 3 = true) :
    exec i s = .next (if ok then
        (hostEffect s i (s.afterFrame [frameSend tx] [⟨ok, r⟩])).answered .ok (hostData i [])
      else (s.afterFrame [frameSend tx] [⟨ok, r⟩]).answered .transportFailure 0) := by
  cases ok with
  | true =>
    exact exec_of_frame_ok (answers := [⟨true, r⟩]) hbegun hlegal hframe (by simp) hb rfl (by simp) hcalm
  | false =>
    exact exec_of_frame_failed (answers := []) hbegun hlegal hframe (by simp) hb (by simp) (by simp) rfl hcalm

/-- Settles O22: one exchange, and on success `State.resetDevice`. -/
theorem resetCommandEffect : Obligations.ResetCommandEffect := by
  intro s r rest hbegun hcalm
  have hcs := hbegun.2
  have hexec := fun ok hb =>
    exec_of_one_exchange (i := .reset) (ok := ok) (r := r) (rest := rest) hbegun trivial rfl hb hcalm
  refine ⟨fun hwf hb => ?success, fun hb => ?failure⟩
  case success =>
    refine ⟨_, hexec true hb, fun a ha => ?_, rfl, ?_⟩
    · exact State.shadowAt_resetDevice (s := s.afterFrame (resetFrame s.cfg) [⟨true, r⟩]) hwf ha
    · simp only [if_true, hostEffect]
      rw [State.resetDevice_eq]
      simp [State.afterFrame, State.answered, exchanges, frameSend, hostData, hb, hcs]
  case failure =>
    rw [hexec false hb]
    simp [State.afterFrame, State.answered, exchanges, frameSend, hb, hcs]

/-- Settles O23: one exchange and no effect. -/
theorem startAndStopEffect : Obligations.StartAndStopEffect := by
  intro s ok r rest hbegun hcalm hb
  have hcs := hbegun.2
  constructor
  · rw [exec_of_one_exchange (i := .start) hbegun trivial rfl hb hcalm]
    cases ok <;> simp [State.afterFrame, State.answered, exchanges, frameSend, hostEffect, hostData, hb, hcs]
  · rw [exec_of_one_exchange (i := .stop) hbegun trivial rfl hb hcalm]
    cases ok <;> simp [State.afterFrame, State.answered, exchanges, frameSend, hostEffect, hostData, hb, hcs]

/-- Settles O25: the last of the three bytes is the one kept. -/
theorem readRegisterEffect : Obligations.ReadRegisterEffect := by
  intro s a r0 r1 b rest hbegun ha hcalm hb
  have hcs := hbegun.2
  have hframe : hostFrame s (.rreg a) = some (rregFrame s.cfg a) := if_pos ha
  rw [exec_of_frame_ok (i := .rreg a) (answers := [⟨true, r0⟩, ⟨true, r1⟩, ⟨true, b⟩]) hbegun trivial hframe
    (by simp [rregFrame]) hb rfl (by simp) hcalm]
  simp [State.afterFrame, State.answered, exchanges, keptBytes, rregFrame, rregByte, frameSend, frameDummy,
    frameRecv, hostEffect, hostData, hb, hcs]

/-- Settles O26: two exchanges, and then one write to `SHADOW`. -/
theorem writeRegisterEffect : Obligations.WriteRegisterEffect := by
  intro s a v r0 r1 rest hbegun ha hwf hcalm hb
  have hcs := hbegun.2
  have hframe : hostFrame s (.wreg a v) = some (wregFrame s.cfg a v) := if_pos ha
  have hexec := exec_of_frame_ok (i := .wreg a v) (answers := [⟨true, r0⟩, ⟨true, r1⟩]) hbegun trivial hframe
    (by simp [wregFrame]) hb rfl (by simp) hcalm
  refine ⟨_, hexec, fun b => ?_, ?_⟩
  · simp only [eq_comm (a := b)]
    exact State.shadowAt_setShadow (s := s.afterFrame (wregFrame s.cfg a v) _) hwf a b v
  · simp [State.afterFrame, State.answered, State.setShadow, exchanges, wregFrame, wregByte, frameSend, hostEffect,
      hostData, hb, hcs]

/-- Exchanges that send the fill byte and keep nothing come before the rest of their frame (30 R86). -/
theorem exchanges_dummies (c : Cfg) (frame : Frame) (ds : List Byte) (answers : List Answer) :
    exchanges (List.replicate ds.length (frameDummy c) ++ frame) (ds.map (Answer.mk true) ++ answers) =
      ds.map (fun r => .x c.txFill r true) ++ exchanges frame answers := by
  induction ds with
  | nil => rfl
  | cons r ds ih => exact congrArg (_ :: ·) ih

theorem keptBytes_dummies (c : Cfg) (frame : Frame) (ds : List Byte) (answers : List Answer) :
    keptBytes (List.replicate ds.length (frameDummy c) ++ frame) (ds.map (Answer.mk true) ++ answers) =
      keptBytes frame answers := by
  induction ds with
  | nil => rfl
  | cons r ds ih => exact ih

/-- The answers to an RDATA without a failure: to the opcode, to the fill bytes, and the data (40 R113). -/
def rdataAnswers (r0 : Byte) (ds : List Byte) (b2 b1 b0 : Byte) : List Answer :=
  ⟨true, r0⟩ :: (ds.map (Answer.mk true) ++ [⟨true, b2⟩, ⟨true, b1⟩, ⟨true, b0⟩])

theorem rdataAnswers_length (r0 : Byte) (ds : List Byte) (b2 b1 b0 : Byte) :
    (rdataAnswers r0 ds b2 b1 b0).length = 4 + ds.length := by
  simp [rdataAnswers]
  omega

theorem rdataAnswers_ok (r0 : Byte) (ds : List Byte) (b2 b1 b0 : Byte) :
    ∀ a ∈ rdataAnswers r0 ds b2 b1 b0, a.ok = true := by
  intro a ha
  simp only [rdataAnswers, List.mem_cons, List.mem_append, List.mem_map, List.not_mem_nil, or_false] at ha
  rcases ha with rfl | ⟨r, -, rfl⟩ | rfl | rfl | rfl <;> rfl

/-- The frame of RDATA shows the opcode, the fill bytes and three data bytes (30 R86). -/
theorem exchanges_rdata (c : Cfg) (r0 : Byte) {ds : List Byte} (hds : ds.length = c.rdataDummy) (b2 b1 b0 : Byte) :
    exchanges (rdataFrame c) (rdataAnswers r0 ds b2 b1 b0) =
      .x c.opRdata r0 true :: (ds.map (fun r => .x c.txFill r true) ++
        [.x c.txFill b2 true, .x c.txFill b1 true, .x c.txFill b0 true]) := by
  rw [rdataFrame, ← hds]
  exact congrArg (_ :: ·) (exchanges_dummies c _ ds _)

/-- The frame of RDATA keeps the data bytes only (30 R86). -/
theorem keptBytes_rdata (c : Cfg) (r0 : Byte) {ds : List Byte} (hds : ds.length = c.rdataDummy) (b2 b1 b0 : Byte) :
    keptBytes (rdataFrame c) (rdataAnswers r0 ds b2 b1 b0) = [b2, b1, b0] := by
  rw [rdataFrame, ← hds]
  exact keptBytes_dummies c _ ds _

/-- Settles O24: the frame keeps the last three bytes (`keptBytes_rdata`). -/
theorem readDataEffect : Obligations.ReadDataEffect := by
  intro s r0 ds b2 b1 b0 rest hbegun hdummy hds hcalm hb
  have hcs := hbegun.2
  have hlen : (rdataAnswers r0 ds b2 b1 b0).length = 4 + s.cfg.rdataDummy := by rw [rdataAnswers_length, hds]
  have hsteps : 4 + s.cfg.rdataDummy + 2 = 6 + s.cfg.rdataDummy := by omega
  have hanswers : s.busAnswers = rdataAnswers r0 ds b2 b1 b0 ++ rest := by simpa [rdataAnswers] using hb
  have hrest : s.busAnswers.drop (4 + s.cfg.rdataDummy) = rest := by
    rw [hanswers, ← hlen]
    exact List.drop_left
  rw [exec_of_frame_ok (i := .rdata) hbegun trivial rfl (by rw [rdataFrame_length]; omega) hanswers
    (hlen.trans (rdataFrame_length s.cfg).symm) (rdataAnswers_ok r0 ds b2 b1 b0)
    (by rw [hlen, hsteps]; exact hcalm), keptBytes_rdata s.cfg r0 hds]
  simp only [State.afterFrame, exchanges_rdata s.cfg r0 hds, hlen, hsteps]
  simp [State.answered, hostEffect, hostData, decodeKept, hrest, hcs]

end Sys2Proof.Machine

/-! PROOFS. The statements of 41_config_helpers.md: each helper is one WREG of its register value (R130), packed
from the codes for SETMUX (R131, 30 R88) and inserted into the shadow byte for the field helpers (R132 to R134,
30 R89). -/

namespace Sys2Proof.Machine

/-! ## A helper as one register write (41 R130) -/

section RegisterWrite

variable {s : State} {i : Instr} {a : RegAddr} {v : Byte}

/-- The host operation `i` begun at `s` is one WREG of `v` to register `a`: what it puts on the bus, what it does
to the state when that succeeds, and that it answers no data (41 R130, 40 R115). -/
structure WritesRegister (s : State) (i : Instr) (a : RegAddr) (v : Byte) : Prop where
  frame : hostFrame s i = some (wregFrame s.cfg a v)
  effect : ∀ t, hostEffect s i t = t.setShadow a v
  noData : ∀ kept, hostData i kept = 0

theorem writesRegister_setmux {p n : InputCode} (hcodes : Instr.wf s.cfg (.setmux p n) = true) :
    WritesRegister s (.setmux p n) s.cfg.fMux.addr (muxValue s.cfg.fMux p n) where
  frame := if_pos hcodes
  effect _ := rfl
  noData _ := rfl

/-- The three field helpers differ in their field only. -/
theorem writesRegister_fieldHelper {f : RegField} {code : Byte}
    (hi : i = .setgain code ∧ f = s.cfg.fGain ∨ i = .setrate code ∧ f = s.cfg.fRate ∨
      i = .setref code ∧ f = s.cfg.fRef) (hcode : i.wf s.cfg = true) :
    WritesRegister s i f.addr (s.fieldValue f code) := by
  rcases hi with ⟨rfl, rfl⟩ | ⟨rfl, rfl⟩ | ⟨rfl, rfl⟩
  all_goals exact { frame := if_pos hcode, effect := fun _ => rfl, noData := fun _ => rfl }

/-- A register write with good answers: two exchanges, one write to `SHADOW`, and the answer (OK, 0) (40 R115). -/
theorem exec_of_writesRegister {r0 r1 : Byte} {rest : List Answer} (hwrites : WritesRegister s i a v)
    (hbegun : s.begun) (hlegal : HelperLegal s.cfg i) (hcalm : s.calm 4 = true)
    (hb : s.busAnswers = ⟨true, r0⟩ :: ⟨true, r1⟩ :: rest) :
    exec i s = .next
      (((s.afterFrame (wregFrame s.cfg a v) [⟨true, r0⟩, ⟨true, r1⟩]).setShadow a v).answered .ok 0) := by
  rw [exec_of_frame_ok (answers := [⟨true, r0⟩, ⟨true, r1⟩]) hbegun hlegal hwrites.frame
    (by simp [wregFrame]) hb rfl (by simp) hcalm, hwrites.effect, hwrites.noData]

/-- The effect of a register write with good answers: `SHADOW[a]` takes `v`, and nothing changes but it, the
result registers and the bus. -/
theorem writesRegister_effect {r0 r1 : Byte} {rest : List Answer} (hwrites : WritesRegister s i a v)
    (hbegun : s.begun) (hwf : s.cfg.wf = true) (hmem : Memory.wf s.cfg.regDefault s.shadow = true)
    (hcalm : s.calm 4 = true) (hb : s.busAnswers = ⟨true, r0⟩ :: ⟨true, r1⟩ :: rest) :
    ∃ t, exec i s = .next t ∧
      (∀ b, t.shadowAt b = if b = a then v else s.shadowAt b) ∧
      t = { s.answered .ok 0 with
        byteIdx := 2, kept := [], xferFailed := false, busAnswers := rest,
        busTrace := s.busTrace ++ [.sel, .x (wregByte s.cfg a) r0 true, .x v r1 true, .desel],
        sched := schedAfter 4 s.sched, shadow := t.shadow } := by
  have hcs := hbegun.2
  refine ⟨_, exec_of_writesRegister hwrites hbegun (helperLegal_of_wf hwf i) hcalm hb, fun b => ?_, ?_⟩
  · simp only [eq_comm (a := b)]
    exact State.shadowAt_setShadow (s := s.afterFrame (wregFrame s.cfg a v) _) hmem a b v
  · simp [State.afterFrame, State.answered, State.setShadow, exchanges, wregFrame, frameSend, hb, hcs]

end RegisterWrite

/-! ## The configuration helpers (41 R131 to R134) -/

/-- Settles O27: SETMUX is one register write of `muxValue` (`writesRegister_setmux`). -/
theorem setMuxEffect : Obligations.SetMuxEffect := by
  intro s p n r0 r1 rest hbegun hwf hcodes hmem hcalm hb
  exact writesRegister_effect (writesRegister_setmux hcodes) hbegun hwf hmem hcalm hb

/-- Settles O28: each field helper is one register write of `State.fieldValue` (`writesRegister_fieldHelper`). -/
theorem fieldHelperEffect : Obligations.FieldHelperEffect := by
  intro s i f code r0 r1 rest hbegun hwf hi hcode hmem hcalm hb
  exact writesRegister_effect (writesRegister_fieldHelper hi hcode) hbegun hwf hmem hcalm hb

end Sys2Proof.Machine

/-! PROOFS. The statements of 42_acquisition.md: the ready method (R155), the environment's time and line events
(R164 to R166), the CYCLE state by state (R150 to R163), and a whole CYCLE on an active line. -/

namespace Sys2Proof.Machine

/-! ## The ready method (42 R155) and the events (42 R164 to R166) -/

/-- Settles O11, by the cases of the fallback; no step changes the configuration it is computed from. -/
theorem readyMethodFallsBack : Obligations.ReadyMethodFallsBack := by
  refine ⟨fun c => ⟨fun hedge hirq => ?edge, fun hedge hirq => ?fallback, fun hother => ?other⟩, fun s t h => ?never⟩
  case edge => simp [readyMethodInForce, hedge, hirq]
  case fallback => simp [readyMethodInForce, hedge, hirq]
  case other =>
    unfold readyMethodInForce
    split
    · next hedge => exact absurd hedge hother
    · rfl
  case never => rw [stepNeverChangesConfiguration s t h]

/-- Settles O16: the step is the event (`step_of_due`). -/
theorem drdyChangeLatchesActiveEdge : Obligations.DrdyChangeLatchesActiveEdge := by
  intro s b es hwf hs
  rw [step_of_due hwf hs]
  simp [applyEvent, State.drdyChange]

/-- A down-counter stops at 0, as subtraction of naturals does (60 R233). -/
theorem countDown_toNat (c : BitVec 16) : (countDown c).toNat = c.toNat - 1 := by
  unfold countDown
  split
  · next hzero => simp [hzero]
  · next hpos => bv_omega

/-- Settles O17: the step is the event (`step_of_due`), and both counters are `countDown`. -/
theorem timeEventsCountAndPend : Obligations.TimeEventsCountAndPend := by
  intro s es hwf
  refine ⟨fun hs => ?msTick, fun hs => ?tick⟩
  case msTick =>
    refine ⟨State.msTick { s with hresValid := false, sched := es }, step_of_due hwf hs, ?_, ?_, ?_, rfl⟩
    · simp [BitVec.toNat_add]
    · simp [countDown_toNat]
    · simp [countDown_toNat]
  case tick => exact step_of_due hwf hs

/-! ## The registers of one channel -/

section Visits

variable {s t : State}

/-- A change of one channel leaves the other channels alone. -/
theorem State.chan_modChan {i : Nat} (hi : i < s.chans.length) (f : Chan → Chan) (j : Nat) :
    (s.modChan i f).chan j = if j = i then f (s.chan j) else s.chan j := by
  simp only [State.chan, State.modChan, List.getD_eq_getElem?_getD, List.getElem?_modify]
  by_cases hj : j = i
  · subst hj
    simp [hi]
  · simp [hj, Ne.symm hj]

theorem State.chan_congr (hcfg : t.cfg = s.cfg) (hchans : t.chans = s.chans) (j : Nat) : t.chan j = s.chan j := by
  simp only [State.chan, hcfg, hchans]

/-! ## The end of a visit (42 R159 to R162) -/

/-- A visit begun clears VALID of its channel (42 R151). -/
theorem State.chan_beginVisit {i : Nat} (hi : i < s.chans.length) (j : Nat) :
    (s.beginVisit i).chan j = if j = i then { s.chan j with valid := false } else s.chan j :=
  (State.chan_congr (s := s.modChan i fun c => { c with valid := false }) rfl rfl j).trans
    (State.chan_modChan hi _ j)

theorem State.advance_of_next (h : s.ch.toNat + 1 < s.cfg.n) : s.advance = s.beginVisit (s.ch.toNat + 1) := if_pos h

theorem State.advance_of_last (h : s.ch.toNat + 1 = s.cfg.n) :
    s.advance = { s with fsm := .cycleComplete, phase := .calibrate } :=
  if_neg (by omega)

/-- `CH` of the next visit does not wrap: N is at most 8. -/
theorem State.ch_toNat_of_next (hn : s.cfg.n ≤ 8) (h : s.ch.toNat + 1 < s.cfg.n) :
    s.advance.ch.toNat = s.ch.toNat + 1 := by
  rw [State.advance_of_next h, State.beginVisit_ch, BitVec.toNat_ofNat]
  omega

/-- The next visit touches only the channel it is of (42 R151). -/
theorem State.chan_advance (hlen : s.chans.length = s.cfg.n) (j : Nat) :
    s.advance.chan j =
      if j = s.ch.toNat + 1 ∧ s.ch.toNat + 1 < s.cfg.n then { s.chan j with valid := false } else s.chan j := by
  unfold State.advance
  split
  · next hnext => simp [State.chan_beginVisit (hlen ▸ hnext), hnext]
  · next hlast => exact (if_neg fun h => hlast h.2).symm

/-- `t` is where the visit of channel `CH` that `s` stands in leads when it ends with the registers of that
channel at `c`: the next channel's visit begins, or CYCLE_COMPLETE is reached (42 R162). -/
structure VisitEnds (s : State) (c : Chan) (t : State) : Prop where
  visited : t.chan s.ch.toNat = c
  next : s.ch.toNat + 1 < s.cfg.n → t.fsm = .selectChannel ∧ t.ch.toNat = s.ch.toNat + 1 ∧
    t.chan (s.ch.toNat + 1) = { s.chan (s.ch.toNat + 1) with valid := false } ∧ t.phase = s.phase
  last : s.ch.toNat + 1 = s.cfg.n → t.fsm = .cycleComplete ∧ t.ch = s.ch ∧ t.phase = .calibrate
  others : ∀ i, i ≠ s.ch.toNat → (i = s.ch.toNat + 1 → s.ch.toNat + 1 = s.cfg.n) → t.chan i = s.chan i
  count : t.chans.length = s.chans.length

/-- A visit ends in the step that records its outcome, by `f`, in the registers of its channel. -/
theorem State.visitEnds (hn : s.cfg.n ≤ 8) (hlen : s.chans.length = s.cfg.n) (hch : s.ch.toNat < s.cfg.n)
    (f : Chan → Chan) : VisitEnds s (f (s.chan s.ch.toNat)) (s.modChan s.ch.toNat f).advance := by
  have hchan : ∀ j, (s.modChan s.ch.toNat f).chan j = if j = s.ch.toNat then f (s.chan j) else s.chan j :=
    State.chan_modChan (hlen ▸ hch) f
  have hadvance := State.chan_advance (s := s.modChan s.ch.toNat f) (by simpa using hlen)
  simp only [State.modChan_frame, hchan] at hadvance
  constructor
  case visited => simp [hadvance]
  case next =>
    intro h
    refine ⟨?_, State.ch_toNat_of_next (s := s.modChan s.ch.toNat f) hn h, ?_, ?_⟩
    · simp [State.advance_of_next (s := s.modChan s.ch.toNat f) h]
    · simp [hadvance, h]
    · simp [State.advance_of_next (s := s.modChan s.ch.toNat f) h]
  case last =>
    intro h
    simp [State.advance_of_last (s := s.modChan s.ch.toNat f) h]
  case others =>
    intro i hi hlast
    have hno : ¬ (i = s.ch.toNat + 1 ∧ s.ch.toNat + 1 < s.cfg.n) := fun h => (hlast h.1).not_lt h.2
    rw [hadvance, if_neg hno, if_neg hi]
  case count =>
    unfold State.advance
    split <;> simp

end Visits

/-- Settles O40: the recorded outcome is the error (`State.visitEnds`). -/
theorem visitErrorAdvances : Obligations.VisitErrorAdvances := by
  intro s st hwf hlen hch
  obtain ⟨-, -, -, -, -, -, hn, -⟩ := cfg_wf_facts hwf
  obtain ⟨hvisited, hnext, hlast, hothers, -⟩ := State.visitEnds hn hlen hch fun c => { c with err := st }
  refine ⟨hvisited, fun h => ?next, fun h => ?last⟩
  case next =>
    obtain ⟨hfsm, hch', hchan, -⟩ := hnext h
    exact ⟨hfsm, hch', hchan, fun i hi hi' => hothers i hi (absurd · hi')⟩
  case last =>
    obtain ⟨hfsm, hch', -⟩ := hlast h
    exact ⟨hfsm, hch', fun i hi => hothers i hi fun _ => h⟩

/-! ## Engine steps of a CYCLE, one at a time (40 R104) -/

section OneStep

variable {s t : State}

/-- An engine step of a CYCLE with the next event right after it. -/
theorem exec_cycle_of_go (hafter : s.eventAfter 1) (hf : cycleStep s = .go t) (ht : t.sched = s.sched) :
    exec .cycle s = .next { t with sched := schedAfter 1 s.sched } := by
  have hstep : exec .cycle s = .next t.elapse := (exec_eq .cycle s).trans (runOperation_one_step hafter hf ht)
  rw [hstep, State.elapse, ht, ← schedNearer_schedAfter, schedAfter_zero]

/-- A CYCLE that must wait: the next event is the next thing to happen (60 R235). -/
theorem exec_cycle_of_wait (hafter : s.eventAfter 1) (hf : cycleStep s = .wait) :
    exec .cycle s = .next { s with sched := schedDue s.sched } := by
  have hdue : s.eventDue = false := by
    cases hs : s.sched with
    | nil => simp [State.eventAfter, hs] at hafter
    | cons e es =>
      have hdelay : e.delay = 1 := by simpa [State.eventAfter, hs] using hafter
      simp [State.eventDue, hs, hdelay]
  obtain ⟨n, hfuel⟩ := s.fuel_eq
  rw [exec_eq, runOperation_eq, hfuel]
  exact drive_wait hdue hf

theorem cycleStep_of_awaitReady (hfsm : s.fsm = .awaitReady) : cycleStep s = awaitStep s := by
  simp only [cycleStep, hfsm]

theorem cycleStep_of_lineEdge (hfsm : s.fsm = .awaitReady) (hm : readyMethodInForce s.cfg = .lineEdge) :
    cycleStep s = awaitEdgeStep s := by
  simp only [cycleStep_of_awaitReady hfsm, awaitStep, hm]

theorem cycleStep_of_lineLevel (hfsm : s.fsm = .awaitReady) (hm : readyMethodInForce s.cfg = .lineLevel) :
    cycleStep s = awaitLevelStep s := by
  simp only [cycleStep_of_awaitReady hfsm, awaitStep, hm]

theorem cycleStep_of_statusBit (hfsm : s.fsm = .awaitReady) (hm : readyMethodInForce s.cfg = .statusBit) :
    cycleStep s = awaitStatusStep s := by
  simp only [cycleStep_of_awaitReady hfsm, awaitStep, hm]

theorem cycleStep_of_cycleComplete (hfsm : s.fsm = .cycleComplete) : cycleStep s = completeStep s := by
  simp only [cycleStep, hfsm]

theorem timeoutOr_of_zero (h : s.tmoCnt = 0) (k : EngineStep) : timeoutOr k s = .go (s.abortVisit .timeout) := if_pos h

theorem timeoutOr_of_ne_zero (h : s.tmoCnt ≠ 0) (k : EngineStep) : timeoutOr k s = k := if_neg h

/-- A wait on the ready line, whichever way `ready` says it is ready: ready leads to `t` whatever `TMO_CNT`, else
the timeout ends the visit, else there is no step (42 R156, R157, R159). -/
theorem exec_cycle_of_line {ready : Bool} (hafter : s.eventAfter 1)
    (hf : cycleStep s = if ready then .go t else timeoutOr .wait s) (ht : t.sched = s.sched) :
    (ready = true → exec .cycle s = .next { t with sched := schedAfter 1 s.sched }) ∧
    (ready = false → s.tmoCnt = 0 →
      exec .cycle s = .next { s.abortVisit .timeout with sched := schedAfter 1 s.sched }) ∧
    (ready = false → s.tmoCnt ≠ 0 → exec .cycle s = .next { s with sched := schedDue s.sched }) := by
  refine ⟨fun hready => ?ready, fun hready htmo => ?timeout, fun hready htmo => ?wait⟩
  case ready => exact exec_cycle_of_go hafter (hf.trans (if_pos hready)) ht
  case timeout =>
    refine exec_cycle_of_go hafter (hf.trans ?_) (by simp)
    simp [hready, timeoutOr_of_zero htmo]
  case wait =>
    refine exec_cycle_of_wait hafter (hf.trans ?_)
    simp [hready, timeoutOr_of_ne_zero htmo]

end OneStep

/-- Settles O33: the step is `State.beginVisit 0`. -/
theorem cycleBeginsWithChannelZero : Obligations.CycleBeginsWithChannelZero := by
  intro s hfsm hafter hn hlen
  have hstep : cycleStep s = .go (s.beginVisit 0) := by simp only [cycleStep, hfsm]
  have hchan := State.chan_beginVisit (s := s) (i := 0) (hlen ▸ hn)
  refine ⟨_, exec_cycle_of_go hafter hstep (by simp), (hchan 0).trans (if_pos rfl), fun i hi => ?_, rfl⟩
  exact (hchan i).trans (if_neg hi.ne')

/-- Settles O36: the line is ready when the flag is set, and readiness takes the flag. -/
theorem lineEdgeWait : Obligations.LineEdgeWait := fun _ hfsm hm hafter =>
  exec_cycle_of_line hafter (cycleStep_of_lineEdge hfsm hm) rfl

/-- Settles O37: the line is ready while it is active, and readiness leaves the flag. -/
theorem lineLevelWait : Obligations.LineLevelWait := fun _ hfsm hm hafter =>
  exec_cycle_of_line hafter (cycleStep_of_lineLevel hfsm hm) rfl

/-- Channel `i` after the calibration step (43 R186). -/
theorem State.chan_calibrate {s : State} (hlen : s.chans.length = s.cfg.n) {i : Nat} (hi : i < s.cfg.n) :
    s.calibrate.chan i = (s.chan i).calibrate s.cfg.w (chanScale s.cfg i) := by
  have hi' : i < s.chans.length := hlen ▸ hi
  simp [State.chan, hi, hi']

/-- Settles O41: the steps are `State.calibrate`, channel by channel `Chan.calibrate`, and `State.encodePacket`,
which writes the packet only. -/
theorem cycleCompleteCalibratesThenEncodes : Obligations.CycleCompleteCalibratesThenEncodes := by
  intro s hfsm hafter
  have hstep := cycleStep_of_cycleComplete hfsm
  refine ⟨fun hphase hlen => ?calibrate, fun hphase => ?encode⟩
  case calibrate =>
    have hcomplete : completeStep s = .go { s.calibrate with phase := .encode } := by simp only [completeStep, hphase]
    exact ⟨_, exec_cycle_of_go hafter (hstep.trans hcomplete) rfl, fun i hi => State.chan_calibrate hlen hi, rfl⟩
  case encode =>
    have hcomplete : completeStep s = .go { s.encodePacket with phase := .notify } := by
      simp only [completeStep, hphase]
    refine ⟨_, exec_cycle_of_go hafter (hstep.trans hcomplete) (by simp), rfl, ?_⟩
    obtain ⟨p, hp⟩ := s.encodePacket_pkt_only
    rw [hp]

/-! ## A command cycle of a CYCLE as a whole (42 R152 to R161, 40 R105, R107) -/

section VisitCycle

variable {s t u : State}

/-- The engine steps of a CYCLE that stands at `s` come to `t` in `k` steps. -/
def RunsTo (k : Nat) (s t : State) : Prop := ∀ n, drive cycleStep (n + k) s = drive cycleStep n t

theorem RunsTo.trans {k l : Nat} (h : RunsTo k s t) (h' : RunsTo l t u) : RunsTo (k + l) s u := fun n =>
  calc drive cycleStep (n + (k + l)) s = drive cycleStep (n + l + k) s := by congr 1; omega
    _ = drive cycleStep (n + l) t := h (n + l)
    _ = drive cycleStep n u := h' n

theorem State.calm_of_eventAfter {k : Nat} (h : s.eventAfter k) : s.calm k = true := by
  unfold State.calm
  cases hs : s.sched with
  | nil => rfl
  | cons e es =>
    have hdelay : e.delay = k := by simpa [State.eventAfter, hs] using h
    simp [hdelay]

theorem State.eventDue_of_eventAfter {k : Nat} (h : s.eventAfter k) (ht : t.sched = schedAfter k s.sched) :
    t.eventDue = true := by
  unfold State.eventDue
  rw [ht]
  cases hs : s.sched with
  | nil => simp [State.eventAfter, hs] at h
  | cons e es =>
    have hdelay : e.delay = k := by simpa [State.eventAfter, hs] using h
    simp [schedAfter, hdelay]

/-- A CYCLE stops at the next event (40 R104). -/
theorem exec_cycle_of_runsTo {k : Nat} (h : RunsTo k s t) (hafter : s.eventAfter k)
    (ht : t.sched = schedAfter k s.sched) (hk : k ≤ s.fuel) : exec .cycle s = .next t := by
  rw [exec_eq, runOperation_eq, show s.fuel = s.fuel - k + k by omega]
  exact (h (s.fuel - k)).trans (drive_due _ _ _ (State.eventDue_of_eventAfter hafter ht))

theorem State.advance_elapse (s : State) : s.advance.elapse = s.elapse.advance := by
  simp only [State.advance, State.elapse_frame]
  split <;> rfl

theorem State.abortVisit_elapse (s : State) (st : Status) : (s.abortVisit st).elapse = s.elapse.abortVisit st :=
  State.advance_elapse _

/-- What a CYCLE does in the step of the `Deselect()` of one of its command cycles: `effect` with the kept bytes
on success, the visit aborted on failure (42 R161). -/
def visitFinish (effect : List Byte → State → State) (st : Status) (kept : List Byte) (t : State) : EngineStep :=
  .go (if st = .ok then effect kept t else t.abortVisit st)

/-- A CYCLE at `s` stands before a command cycle with this frame, whose success has this effect. -/
structure VisitFrame (s : State) (frame : Frame) (effect : List Byte → State → State) : Prop where
  runs : RunsFrame cycleStep frame (visitFinish effect) s
  short : frame.length ≤ 6
  sched : ∀ kept t, (effect kept t).sched = t.sched
  elapse : ∀ kept t, (effect kept t).elapse = effect kept t.elapse

section Answers

variable {frame : Frame} {effect : List Byte → State → State} {answers rest : List Answer}

/-- A command cycle of a CYCLE whose exchanges all succeed. -/
theorem VisitFrame.runsTo (h : VisitFrame s frame effect) (hcs : s.cs = false) (hb : s.busAnswers = answers ++ rest)
    (hlen : answers.length = frame.length) (hok : ∀ a ∈ answers, a.ok = true)
    (hcalm : s.calm (answers.length + 2) = true) :
    RunsTo (answers.length + 2) s (effect (keptBytes frame answers) (s.afterFrame frame answers)) := by
  intro n
  rw [drive_frame_ok h.runs hcs h.short n answers rest hb hlen hok hcalm]
  simp only [visitFinish, if_true]
  rw [h.elapse, State.midCycle_deselect_elapse]

theorem VisitFrame.exec_ok (h : VisitFrame s frame effect) (hcs : s.cs = false) (hb : s.busAnswers = answers ++ rest)
    (hlen : answers.length = frame.length) (hok : ∀ a ∈ answers, a.ok = true)
    (hafter : s.eventAfter (answers.length + 2)) :
    exec .cycle s = .next (effect (keptBytes frame answers) (s.afterFrame frame answers)) := by
  refine exec_cycle_of_runsTo (h.runsTo hcs hb hlen hok (State.calm_of_eventAfter hafter)) hafter (h.sched _ _) ?_
  have hshort := h.short
  simp only [State.fuel]
  omega

/-- A command cycle of a CYCLE one of whose exchanges fails makes no further one, and the visit is aborted in the
step of its `Deselect()` (42 R161, log 22). -/
theorem VisitFrame.exec_failed {a : Answer} (h : VisitFrame s frame effect) (hcs : s.cs = false)
    (hb : s.busAnswers = answers ++ a :: rest) (hlen : answers.length < frame.length)
    (hok : ∀ a ∈ answers, a.ok = true) (ha : a.ok = false) (hafter : s.eventAfter (answers.length + 3)) :
    exec .cycle s = .next ((s.afterFrame frame (answers ++ [a])).abortVisit .transportFailure) := by
  have hruns : RunsTo (answers.length + 3) s ((s.afterFrame frame (answers ++ [a])).abortVisit .transportFailure) := by
    intro n
    rw [drive_frame_failed h.runs hcs h.short n answers rest a hb hlen hok ha (State.calm_of_eventAfter hafter)]
    simp only [visitFinish, reduceCtorEq, if_false]
    rw [State.abortVisit_elapse, State.midCycle_deselect_elapse]
  refine exec_cycle_of_runsTo hruns hafter (by simp [State.afterFrame]) ?_
  have hshort := h.short
  simp only [State.fuel]
  omega

end Answers

/-! ### The four command cycles of a visit -/

/-- The descriptor's byte `v` is in the multiplexer register at `a`, and START is next (42 R152). -/
def State.muxWritten (s : State) (a : RegAddr) (v : Byte) : State :=
  { s.setShadow a v with rdyFlag := false, fsm := .start }

/-- SELECT_CHANNEL is a register write of the channel's descriptor (42 R152). -/
theorem cycleStep_of_selectChannel {p n : InputCode} (hwf : s.cfg.wf = true) (hfsm : s.fsm = .selectChannel)
    (hch : s.ch.toNat < s.cfg.n) (hdesc : chanDesc s.cfg s.ch.toNat = (p, n)) :
    cycleStep s = frameStep (wregFrame s.cfg s.cfg.fMux.addr (muxValue s.cfg.fMux p n))
      (visitFinish fun _ t => t.muxWritten s.cfg.fMux.addr (muxValue s.cfg.fMux p n)) s := by
  obtain ⟨hmux, -⟩ := cfg_wf_facts hwf
  have hcodes : Instr.wf s.cfg (.setmux p n) = true := by
    have hlegal := chanDesc_legal hwf hch
    rwa [hdesc] at hlegal
  simp only [cycleStep, hfsm, selectChannelStep, hdesc]
  rw [doSetmux_of_legal hcodes hmux]
  exact frameStep_congr (fun _ _ => rfl) (fun _ => rfl) _

theorem visitFrame_select {p n : InputCode} (hwf : s.cfg.wf = true) (hfsm : s.fsm = .selectChannel)
    (hch : s.ch.toNat < s.cfg.n) (hdesc : chanDesc s.cfg s.ch.toNat = (p, n)) :
    VisitFrame s (wregFrame s.cfg s.cfg.fMux.addr (muxValue s.cfg.fMux p n))
      (fun _ t => t.muxWritten s.cfg.fMux.addr (muxValue s.cfg.fMux p n)) where
  runs := fun _ _ _ _ _ _ _ => cycleStep_of_selectChannel hwf hfsm hch hdesc
  short := by simp [wregFrame]
  sched _ _ := rfl
  elapse _ _ := rfl

/-- START in pulse mode is one exchange (42 R153). -/
theorem cycleStep_of_start (hfsm : s.fsm = .start) (hmode : s.cfg.convMode = .pulse) :
    cycleStep s = frameStep (startFrame s.cfg) (visitFinish fun _ t => t.enterAwait) s := by
  simp only [cycleStep, hfsm, startStep, hmode, doStart]
  exact frameStep_congr (fun _ _ => rfl) (fun _ => rfl) _

theorem visitFrame_start (hfsm : s.fsm = .start) (hmode : s.cfg.convMode = .pulse) :
    VisitFrame s (startFrame s.cfg) (fun _ t => t.enterAwait) where
  runs := fun _ _ _ _ _ _ _ => cycleStep_of_start hfsm hmode
  short := by simp [startFrame]
  sched _ _ := rfl
  elapse _ _ := rfl

/-- A status poll is a register read, whose byte is tested later (42 R158, log 6). -/
theorem cycleStep_of_poll (hwf : s.cfg.wf = true) (hfsm : s.fsm = .awaitReady)
    (hm : readyMethodInForce s.cfg = .statusBit) (hpoll : s.poll = none) :
    cycleStep s = frameStep (rregFrame s.cfg s.cfg.addrStatus)
      (visitFinish fun kept t => { t with poll := some (kept.headD 0) }) s := by
  obtain ⟨-, -, -, -, -, -, -, -, -, -, hstatus, -⟩ := cfg_wf_facts hwf
  simp only [cycleStep_of_statusBit hfsm hm, awaitStatusStep, hpoll]
  rw [doRreg_of_legal hstatus]
  exact frameStep_congr (fun _ _ => rfl) (fun _ => rfl) _

theorem visitFrame_poll (hwf : s.cfg.wf = true) (hfsm : s.fsm = .awaitReady)
    (hm : readyMethodInForce s.cfg = .statusBit) (hpoll : s.poll = none) :
    VisitFrame s (rregFrame s.cfg s.cfg.addrStatus) (fun kept t => { t with poll := some (kept.headD 0) }) where
  runs := fun _ _ _ _ _ _ _ => cycleStep_of_poll hwf hfsm hm hpoll
  short := by simp [rregFrame]
  sched _ _ := rfl
  elapse _ _ := rfl

/-- READ is a data read, whose sample is captured (42 R160). -/
theorem cycleStep_of_read (hfsm : s.fsm = .read) :
    cycleStep s = frameStep (rdataFrame s.cfg)
      (visitFinish fun kept t => (t.capture (decodeKept kept)).advance) s := by
  simp only [cycleStep, hfsm, readStep, doRdata]
  exact frameStep_congr (fun _ _ => rfl) (fun _ => rfl) _

theorem visitFrame_read (hwf : s.cfg.wf = true) (hfsm : s.fsm = .read) :
    VisitFrame s (rdataFrame s.cfg) (fun kept t => (t.capture (decodeKept kept)).advance) where
  runs := fun _ _ _ _ _ _ _ => cycleStep_of_read hfsm
  short := by
    obtain ⟨-, -, -, -, hdummy, -⟩ := cfg_wf_facts hwf
    rw [rdataFrame_length]
    omega
  sched _ _ := by simp
  elapse _ _ := State.advance_elapse _

/-- READ ends the visit with the sample, the time, VALID and OK recorded (42 R160). -/
theorem State.capture_visitEnds (hn : s.cfg.n ≤ 8) (hlen : s.chans.length = s.cfg.n) (hch : s.ch.toNat < s.cfg.n)
    (raw : BitVec 32) :
    VisitEnds s { s.chan s.ch.toNat with raw := raw, ts := s.now, valid := true, err := .ok }
      (s.capture raw).advance :=
  State.visitEnds hn hlen hch fun c => { c with raw := raw, ts := s.now, valid := true, err := .ok }

/-- A command cycle writes nothing that the end of a visit is about. -/
theorem VisitEnds.of_afterFrame {frame : Frame} {answers : List Answer} {c : Chan}
    (h : VisitEnds (s.afterFrame frame answers) c t) : VisitEnds s c t :=
  ⟨h.visited, h.next, h.last, h.others, h.count⟩

end VisitCycle

/-- Settles O34: one register write of the descriptor (`visitFrame_select`), or the visit aborted. -/
theorem selectChannelWritesDescriptor : Obligations.SelectChannelWritesDescriptor := by
  intro s p n r0 r1 rest hwf hfsm hcs hdesc hmem
  obtain ⟨-, -, -, -, -, -, -, -, -, hdescs, -⟩ := cfg_wf_facts hwf
  obtain ⟨hlt, -⟩ := List.getElem?_eq_some_iff.1 hdesc
  have hframe := visitFrame_select hwf hfsm (hdescs ▸ hlt)
    (show chanDesc s.cfg s.ch.toNat = (p, n) by simp [chanDesc, hdesc])
  refine ⟨fun hafter hb => ?written, fun hafter hb => ?first, fun hafter hb => ?second⟩
  case written =>
    refine ⟨_, hframe.exec_ok (answers := [⟨true, r0⟩, ⟨true, r1⟩]) hcs hb rfl (by simp) hafter, fun b => ?_, ?_⟩
    · simp only [eq_comm (a := b)]
      exact State.shadowAt_setShadow (s := s.afterFrame (wregFrame s.cfg s.cfg.fMux.addr _) _) hmem _ b _
    · simp [State.muxWritten, State.afterFrame, exchanges, wregFrame, wregByte, frameSend, State.setShadow, hb, hcs]
  case first =>
    rw [hframe.exec_failed (answers := []) hcs hb (by simp [wregFrame]) (by simp) rfl hafter]
    simp [State.afterFrame, exchanges, wregFrame, wregByte, frameSend, hb, hcs]
  case second =>
    refine ⟨_, hframe.exec_failed (answers := [⟨true, r0⟩]) hcs hb (by simp [wregFrame]) (by simp) rfl hafter,
      by simp [State.afterFrame], by simp [State.afterFrame], by simp [State.afterFrame], ?_⟩
    simp [State.afterFrame, exchanges, wregFrame, wregByte, frameSend, hb, hcs]

/-- Settles O35: an engine step of its own in continuous mode, one exchange in pulse mode (`visitFrame_start`). -/
theorem startStateByConversionMode : Obligations.StartStateByConversionMode := by
  intro s r rest hfsm hcs
  refine ⟨fun hmode hafter => ?continuous, fun hmode hafter hb => ?pulse, fun hmode hafter hb => ?failed⟩
  case continuous =>
    have hstep : cycleStep s = .go s.enterAwait := by simp only [cycleStep, hfsm, startStep, hmode]
    exact exec_cycle_of_go hafter hstep rfl
  case pulse =>
    rw [(visitFrame_start hfsm hmode).exec_ok (answers := [⟨true, r⟩]) hcs hb rfl (by simp) hafter]
    simp [State.enterAwait, State.afterFrame, exchanges, startFrame, frameSend, hb, hcs]
  case failed =>
    rw [(visitFrame_start hfsm hmode).exec_failed (answers := []) hcs hb (by simp [startFrame]) (by simp) rfl hafter]
    simp [State.afterFrame, exchanges, startFrame, frameSend, hb, hcs]

/-- The end of a visit does not read the byte of a status poll. -/
theorem State.abortVisit_poll (s : State) (p : Option Byte) (st : Status) :
    ({ s with poll := p } : State).abortVisit st = { s.abortVisit st with poll := p } := by
  simp only [State.abortVisit, State.advance, State.modChan_frame]
  split <;> rfl

/-- The test of a status byte that was read (42 R158, R159, log 6). -/
theorem awaitStatusStep_of_byte {s : State} {b : Byte} (hpoll : s.poll = some b) :
    awaitStatusStep s =
      if b &&& s.cfg.statusDrdyMask ≠ 0 then .go { s with poll := none, fsm := .read }
      else timeoutOr (.go { s with poll := none }) { s with poll := none } := by
  simp only [awaitStatusStep, hpoll]

/-- Settles O38: one register read (`visitFrame_poll`), the test of its byte, or the visit aborted. -/
theorem statusPollWait : Obligations.StatusPollWait := by
  intro s r0 r1 b rest hwf hfsm hcs hm
  have hstep := cycleStep_of_statusBit hfsm hm
  refine ⟨fun hpoll hafter hb => ?poll, fun hpoll hafter => ⟨fun hready => ?ready, fun hready htmo => ?timeout,
    fun hready htmo => ?again⟩, fun answers rx hpoll hok hlen hafter hb => ?failed⟩
  case poll =>
    rw [(visitFrame_poll hwf hfsm hm hpoll).exec_ok (answers := [⟨true, r0⟩, ⟨true, r1⟩, ⟨true, b⟩]) hcs hb rfl
      (by simp) hafter]
    simp [State.afterFrame, exchanges, keptBytes, rregFrame, rregByte, frameSend, frameDummy, frameRecv, hb, hcs]
  case ready =>
    exact exec_cycle_of_go (t := { s with poll := none, fsm := .read }) hafter
      (hstep.trans ((awaitStatusStep_of_byte hpoll).trans (if_pos hready))) rfl
  case timeout =>
    refine exec_cycle_of_go (t := { s.abortVisit .timeout with poll := none }) hafter (hstep.trans ?_) (by simp)
    rw [awaitStatusStep_of_byte hpoll, if_neg (not_not.2 hready), timeoutOr_of_zero (s := { s with poll := none }) htmo,
      State.abortVisit_poll]
  case again =>
    refine exec_cycle_of_go (t := { s with poll := none }) hafter (hstep.trans ?_) rfl
    rw [awaitStatusStep_of_byte hpoll, if_neg (not_not.2 hready),
      timeoutOr_of_ne_zero (s := { s with poll := none }) htmo]
  case failed =>
    exact (visitFrame_poll hwf hfsm hm hpoll).exec_failed hcs hb (by simpa [rregFrame] using hlen) hok rfl hafter

/-- The end of a visit writes only where the CYCLE stands and the channels. -/
theorem State.advance_eq (s : State) :
    s.advance = { s with
      fsm := s.advance.fsm, ch := s.advance.ch, phase := s.advance.phase, chans := s.advance.chans } := by
  unfold State.advance
  split <;> rfl

/-- Settles O39: one data read (`visitFrame_read`), and the recorded outcome is the sample or the error
(`State.visitEnds`). -/
theorem readStateCaptures : Obligations.ReadStateCaptures := by
  intro s rest hwf hfsm hcs hlen hch
  obtain ⟨-, -, -, -, -, -, hn, -⟩ := cfg_wf_facts hwf
  have hframe := visitFrame_read hwf hfsm
  refine ⟨fun r0 ds b2 b1 b0 hds hafter hb => ?captured, fun answers rx hok hlt hafter hb => ?failed⟩
  case captured =>
    have hlength : (rdataAnswers r0 ds b2 b1 b0).length = 4 + s.cfg.rdataDummy := by rw [rdataAnswers_length, hds]
    have hsteps : 4 + s.cfg.rdataDummy + 2 = 6 + s.cfg.rdataDummy := by omega
    have hanswers : s.busAnswers = rdataAnswers r0 ds b2 b1 b0 ++ rest := by simpa [rdataAnswers] using hb
    have hrest : s.busAnswers.drop (4 + s.cfg.rdataDummy) = rest := by
      rw [hanswers, ← hlength]
      exact List.drop_left
    have hexec := hframe.exec_ok hcs hanswers (hlength.trans (rdataFrame_length s.cfg).symm)
      (rdataAnswers_ok r0 ds b2 b1 b0) (by rw [hlength, hsteps]; exact hafter)
    rw [keptBytes_rdata s.cfg r0 hds] at hexec
    obtain ⟨hvisited, hnext, hlast, hothers, hcount⟩ := VisitEnds.of_afterFrame <|
      State.capture_visitEnds (s := s.afterFrame (rdataFrame s.cfg) (rdataAnswers r0 ds b2 b1 b0)) hn hlen hch
        (decode24 b2 b1 b0)
    refine ⟨_, hexec, hvisited, hnext, hlast, fun i hi hi' => hothers i hi (absurd · hi'), hcount.trans hlen, ?_⟩
    rw [State.advance_eq]
    simp [State.afterFrame, exchanges_rdata s.cfg r0 hds, hlength, hsteps, hrest, hcs, decodeKept]
  case failed =>
    have hexec := hframe.exec_failed hcs hb (by rw [rdataFrame_length]; exact hlt) hok rfl hafter
    have hends := VisitEnds.of_afterFrame <|
      State.visitEnds (s := s.afterFrame (rdataFrame s.cfg) (answers ++ [⟨false, rx⟩])) hn hlen hch
        fun c => { c with err := .transportFailure }
    exact ⟨_, hexec, hends.visited, rfl⟩

/-! ## The packet as its consumer reads it (44 R201 to R203, R213) -/

section Packet

variable {s : State}

/-- The 16-bit field a consumer reads at offset `o` (44 R213). -/
def State.field16 (s : State) (o : Nat) : BitVec 16 := consumerField s.cfg.pktLe (s.pktAt o) (s.pktAt (o + 1))

/-- The two bytes of a field, low byte second, are the field (30 R91). -/
theorem bytes_append (f : BitVec 16) : f.extractLsb' 8 8 ++ f.extractLsb' 0 8 = f := by
  rw [BitVec.extractLsb'_append_extractLsb'_eq_extractLsb' (show 8 = 0 + 8 from rfl)]
  exact BitVec.extractLsb'_eq_self

/-- A packet byte after a field was stored. -/
theorem State.pktAt_store16 (hwf : Memory.wf pktDefault s.pkt = true) (o : Nat) (f : BitVec 16) (j : Nat) :
    (s.store16 o f).pktAt j =
      if j = o + 1 then (if s.cfg.pktLe then f.extractLsb' 8 8 else f.extractLsb' 0 8)
      else if j = o then (if s.cfg.pktLe then f.extractLsb' 0 8 else f.extractLsb' 8 8)
      else s.pktAt j := by
  have hwf' := fun v => Memory.wf_write s.pkt o v hwf
  simp only [State.pktAt, State.store16, Memory.read_write _ _ _ _ (hwf' _), Memory.read_write _ _ _ _ hwf,
    eq_comm (a := j)]
  cases s.cfg.pktLe <;> rfl

/-- A stored field reads back, whatever the byte order. -/
theorem State.field16_store16_same (hwf : Memory.wf pktDefault s.pkt = true) (o : Nat) (f : BitVec 16) :
    (s.store16 o f).field16 o = f := by
  simp only [State.field16, State.pktAt_store16 hwf, State.store16_frame, consumerField]
  cases s.cfg.pktLe <;> simp [bytes_append]

/-- A stored field leaves alone those that do not overlap it. -/
theorem State.field16_store16_other (hwf : Memory.wf pktDefault s.pkt = true) {o p : Nat}
    (hop : p + 1 < o ∨ o + 1 < p) (f : BitVec 16) : (s.store16 o f).field16 p = s.field16 p := by
  have hbyte : ∀ j, j = p ∨ j = p + 1 → (s.store16 o f).pktAt j = s.pktAt j := fun j hj => by
    rw [State.pktAt_store16 hwf, if_neg (by omega), if_neg (by omega)]
  simp only [State.field16, hbyte p (.inl rfl), hbyte (p + 1) (.inr rfl), State.store16_frame]

theorem State.store16_pktWf (hwf : Memory.wf pktDefault s.pkt = true) (o : Nat) (f : BitVec 16) :
    Memory.wf pktDefault (s.store16 o f).pkt = true :=
  Memory.wf_write _ _ _ (Memory.wf_write _ _ _ hwf)

/-- The channel fields stored one after the other read back, and the field at 0 stays (44 R201). -/
theorem State.field16_storeAll (g : Nat → BitVec 16) (hwf : Memory.wf pktDefault s.pkt = true) (n : Nat) :
    let t := (List.range n).foldl (fun t i => t.store16 (2 + 2 * i) (g i)) s
    Memory.wf pktDefault t.pkt = true ∧ t.field16 0 = s.field16 0 ∧ ∀ i, i < n → t.field16 (2 + 2 * i) = g i := by
  induction n with
  | zero => exact ⟨hwf, rfl, fun i hi => absurd hi (by omega)⟩
  | succ n ih =>
    obtain ⟨hwf', htime, hfields⟩ := ih
    simp only [List.range_succ, List.foldl_append, List.foldl_cons, List.foldl_nil]
    refine ⟨State.store16_pktWf hwf' _ _, ?_, fun i hi => ?_⟩
    · rw [State.field16_store16_other hwf' (.inl (by omega)), htime]
    · rcases Nat.lt_succ_iff_lt_or_eq.1 hi with hlt | rfl
      · rw [State.field16_store16_other hwf' (.inl (by omega)), hfields i hlt]
      · exact State.field16_store16_same hwf' _ _

/-- The encode step stores the time at offset 0 and the value of channel `i` at `2 + 2i` (44 R203). -/
theorem State.field16_encodePacket (hwf : Memory.wf pktDefault s.pkt = true) :
    s.encodePacket.field16 0 = s.now.setWidth 16 ∧
      ∀ i, i < s.cfg.n → s.encodePacket.field16 (2 + 2 * i) = BitVec.ofInt 16 (s.chan i).packetValue := by
  obtain ⟨-, htime, hfields⟩ := State.field16_storeAll (fun i => BitVec.ofInt 16 (s.chan i).packetValue)
    (State.store16_pktWf hwf 0 (s.now.setWidth 16)) s.cfg.n
  exact ⟨htime.trans (State.field16_store16_same hwf 0 _), hfields⟩

theorem State.packet_getD {j : Nat} (hj : j < s.pktLen) : s.packet.getD j 0 = s.pktAt j := by
  simp [State.packet, List.getD_eq_getElem?_getD, hj]

theorem State.consumerElapsed_packet (s : State) : consumerElapsed s.cfg.pktLe s.packet = (s.field16 0).toNat := by
  rw [consumerElapsed, State.packet_getD (by simp [State.pktLen]), State.packet_getD (by simp [State.pktLen])]
  rfl

theorem State.consumerValue_packet {i : Nat} (hi : i < s.cfg.n) :
    consumerValue s.cfg.pktLe s.packet i = (s.field16 (2 + 2 * i)).toInt := by
  rw [consumerValue, State.packet_getD (by unfold State.pktLen; omega),
    State.packet_getD (by unfold State.pktLen; omega), show 3 + 2 * i = 2 + 2 * i + 1 by omega]
  rfl

/-- `clamp16` saturates to the signed 16-bit range (00 R11). -/
theorem clamp16_range (q : Int) : -32768 ≤ clamp16 q ∧ clamp16 q ≤ 32767 := by
  unfold clamp16
  split_ifs <;> omega

/-- A packet value fits its field (44 R200). -/
theorem Chan.packetValue_toInt (c : Chan) : (BitVec.ofInt 16 c.packetValue).toInt = c.packetValue := by
  obtain ⟨hlow, hhigh⟩ := clamp16_range c.scaledTenths
  exact BitVec.toInt_ofInt_eq_self (by norm_num) hlow (Int.lt_add_one_of_le hhigh)

/-- The consumer reads the time and the values of the channels back from an encoded packet (44 R211, R213). -/
theorem State.encodePacket_readsBack (hwf : Memory.wf pktDefault s.pkt = true) :
    consumerElapsed s.cfg.pktLe s.encodePacket.packet = s.now.toNat % 65536 ∧
      ∀ i, i < s.cfg.n → consumerValue s.cfg.pktLe s.encodePacket.packet i = (s.chan i).packetValue := by
  obtain ⟨htime, hfields⟩ := State.field16_encodePacket hwf
  have hcfg : s.encodePacket.cfg = s.cfg := by simp
  constructor
  · rw [← hcfg, State.consumerElapsed_packet, htime, BitVec.toNat_setWidth]
  · intro i hi
    rw [← hcfg, State.consumerValue_packet (hcfg ▸ hi), hfields i hi, Chan.packetValue_toInt]

end Packet

/-! ## A whole CYCLE on an active line (42 R150 to R163) -/

section WholeCycle

variable {s t u : State}

/-! ### Answers to come -/

/-- The next `e` answers of the transport are there, and good. -/
structure GoodAnswers (e : Nat) (l : List Answer) : Prop where
  enough : e ≤ l.length
  ok : ∀ a ∈ l.take e, a.ok = true

theorem GoodAnswers.split {e f : Nat} {l : List Answer} (h : GoodAnswers (e + f) l) :
    GoodAnswers e l ∧ GoodAnswers f (l.drop e) := by
  obtain ⟨henough, hok⟩ := h
  rw [List.take_add] at hok
  refine ⟨⟨by omega, fun a ha => hok a (List.mem_append_left _ ha)⟩,
    ⟨?_, fun a ha => hok a (List.mem_append_right _ ha)⟩⟩
  rw [List.length_drop]
  omega

/-- The sample in three answers from the `k`-th on, most significant byte first (40 R113). -/
def sampleAt (l : List Answer) (k : Nat) : BitVec 32 :=
  decode24 (l.getD k ⟨false, 0⟩).rx (l.getD (k + 1) ⟨false, 0⟩).rx (l.getD (k + 2) ⟨false, 0⟩).rx

theorem sampleAt_drop (l : List Answer) (m k : Nat) : sampleAt (l.drop m) k = sampleAt l (m + k) := by
  simp only [sampleAt, List.getD_eq_getElem?_getD, List.getElem?_drop, Nat.add_assoc]

/-- The fill bytes of a data read keep nothing. -/
theorem keptBytes_fill (c : Cfg) (frame : Frame) (d : Nat) (answers : List Answer) :
    keptBytes (List.replicate d (frameDummy c) ++ frame) answers = keptBytes frame (answers.drop d) := by
  induction d generalizing answers with
  | zero => rfl
  | succ d ih =>
    cases answers with
    | nil => simp [keptBytes]
    | cons a answers => exact ih answers

/-- A data read keeps its last three answers (40 R113). -/
theorem decodeKept_rdata (c : Cfg) {l : List Answer} (h : 4 + c.rdataDummy ≤ l.length) :
    decodeKept (keptBytes (rdataFrame c) (l.take (4 + c.rdataDummy))) = sampleAt l (1 + c.rdataDummy) := by
  cases l with
  | nil => simp at h
  | cons a l =>
    have hlen : 3 + c.rdataDummy ≤ l.length := by simp only [List.length_cons] at h; omega
    have hlast : ((l.drop c.rdataDummy).take 3).length = 3 := by rw [List.length_take, List.length_drop]; omega
    have htake : (l.take (3 + c.rdataDummy)).drop c.rdataDummy = (l.drop c.rdataDummy).take 3 := by
      rw [List.drop_take, Nat.add_sub_cancel]
    have hkept : keptBytes (rdataFrame c) ((a :: l).take (4 + c.rdataDummy)) =
        keptBytes (List.replicate 3 (frameRecv c)) ((l.drop c.rdataDummy).take 3) := by
      rw [← htake, ← keptBytes_fill, show 4 + c.rdataDummy = 3 + c.rdataDummy + 1 by omega]
      rfl
    rw [hkept, show 1 + c.rdataDummy = c.rdataDummy + 1 + 0 by omega, ← sampleAt_drop]
    show _ = sampleAt (l.drop c.rdataDummy) 0
    match hd : l.drop c.rdataDummy, hlast with
    | b2 :: b1 :: b0 :: rest, _ => rfl

/-! ### The registers a visit leaves alone -/

/-- What a CYCLE leaves alone until CYCLE_COMPLETE, where no exchange fails and no event comes. -/
@[simp] def State.cycleView (s : State) := (s.cycleFixed, s.eng, s.cs, s.pkt, s.sinkTrace, s.sched)

/-- What the four states of a visit leave alone up to the capture of the sample. -/
@[simp] def State.visitView (s : State) := (s.cycleView, s.ch, s.chans)

/-- A CYCLE on the polled line in force and active, with the boundary released and no event to come. -/
structure State.OnLine (s : State) : Prop where
  wf : s.cfg.wf = true
  method : readyMethodInForce s.cfg = .lineLevel
  line : s.drdySync = true
  released : s.cs = false
  quiet : s.sched = []

theorem State.OnLine.congr (hs : s.OnLine) (h : t.cycleView = s.cycleView) : t.OnLine := by
  simp only [State.cycleView, State.cycleFixed, State.eventRegs, Prod.mk.injEq] at h
  obtain ⟨⟨⟨hcfg, -, hline, -⟩, -⟩, -, hcs, -, -, hsched⟩ := h
  exact ⟨hcfg ▸ hs.wf, hcfg ▸ hs.method, hline.trans hs.line, hcs.trans hs.released, hsched.trans hs.quiet⟩

theorem State.cfg_now_of_cycleView (h : t.cycleView = s.cycleView) : t.cfg = s.cfg ∧ t.now = s.now := by
  simp only [State.cycleView, State.cycleFixed, State.eventRegs, Prod.mk.injEq] at h
  obtain ⟨⟨⟨hcfg, hnow, -⟩, -⟩, -⟩ := h
  exact ⟨hcfg, hnow⟩

theorem State.parts_of_visitView (h : t.visitView = s.visitView) :
    t.cycleView = s.cycleView ∧ t.ch = s.ch ∧ t.chans = s.chans := by
  simpa only [State.visitView, Prod.mk.injEq] using h

theorem State.OnLine.afterFrame_view (hs : s.OnLine) (frame : Frame) (answers : List Answer) :
    (s.afterFrame frame answers).visitView = s.visitView := by
  simp [State.afterFrame, hs.released, hs.quiet, schedAfter]

theorem State.OnLine.calm (hs : s.OnLine) (k : Nat) : s.calm k = true := by
  simp [State.calm, hs.quiet]

theorem State.elapse_of_no_events (h : s.sched = []) : s.elapse = s := by
  unfold State.elapse
  rw [h, schedNearer, ← h]

/-- An engine step without a command cycle, with no event to come. -/
theorem runsTo_of_go (hsched : s.sched = []) (hf : cycleStep s = .go t) (ht : t.sched = s.sched) : RunsTo 1 s t := by
  intro n
  rw [drive_go (by simp [State.eventDue, hsched]) hf, State.elapse_of_no_events (ht.trans hsched)]

/-- A command cycle of a visit with good answers, with no event to come: `t` is the state its effect is on. -/
theorem VisitFrame.passes {frame : Frame} {effect : List Byte → State → State} (h : VisitFrame s frame effect)
    (hs : s.OnLine) (hgood : GoodAnswers frame.length s.busAnswers) :
    ∃ t : State,
      RunsTo (frame.length + 2) s (effect (keptBytes frame (s.busAnswers.take frame.length)) t) ∧
      t.visitView = s.visitView ∧ t.busAnswers = s.busAnswers.drop frame.length := by
  have hlen : (s.busAnswers.take frame.length).length = frame.length := List.length_take_of_le hgood.enough
  have hruns := h.runsTo hs.released (List.take_append_drop frame.length s.busAnswers).symm hlen hgood.ok (hs.calm _)
  rw [hlen] at hruns
  exact ⟨_, hruns, hs.afterFrame_view _ _, congrArg (s.busAnswers.drop ·) hlen⟩

/-! ### One visit, state by state -/

/-- The exchanges of START (42 R153). -/
def startExchanges (c : Cfg) : Nat :=
  match c.convMode with
  | .pulse => 1
  | .continuous => 0

theorem visitExchanges_eq (c : Cfg) : visitExchanges c = 2 + (startExchanges c + (4 + c.rdataDummy)) := by
  unfold visitExchanges startExchanges
  cases c.convMode <;> simp only <;> omega

/-- SELECT_CHANNEL passes to START (42 R152). -/
theorem select_passes (hs : s.OnLine) (hch : s.ch.toNat < s.cfg.n) (hfsm : s.fsm = .selectChannel)
    (hgood : GoodAnswers 2 s.busAnswers) :
    ∃ t : State, RunsTo 4 s t ∧ t.fsm = .start ∧ t.visitView = s.visitView ∧
      t.busAnswers = s.busAnswers.drop 2 := by
  obtain ⟨u, hruns, hview, hanswers⟩ := (visitFrame_select hs.wf hfsm hch rfl).passes hs hgood
  exact ⟨_, hruns, rfl, hview, hanswers⟩

/-- START passes to AWAIT_READY, in pulse mode by a command cycle (42 R153). -/
theorem start_passes (hs : s.OnLine) (hfsm : s.fsm = .start)
    (hgood : GoodAnswers (startExchanges s.cfg) s.busAnswers) :
    ∃ (k : Nat) (t : State), k ≤ 3 ∧ RunsTo k s t ∧ t.fsm = .awaitReady ∧ t.visitView = s.visitView ∧
      t.busAnswers = s.busAnswers.drop (startExchanges s.cfg) := by
  unfold startExchanges at hgood ⊢
  cases hmode : s.cfg.convMode with
  | pulse =>
    rw [hmode] at hgood
    obtain ⟨u, hruns, hview, hanswers⟩ := (visitFrame_start hfsm hmode).passes hs hgood
    exact ⟨3, _, le_rfl, hruns, rfl, hview, hanswers⟩
  | continuous =>
    have hstep : cycleStep s = .go s.enterAwait := by simp only [cycleStep, hfsm, startStep, hmode]
    exact ⟨1, _, by omega, runsTo_of_go hs.quiet hstep rfl, rfl, rfl, rfl⟩

/-- AWAIT_READY on the active line passes to READ at once (42 R157). -/
theorem await_passes (hs : s.OnLine) (hfsm : s.fsm = .awaitReady) :
    ∃ t : State, RunsTo 1 s t ∧ t.fsm = .read ∧ t.visitView = s.visitView ∧ t.busAnswers = s.busAnswers :=
  ⟨{ s with fsm := .read },
    runsTo_of_go hs.quiet ((cycleStep_of_lineLevel hfsm hs.method).trans (if_pos hs.line)) rfl, rfl, rfl, rfl⟩

/-- READ captures the sample and ends the visit (42 R160): `t` is the state the sample is captured in. -/
theorem read_passes (hs : s.OnLine) (hfsm : s.fsm = .read)
    (hgood : GoodAnswers (4 + s.cfg.rdataDummy) s.busAnswers) :
    ∃ t : State, RunsTo (6 + s.cfg.rdataDummy) s (t.capture (sampleAt s.busAnswers (1 + s.cfg.rdataDummy))).advance ∧
      t.visitView = s.visitView ∧ t.busAnswers = s.busAnswers.drop (4 + s.cfg.rdataDummy) := by
  have hpasses := (visitFrame_read hs.wf hfsm).passes hs
  rw [rdataFrame_length, decodeKept_rdata s.cfg hgood.enough,
    show 4 + s.cfg.rdataDummy + 2 = 6 + s.cfg.rdataDummy by omega] at hpasses
  exact hpasses hgood

/-- A whole visit (42 R151 to R160): its sample is in the last three of its answers. -/
theorem visit_passes (hs : s.OnLine) (hch : s.ch.toNat < s.cfg.n) (hfsm : s.fsm = .selectChannel)
    (hgood : GoodAnswers (visitExchanges s.cfg) s.busAnswers) :
    ∃ (k : Nat) (t : State), k ≤ 16 * visitExchanges s.cfg ∧
      RunsTo k s (t.capture (sampleAt s.busAnswers (visitExchanges s.cfg - 3))).advance ∧
      t.visitView = s.visitView ∧ t.busAnswers = s.busAnswers.drop (visitExchanges s.cfg) := by
  rw [visitExchanges_eq] at hgood ⊢
  obtain ⟨hgood₁, hgood⟩ := hgood.split
  obtain ⟨hgood₂, hgood₄⟩ := hgood.split
  obtain ⟨t₁, hruns₁, hfsm₁, hview₁, hanswers₁⟩ := select_passes hs hch hfsm hgood₁
  have hkeeps₁ := (State.parts_of_visitView hview₁).1
  have hs₁ := hs.congr hkeeps₁
  have hcfg₁ := (State.cfg_now_of_cycleView hkeeps₁).1
  obtain ⟨k, t₂, hk, hruns₂, hfsm₂, hview₂, hanswers₂⟩ := start_passes hs₁ hfsm₁ (by rwa [hcfg₁, hanswers₁])
  obtain ⟨t₃, hruns₃, hfsm₃, hview₃, hanswers₃⟩ := await_passes (hs₁.congr (State.parts_of_visitView hview₂).1) hfsm₂
  have hview := hview₃.trans (hview₂.trans hview₁)
  have hkeeps₃ := (State.parts_of_visitView hview).1
  have hcfg₃ := (State.cfg_now_of_cycleView hkeeps₃).1
  rw [hanswers₂, hanswers₁, hcfg₁, List.drop_drop] at hanswers₃
  rw [List.drop_drop] at hgood₄
  obtain ⟨t, hruns₄, hview₄, hanswers₄⟩ :=
    read_passes (hs.congr hkeeps₃) hfsm₃ (by rwa [hcfg₃, hanswers₃])
  rw [hcfg₃, hanswers₃, sampleAt_drop] at hruns₄
  rw [hcfg₃, hanswers₃, List.drop_drop] at hanswers₄
  have hsample : 2 + (startExchanges s.cfg + (4 + s.cfg.rdataDummy)) - 3 =
      2 + startExchanges s.cfg + (1 + s.cfg.rdataDummy) := by omega
  rw [hsample, ← Nat.add_assoc 2]
  exact ⟨_, t, by omega, ((hruns₁.trans hruns₂).trans hruns₃).trans hruns₄, hview₄.trans hview, hanswers₄⟩

/-! ### All visits -/

/-- The registers of channel `j` after its visit in the CYCLE begun at `s`: its visit's answers are the `j`-th
of the answers to come (42 R160). -/
def State.sampled (s : State) (j : Nat) : Chan :=
  { s.chan j with
    raw := sampleAt s.busAnswers (j * visitExchanges s.cfg + (visitExchanges s.cfg - 3))
    ts := s.now
    valid := true
    err := .ok }

/-- `u` is where the CYCLE begun at `s` stands after the visits of `i` channels: at the start of the next visit,
or at CYCLE_COMPLETE after the last. -/
structure Visited (s : State) (i : Nat) (u : State) : Prop where
  view : u.cycleView = s.cycleView
  count : u.chans.length = s.cfg.n
  answers : u.busAnswers = s.busAnswers.drop (i * visitExchanges s.cfg)
  done : ∀ j, j < i → u.chan j = s.sampled j
  begun : i < s.cfg.n → u.fsm = .selectChannel ∧ u.ch.toNat = i ∧ u.chan i = { s.chan i with valid := false }
  others : ∀ j, i < j → u.chan j = s.chan j
  complete : i = s.cfg.n → u.fsm = .cycleComplete ∧ u.phase = .calibrate

theorem Visited.cfg {i : Nat} (h : Visited s i u) : u.cfg = s.cfg := (State.cfg_now_of_cycleView h.view).1

theorem Visited.now {i : Nat} (h : Visited s i u) : u.now = s.now := (State.cfg_now_of_cycleView h.view).2

/-- The start of the visit of channel 0 (42 R151). -/
theorem visited_zero (hn : 0 < s.cfg.n) (hlen : s.chans.length = s.cfg.n) : Visited s 0 (s.beginVisit 0) := by
  have hchan := State.chan_beginVisit (s := s) (i := 0) (hlen ▸ hn)
  constructor
  case view => simp
  case count => simpa using hlen
  case answers => simp
  case done => exact fun j hj => absurd hj (by omega)
  case begun => exact fun _ => ⟨rfl, rfl, (hchan 0).trans (if_pos rfl)⟩
  case others => exact fun j hj => (hchan j).trans (if_neg hj.ne')
  case complete => exact fun h => absurd h hn.ne

/-- The visit of the next channel, from the state its sample is captured in (42 R160, R162). -/
theorem Visited.next {i : Nat} (h : Visited s i u) (hn : s.cfg.n ≤ 8) (hi : i < s.cfg.n)
    (hview : t.visitView = u.visitView) (hanswers : t.busAnswers = u.busAnswers.drop (visitExchanges s.cfg)) :
    Visited s (i + 1) (t.capture (sampleAt u.busAnswers (visitExchanges s.cfg - 3))).advance := by
  obtain ⟨-, hch, hbegun⟩ := h.begun hi
  obtain ⟨htview, htu, htchans⟩ := State.parts_of_visitView hview
  obtain ⟨htcfg, htnow⟩ := State.cfg_now_of_cycleView htview
  have htch : t.ch.toNat = i := by rw [htu, hch]
  have htchan := State.chan_congr htcfg htchans
  have htn : t.cfg.n = s.cfg.n := by rw [htcfg, h.cfg]
  obtain ⟨hvisited, hnext, hlast, hothers, hcount⟩ :=
    State.capture_visitEnds (s := t) (htn ▸ hn) (by rw [htchans, h.count, htn]) (by rw [htch, htn]; exact hi)
      (sampleAt u.busAnswers (visitExchanges s.cfg - 3))
  simp only [htch, htn, htnow, h.now, htchan] at hvisited hnext hlast hothers
  constructor
  case view =>
    rw [← h.view, ← htview]
    simp
  case count => rw [hcount, htchans, h.count]
  case answers =>
    simp only [State.advance_frame, State.capture_frame]
    rw [hanswers, h.answers, List.drop_drop]
    congr 1
    ring
  case done =>
    intro j hj
    rcases Nat.lt_succ_iff_lt_or_eq.1 hj with hlt | rfl
    · exact (hothers j hlt.ne (absurd · (by omega))).trans (h.done j hlt)
    · rw [hvisited, hbegun, h.answers, sampleAt_drop]
      rfl
  case begun =>
    intro hlt
    obtain ⟨hfsm, hch', hchan, -⟩ := hnext hlt
    exact ⟨hfsm, hch', hchan.trans (by rw [h.others (i + 1) (by omega)])⟩
  case others => exact fun j hj => (hothers j (by omega) (absurd · (by omega))).trans (h.others j (by omega))
  case complete =>
    intro heq
    obtain ⟨hfsm, -, hphase⟩ := hlast heq
    exact ⟨hfsm, hphase⟩

/-- The visits of the first `i` channels, one after the other (42 R150). -/
theorem visits_pass (hs : s.OnLine) (hfsm : s.fsm = .idle) (hlen : s.chans.length = s.cfg.n)
    (hgood : GoodAnswers (s.cfg.n * visitExchanges s.cfg) s.busAnswers) {i : Nat} (hi : i ≤ s.cfg.n) :
    ∃ (k : Nat) (u : State), k ≤ 1 + 16 * (i * visitExchanges s.cfg) ∧ RunsTo k s u ∧ Visited s i u := by
  obtain ⟨-, -, -, -, -, hn, hn', -⟩ := cfg_wf_facts hs.wf
  induction i with
  | zero =>
    have hstep : cycleStep s = .go (s.beginVisit 0) := by simp only [cycleStep, hfsm]
    exact ⟨1, _, by omega, runsTo_of_go hs.quiet hstep (by simp), visited_zero hn hlen⟩
  | succ i ih =>
    obtain ⟨k, u, hk, hruns, hu⟩ := ih (by omega)
    obtain ⟨hfsm, hch, -⟩ := hu.begun hi
    have hvisits : s.cfg.n * visitExchanges s.cfg = i * visitExchanges s.cfg +
        (visitExchanges s.cfg + (s.cfg.n - (i + 1)) * visitExchanges s.cfg) := by
      obtain ⟨m, hm⟩ := Nat.exists_eq_add_of_lt hi
      rw [hm, show i + m + 1 - (i + 1) = m by omega]
      ring
    rw [hvisits] at hgood
    have hvisit := hgood.split.2.split.1
    rw [← hu.answers] at hvisit
    obtain ⟨l, t, hl, hvisitRuns, hview, hanswers⟩ :=
      visit_passes (hs.congr hu.view) (by rw [hch, hu.cfg]; exact hi) hfsm (by rwa [hu.cfg])
    rw [hu.cfg] at hl hvisitRuns hanswers
    refine ⟨k + l, _, ?_, hruns.trans hvisitRuns, hu.next hn' hi hview hanswers⟩
    calc k + l ≤ 1 + 16 * (i * visitExchanges s.cfg) + 16 * visitExchanges s.cfg := Nat.add_le_add hk hl
      _ = 1 + 16 * ((i + 1) * visitExchanges s.cfg) := by ring

/-! ### Calibration, framing and the answer -/

/-- The state the packet of a CYCLE is encoded from (42 R163). -/
def State.calibrated (s : State) : State := { s.calibrate with phase := .encode }

/-- The end of a CYCLE of the host that stands at CYCLE_COMPLETE with nobody subscribed (42 R163, 44 R204). -/
def State.completed (s : State) : State :=
  { s with
    eng := .idle
    fsm := .idle
    phase := .calibrate
    resStatus := .ok
    resData := BitVec.ofNat 32 (4 * 256 + validMask (s.calibrate.chans.take s.cfg.n) % 256)
    hresValid := true
    hcmdValid := false
    ntfStatus := .notReady
    chans := s.calibrate.chans
    pkt := s.calibrated.encodePacket.pkt }

/-- The notify step of a CYCLE of the host with nobody subscribed completes it (42 R163, log 7). -/
theorem finishCycle_of_encoded (heng : s.eng = .host) :
    ({ s.calibrated.encodePacket with phase := .notify, ntfStatus := .notReady } : State).finishCycle =
      s.completed := by
  obtain ⟨p, hp⟩ := s.calibrated.encodePacket_pkt_only
  unfold State.finishCycle State.completed
  rw [State.complete_of_host (by simpa [State.calibrated] using heng), hp]
  rfl

/-- CYCLE_COMPLETE with nobody subscribed and no event to come is three engine steps (42 R163). -/
theorem drive_complete (hs : s.OnLine) (hfsm : s.fsm = .cycleComplete) (hphase : s.phase = .calibrate)
    (heng : s.eng = .host) (hsub : s.subscribed = false) (n : Nat) : drive cycleStep (n + 3) s = s.completed := by
  have hcal : RunsTo 1 s s.calibrated := by
    refine runsTo_of_go hs.quiet ((cycleStep_of_cycleComplete hfsm).trans ?_) rfl
    simp only [completeStep, hphase]
    rfl
  have henc : RunsTo 1 s.calibrated { s.calibrated.encodePacket with phase := .notify } :=
    runsTo_of_go hs.quiet (cycleStep_of_cycleComplete hfsm) (by simp)
  have hntf : cycleStep { s.calibrated.encodePacket with phase := .notify } = .done s.completed := by
    rw [cycleStep_of_cycleComplete (by simpa [State.calibrated] using hfsm), ← finishCycle_of_encoded heng]
    exact if_neg (by simpa [State.subscribed, State.calibrated] using hsub)
  rw [(hcal.trans henc) (n + 1), drive_done (by simp [State.eventDue, State.calibrated, hs.quiet]) hntf]
  exact State.elapse_of_no_events hs.quiet

/-- The mask of valid channels only (42 R163). -/
theorem validMask_of_all_valid {l : List Chan} (h : ∀ c ∈ l, c.valid = true) : validMask l = 2 ^ l.length - 1 := by
  induction l with
  | nil => rfl
  | cons c l ih =>
    have hpos : 0 < 2 ^ l.length := Nat.two_pow_pos _
    rw [validMask, ih fun d hd => h d (List.mem_cons_of_mem _ hd), h c List.mem_cons_self, List.length_cons, pow_succ,
      Bool.toNat_true]
    omega

theorem Chan.calibrate_valid (w : Nat) (scale : Int) (c : Chan) : (c.calibrate w scale).valid = c.valid := by
  unfold Chan.calibrate
  split <;> simp

/-- A CYCLE whose channels are all sampled answers the full mask with NotReady (42 R163). -/
theorem State.completed_resData (hn : s.cfg.n ≤ 8) (hlen : s.chans.length = s.cfg.n)
    (hvalid : ∀ i, i < s.cfg.n → (s.chan i).valid = true) :
    s.completed.resData.toNat = 4 * 256 + (2 ^ s.cfg.n - 1) := by
  have hlen' : s.calibrate.chans.length = s.cfg.n := by simpa using hlen
  have hall : ∀ c ∈ s.calibrate.chans, c.valid = true := by
    refine List.forall_mem_iff_getElem.2 fun i hi => ?_
    have hi' : i < s.cfg.n := hlen' ▸ hi
    have hchan : s.calibrate.chan i = s.calibrate.chans[i] := List.getD_eq_getElem _ _ hi
    rw [← hchan, State.chan_calibrate hlen hi', Chan.calibrate_valid, hvalid i hi']
  have hmask : validMask (s.calibrate.chans.take s.cfg.n) = 2 ^ s.cfg.n - 1 := by
    rw [List.take_of_length_le hlen'.le, validMask_of_all_valid hall, hlen']
  have hpow : 2 ^ s.cfg.n ≤ 2 ^ 8 := Nat.pow_le_pow_right (by omega) hn
  simp only [State.completed, hmask, BitVec.toNat_ofNat]
  omega

/-- The packet of a completed CYCLE is the encoded one, from the calibrated channels (44 R203, R211). -/
theorem State.completed_readsBack (hwf : Memory.wf pktDefault s.pkt = true) (hlen : s.chans.length = s.cfg.n) :
    consumerElapsed s.cfg.pktLe s.completed.packet = s.now.toNat % 65536 ∧
      ∀ i, i < s.cfg.n → s.completed.chan i = (s.chan i).calibrate s.cfg.w (chanScale s.cfg i) ∧
        consumerValue s.cfg.pktLe s.completed.packet i = (s.completed.chan i).packetValue := by
  have hcfg : s.calibrated.encodePacket.cfg = s.cfg := by simp [State.calibrated]
  have hpacket : s.completed.packet = s.calibrated.encodePacket.packet := by
    simp only [State.packet, State.pktLen, hcfg]
    rfl
  obtain ⟨htime, hvalues⟩ := State.encodePacket_readsBack (s := s.calibrated) hwf
  rw [hpacket]
  exact ⟨htime, fun i hi => ⟨State.chan_calibrate hlen hi, hvalues i hi⟩⟩

theorem sampleAt_append {l : List Answer} {k : Nat} (h : k + 2 < l.length) (rest : List Answer) :
    sampleAt (l ++ rest) k = sampleAt l k := by
  simp only [sampleAt, List.getD_append _ _ _ _ h, List.getD_append _ _ _ _ (show k + 1 < l.length by omega),
    List.getD_append _ _ _ _ (show k < l.length by omega)]

end WholeCycle

/-- Settles O43: the visits pass one after the other (`visits_pass`), and CYCLE_COMPLETE completes
(`drive_complete`) in a state where every channel is sampled. -/
theorem cycleCompletesEveryChannel : Obligations.CycleCompletesEveryChannel := by
  intro s ans rest hwf ⟨heng, hcs⟩ hfsm hsched hlen hpkt hm hline hsub hb hans hok
  obtain ⟨-, -, -, -, -, -, hn, -⟩ := cfg_wf_facts hwf
  have hs : s.OnLine := ⟨hwf, hm, hline, hcs, hsched⟩
  have hgood : GoodAnswers (s.cfg.n * visitExchanges s.cfg) s.busAnswers := by
    rw [hb, ← hans]
    exact ⟨by simp, by rwa [List.take_left]⟩
  obtain ⟨k, u, hk, hruns, hu⟩ := visits_pass hs hfsm hlen hgood le_rfl
  obtain ⟨hview, hcount, hanswers, hdone, -, -, hcomplete⟩ := hu
  obtain ⟨hfsm', hphase'⟩ := hcomplete rfl
  have hu := hs.congr hview
  simp only [State.cycleView, State.cycleFixed, State.eventRegs, Prod.mk.injEq] at hview
  obtain ⟨⟨⟨hcfg, hnow, hline', hconn, hntf, htick, -⟩, hsettle⟩, heng', hcs', hpkt', hsink, -⟩ := hview
  have hexec : exec .cycle s = .next u.completed := by
    have hfuel : s.fuel = s.fuel - k - 3 + 3 + k := by
      have henough := hgood.enough
      unfold State.fuel
      omega
    rw [exec_eq, runOperation_eq, hfuel]
    refine (hruns _).trans (drive_complete hu hfsm' hphase' (heng'.trans heng) ?_ _)
    rwa [State.subscribed, hconn, hntf]
  have hdata := State.completed_resData (s := u) (hcfg ▸ hn) (hcfg ▸ hcount) fun i hi => by
    rw [hdone i (hcfg ▸ hi)]
    rfl
  obtain ⟨htime, hchans⟩ := State.completed_readsBack (s := u) (hpkt' ▸ hpkt) (hcfg ▸ hcount)
  rw [hcfg] at hdata htime hchans
  rw [hnow] at htime
  refine ⟨_, hexec, rfl, rfl, hcs'.trans hcs, ?answers, rfl, hdata, rfl, rfl, rfl, hsink, fun i hi => ?channel, htime,
    hnow, hsettle, hconn, hntf, hline'.trans hline, htick⟩
  case answers =>
    refine hanswers.trans ?_
    rw [hb, ← hans, List.drop_left]
  case channel =>
    obtain ⟨hchan, hvalue⟩ := hchans i hi
    have hwithin : i * visitExchanges s.cfg + (visitExchanges s.cfg - 3) + 2 < ans.length := by
      have hvisits := Nat.mul_le_mul_right (visitExchanges s.cfg) hi
      rw [Nat.succ_mul] at hvisits
      have hvisit := visitExchanges_eq s.cfg
      omega
    refine ⟨?_, hvalue⟩
    rw [hchan, hdone i hi, State.sampled, hb, sampleAt_append hwithin]
    rfl

end Sys2Proof.Machine

/-! PROOFS. The statements of 43_calibration.md: TARE (R187) and its law (R192), the exact product (R182, R190), and
the ring buffer as a moving average (R184, R185). -/

namespace Sys2Proof.Machine

/-! ## TARE (43 R187, R192) -/

section Tare

variable {s t : State}

/-- TARE is one engine step, whoever asked for it. -/
theorem exec_tare (hcalm : s.calm 1 = true) : exec .tare s = .next (s.tareAll.complete .ok 0).elapse := by
  obtain ⟨n, hfuel⟩ := s.fuel_eq
  rw [exec_eq, runOperation_eq, hfuel]
  exact drive_done (State.not_eventDue_of_calm hcalm) rfl

theorem State.chan_tareAll (hlen : s.chans.length = s.cfg.n) {i : Nat} (hi : i < s.cfg.n) :
    s.tareAll.chan i = { s.chan i with offset := (s.chan i).raw } := by
  have hi' : i < s.chans.length := hlen ▸ hi
  simp [State.chan, hi, hi']

/-- Channel `i` after a TARE, whoever asked for it. -/
theorem chan_of_exec_tare (hlen : s.chans.length = s.cfg.n) (hcalm : s.calm 1 = true)
    (hexec : exec .tare s = .next t) {i : Nat} (hi : i < s.cfg.n) :
    t.chan i = { s.chan i with offset := (s.chan i).raw } := by
  rw [exec_tare hcalm] at hexec
  obtain rfl := Host.Outcome.next.inj hexec
  exact (State.chan_congr (by simp) (by simp) i).trans (State.chan_tareAll hlen hi)

end Tare

/-- Settles O32: the one engine step is `State.tareAll`, which writes the channels only, and the answer. -/
theorem tareEffect : Obligations.TareEffect := by
  intro s heng hlen hcalm
  refine ⟨_, exec_tare hcalm, fun i hi => chan_of_exec_tare hlen hcalm (exec_tare hcalm) hi, ?count, ?frame⟩
  case count => simp [hlen]
  case frame =>
    rw [State.complete_elapse_of_host (by simpa using heng), ← schedNearer_schedAfter, schedAfter_zero]
    rfl

/-! ## The exact product (43 R182, R190) -/

theorem Chan.calibrate_of_invalid {c : Chan} (h : c.valid = false) (w : Nat) (scale : Int) :
    c.calibrate w scale = c :=
  if_neg (by simp [h])

theorem Chan.calibrate_phys {c : Chan} (h : c.valid = true) (w : Nat) (scale : Int) :
    (c.calibrate w scale).phys = BitVec.ofInt 64 (c.diff * scale) := by
  simp [Chan.calibrate, h]

/-- A signed word of `n` bits is within half its range. -/
theorem abs_toInt_le {n : Nat} (x : BitVec n) : |x.toInt| ≤ 2 ^ (n - 1) :=
  abs_le.2 ⟨BitVec.le_toInt x, BitVec.toInt_lt.le⟩

/-- Settles O44: the product fits the 64 bits of `PHYS` (`Chan.Inv.product_toInt`). -/
theorem calibrationIsExact : Obligations.CalibrationIsExact := by
  intro w scale c hw hw' hc
  have hscale : |scale.toInt| ≤ 2147483648 := abs_toInt_le scale
  refine ⟨hc.calibrate hw hw' hscale, fun hvalid => ?_, fun hinvalid => Chan.calibrate_of_invalid hinvalid _ _⟩
  rw [Chan.calibrate_phys hvalid, hc.product_toInt hscale, Chan.diff]

/-- Settles O47: the offset that TARE left is the sample, and their difference is 0. -/
theorem tareThenSameSampleIsZero : Obligations.TareThenSameSampleIsZero := by
  intro s t i w scale c hlen hi hcalm hexec hoffset hraw hvalid
  have hdiff : c.diff = 0 := by
    rw [Chan.diff, hoffset, hraw, chan_of_exec_tare hlen hcalm hexec hi]
    exact sub_self _
  rw [Chan.calibrate_phys hvalid, hdiff, zero_mul]
  rfl

/-! ## The slots of a ring insert (43 R184) -/

section Ring

variable {w : Nat} {x : BitVec 64} {xs : List (BitVec 64)} {c : Chan}

/-- A ring insert writes the slot at `HEAD` only. -/
theorem Chan.Inv.ringInsert_slot (hc : c.Inv w) (k : Nat) :
    (c.ringInsert w x).slot k = if k = c.head.toNat then x.toInt else c.slot k := by
  have hhead : c.head.toNat < c.ring.length := hc.ringLength ▸ hc.headRange
  simp only [Chan.slot, Chan.ringInsert_ring, List.getD_eq_getElem?_getD]
  split
  · next hk => rw [hk, List.getElem?_set_self hhead, Option.getD_some]
  · next hk => rw [List.getElem?_set_ne (Ne.symm hk)]

/-! ## The moving average (43 R184, R185) -/

/-- The ring of `c` after the values `xs`, oldest first: each of the latest `W` stands in the slot of its number
modulo `W`, and `SUM` is theirs. -/
structure Chan.HoldsLatest (w : Nat) (xs : List (BitVec 64)) (c : Chan) : Prop where
  inv : c.Inv w
  head : c.head.toNat = xs.length % w
  cnt : c.cnt.toNat = min w xs.length
  slot : ∀ k (hk : k < xs.length), xs.length ≤ k + w → c.slot (k % w) = xs[k].toInt
  sum : c.sum.toInt = ((xs.drop (xs.length - w)).map BitVec.toInt).sum

theorem Chan.reset_holdsLatest (hw : 1 ≤ w) : (Chan.reset w).HoldsLatest w [] where
  inv := Chan.reset_inv hw
  head := (Nat.zero_mod w).symm
  cnt := (Nat.min_zero w).symm
  slot := nofun
  sum := by simp [Chan.reset]

/-- The values a full ring holds begin with the one at `HEAD`: the oldest. -/
theorem Chan.HoldsLatest.slot_head (h : c.HoldsLatest w xs) (hw : 1 ≤ w) (hfull : w ≤ xs.length) :
    c.slot c.head.toNat = (xs[xs.length - w]'(by omega)).toInt := by
  rw [h.head, Nat.mod_eq_sub_mod hfull]
  exact h.slot _ _ (by omega)

/-- Values fewer than `W` apart stand in different slots. -/
theorem mod_ne_of_lt_add {k n : Nat} (hkn : k < n) (hnk : n < k + w) : k % w ≠ n % w := by
  intro heq
  have hdvd : w ∣ n - k := (Nat.modEq_iff_dvd' hkn.le).1 heq
  have hle := Nat.le_of_dvd (by omega) hdvd
  omega

/-- The sum of the latest `W` values takes the new one and loses the one that is now too old. -/
theorem latest_sum_append (hw : 1 ≤ w) (xs : List (BitVec 64)) (x : BitVec 64) :
    (((xs ++ [x]).drop ((xs ++ [x]).length - w)).map BitVec.toInt).sum =
      ((xs.drop (xs.length - w)).map BitVec.toInt).sum + x.toInt -
        if hfull : w ≤ xs.length then (xs[xs.length - w]'(by omega)).toInt else 0 := by
  rw [List.length_append, List.length_singleton, List.drop_append_of_le_length (by omega)]
  split
  · next hfull =>
    rw [List.drop_eq_getElem_cons (i := xs.length - w) (by omega), ← Nat.sub_add_comm hfull]
    simp only [List.map_append, List.map_cons, List.map_nil, List.sum_append, List.sum_cons, List.sum_nil]
    ring
  · next hfree =>
    rw [Nat.sub_eq_zero_of_le (by omega), Nat.sub_eq_zero_of_le (by omega)]
    simp

/-- A ring insert drops the oldest of `W` values for the new one. -/
theorem Chan.HoldsLatest.ringInsert (h : c.HoldsLatest w xs) (hw : 1 ≤ w) (hw' : w ≤ 16)
    (hx : |x.toInt| ≤ physBound) : (c.ringInsert w x).HoldsLatest w (xs ++ [x]) where
  inv := h.inv.ringInsert hw hw' hx
  head := by
    rw [Chan.ringInsert_head_toNat hw hw', h.head, Nat.mod_add_mod, List.length_append, List.length_singleton]
  cnt := by
    rw [Chan.ringInsert_cnt_toNat hw', h.cnt, List.length_append, List.length_singleton]
    split <;> omega
  slot := by
    intro k hk hlatest
    rw [List.length_append, List.length_singleton] at hk hlatest
    rw [h.inv.ringInsert_slot, h.head]
    rcases Nat.lt_succ_iff_lt_or_eq.1 hk with hold | rfl
    · rw [if_neg (mod_ne_of_lt_add hold (by omega)), h.slot k hold (by omega), List.getElem_append_left hold]
    · simp
  sum := by
    rw [Chan.ringInsert_sum_toInt hw' h.inv hx, h.sum, latest_sum_append hw, h.cnt]
    congr 1
    split
    · next hfree =>
      have hlen : ¬ w ≤ xs.length := by omega
      rw [dif_neg hlen]
    · next hfull =>
      have hlen : w ≤ xs.length := by omega
      rw [dif_pos hlen, h.slot_head hw hlen]

theorem holdsLatest_foldl (hw : 1 ≤ w) (hw' : w ≤ 16) (hxs : ∀ x ∈ xs, |x.toInt| ≤ physBound) :
    (xs.foldl (fun c x => c.ringInsert w x) (Chan.reset w)).HoldsLatest w xs := by
  induction xs using List.reverseRecOn with
  | nil => exact Chan.reset_holdsLatest hw
  | append_singleton xs x ih =>
    rw [List.foldl_concat]
    exact (ih fun y hy => hxs y (by simp [hy])).ringInsert hw hw' (hxs x (by simp))

end Ring

/-- Settles O46, by the rules of a ring insert, register by register. -/
theorem ringInsertEvictsOldest : Obligations.RingInsertEvictsOldest := by
  intro w x c hw hw' hc hx
  have hslot := hc.ringInsert_slot (x := x)
  have hsum := Chan.ringInsert_sum_toInt hw' hc hx
  refine ⟨hc.ringInsert hw hw' hx, Chan.ringInsert_head_toNat hw hw', (hslot _).trans (if_pos rfl),
    fun k hk => (hslot k).trans (if_neg hk), fun hfree => ⟨?sum, ?cnt⟩, fun hfull => ?full⟩
  case sum => rw [hsum, if_pos hfree, sub_zero]
  case cnt => rw [Chan.ringInsert_cnt_toNat hw', if_pos hfree]
  case full =>
    have hnot : ¬ c.cnt.toNat < w := hfull.not_lt
    rw [hsum, Chan.ringInsert_cnt, if_neg hnot, if_neg hnot]
    exact ⟨rfl, rfl⟩

/-- Settles O45: the ring holds the latest values after every list of inserts (`holdsLatest_foldl`). -/
theorem movingAverageHoldsLatest : Obligations.MovingAverageHoldsLatest := by
  intro w xs hw hw' hxs
  have hholds := holdsLatest_foldl hw hw' hxs
  exact ⟨hholds.cnt, hholds.sum⟩

end Sys2Proof.Machine

/-! PROOFS. The statements of 44_telemetry.md: the subscriber events (R205 to R208), the packet as its consumer
reads it (R200 to R203, R211, R213), and the notify step (R204) with the end of the CYCLE (42 R163). -/

namespace Sys2Proof.Machine

/-! ## The subscriber events (44 R205 to R208) -/

/-- `connect` sets CONNECTED, which it may already find set (44 R205). -/
theorem State.connect_eq (s : State) : s.connect = { s with connected := true } := by
  unfold State.connect
  split
  · next hconn => rw [← hconn]
  · rfl

/-- `subscribe` is taken only while connected (44 R207). -/
theorem State.subscribe_eq (s : State) :
    s.subscribe = { s with notifyEn := if s.connected then true else s.notifyEn } := by
  unfold State.subscribe
  split <;> rfl

/-- Settles O18: the step is the event (`step_of_due`). -/
theorem subscriberEventsMoveFlags : Obligations.SubscriberEventsMoveFlags := by
  intro s es hwf
  refine ⟨fun hs => ?connect, fun hs => ?disconnect, fun hs => ?subscribe, fun hs => ?unsubscribe⟩
  case connect => rw [step_of_due hwf hs, applyEvent, State.connect_eq]
  case disconnect => exact step_of_due hwf hs
  case subscribe => rw [step_of_due hwf hs, applyEvent, State.subscribe_eq]
  case unsubscribe => exact step_of_due hwf hs

/-! ## The packet value (44 R200) -/

/-- The packet value with the denominator of `PHYS` and the empty buffer written out (44 R200, 43 R180). -/
theorem Chan.packetValue_eq (c : Chan) :
    c.packetValue = clamp16 (if c.cnt.toNat = 0 then 0 else rha (10 * c.sum.toInt) (c.cnt.toNat * 2147483392)) := by
  have hempty : c.cnt = 0 ↔ c.cnt.toNat = 0 := BitVec.toNat_inj.symm
  simp only [Chan.packetValue, Chan.scaledTenths, physDen, hempty]

theorem State.packet_length (s : State) : s.packet.length = 2 * s.cfg.n + 2 := by
  simp [State.packet, State.pktLen]

/-- Settles O10: the fields read back (`State.encodePacket_readsBack`), and each is a clamped value. -/
theorem packetReadsBackByConsumer : Obligations.PacketReadsBackByConsumer := by
  intro s _ hwf
  obtain ⟨htime, hvalues⟩ := State.encodePacket_readsBack hwf
  refine ⟨htime, fun i hi => ?channel, ?length⟩
  case channel =>
    obtain ⟨hlow, hhigh⟩ := clamp16_range (s.chan i).scaledTenths
    exact ⟨(hvalues i hi).trans (s.chan i).packetValue_eq, hvalues i hi, hlow, hhigh⟩
  case length => simp [State.packet_length]

/-! ## The data word of a host CYCLE (42 R163) -/

/-- Bit `k` of the valid mask is `VALID` of the channel at `k`. -/
theorem validMask_testBit (l : List Chan) (k : Nat) :
    (validMask l).testBit k = (l.map Chan.valid).getD k false := by
  induction l generalizing k with
  | nil => simp [validMask]
  | cons c l ih =>
    have hbit : validMask (c :: l) = Nat.bit c.valid (validMask l) := by
      rw [validMask, Nat.bit_val, Nat.add_comm]
    rw [hbit]
    cases k with
    | zero => simp
    | succ k => rw [Nat.testBit_bit_succ, ih, List.map_cons, List.getD_cons_succ]

/-- The data word holds zeros, the notify status and the valid mask, from the highest bit down. -/
theorem State.cycleData_eq_append (s : State) :
    s.cycleData = 0#21 ++ statusCode s.ntfStatus ++ BitVec.ofNat 8 (validMask (s.chans.take s.cfg.n)) := by
  have hcode := (statusCode s.ntfStatus).isLt
  refine BitVec.eq_of_toNat_eq ?_
  rw [State.cycleData, BitVec.toNat_append, BitVec.toNat_append, BitVec.toNat_zero, BitVec.toNat_ofNat,
    BitVec.toNat_ofNat, ← Nat.shiftLeft_add_eq_or_of_lt (Nat.mod_lt _ (Nat.two_pow_pos 8)), Nat.zero_shiftLeft,
    Nat.zero_or, Nat.shiftLeft_eq]
  omega

theorem State.cycleData_status (s : State) : s.cycleData.extractLsb' 8 3 = statusCode s.ntfStatus := by
  rw [State.cycleData_eq_append, BitVec.extractLsb'_append_eq_of_le le_rfl,
    BitVec.extractLsb'_append_eq_of_add_le (by omega), BitVec.extractLsb'_eq_self]

theorem State.cycleData_rest (s : State) : s.cycleData.extractLsb' 11 21 = 0 := by
  rw [State.cycleData_eq_append, BitVec.extractLsb'_append_eq_of_le (by omega), BitVec.extractLsb'_append_eq_left]
  rfl

/-- The low byte is the valid mask: `VALID` of each channel, and 0 above them. -/
theorem State.cycleData_mask {s : State} (hlen : s.chans.length = s.cfg.n) {k : Nat} (hk : k < 8) :
    s.cycleData.getLsbD k = if k < s.cfg.n then (s.chan k).valid else false := by
  have hall : s.chans.take s.cfg.n = s.chans := List.take_of_length_le hlen.le
  rw [State.cycleData_eq_append, BitVec.getLsbD_append, if_pos hk, BitVec.getLsbD_ofNat, hall, validMask_testBit]
  split
  · next hchan =>
    have hchan' : k < s.chans.length := hlen ▸ hchan
    simp [State.chan, hk, hchan']
  · next hnone =>
    have hnone' : s.chans.length ≤ k := by omega
    simp [hnone']

/-! ## The notify step (44 R204) -/

section Notify

variable {s t : State}

theorem schedAfter_one (l : List Scheduled) : schedAfter 1 l = schedNearer l := by
  rw [← schedNearer_schedAfter, schedAfter_zero]

/-- A due event is what a waiting engine waits for. -/
theorem State.hasten_of_eventDue (h : s.eventDue = true) : s.hasten = s := by
  have hsched : schedDue s.sched = s.sched := by
    cases hs : s.sched with
    | nil => rfl
    | cons e es =>
      have hdelay : e.delay = 0 := by simpa [State.eventDue, hs] using h
      rw [schedDue, ← hdelay]
  rw [State.hasten, hsched]

/-- An operation that must wait leaves the next event due, whether or not it was already. -/
theorem drive_of_wait {f : State → EngineStep} (hf : f s = .wait) (n : Nat) : drive f (n + 1) s = s.hasten := by
  cases hdue : s.eventDue with
  | true => rw [drive_due f _ s hdue, State.hasten_of_eventDue hdue]
  | false => exact drive_wait hdue hf

/-- The loop of a CYCLE has fuel for the notify step and a wait after it. -/
theorem exec_cycle_eq_drive (s : State) : ∃ n, exec .cycle s = .next (drive cycleStep (n + 2) s) :=
  ⟨16 * s.busAnswers.length + 30, by rw [exec_eq, runOperation, State.fuel, Nat.mul_add]; rfl⟩

/-- A CYCLE in its completing step. -/
theorem exec_cycle_of_done (hcalm : s.calm 1 = true) (hf : cycleStep s = .done t) :
    exec .cycle s = .next t.elapse := by
  obtain ⟨n, hexec⟩ := exec_cycle_eq_drive s
  rw [hexec, drive_done (State.not_eventDue_of_calm hcalm) hf]

/-- The send, made now or before, is answered: the CYCLE completes (10 R24). -/
theorem exec_cycle_of_answered {ok : Bool} {rest : List Bool} (hfsm : s.fsm = .cycleComplete)
    (hcalm : s.calm 1 = true) (hsend : s.phase = .notify ∧ s.subscribed = true ∨ s.phase = .sending)
    (hans : s.sinkAnswers = ok :: rest) : exec .cycle s = .next (s.sinkSend ok).finishCycle.elapse := by
  refine exec_cycle_of_done hcalm ((cycleStep_of_cycleComplete hfsm).trans ?_)
  rcases hsend with ⟨hphase, hsub⟩ | hphase
  · simp only [completeStep, hphase, notifyStep, hsub, if_true, hans]
  · simp only [completeStep, hphase, sinkAnswerStep, hans]

/-- Nobody is subscribed: the CYCLE completes without a send. -/
theorem exec_cycle_of_unsubscribed (hfsm : s.fsm = .cycleComplete) (hcalm : s.calm 1 = true)
    (hphase : s.phase = .notify) (hsub : s.subscribed = false) :
    exec .cycle s = .next (State.finishCycle { s with ntfStatus := .notReady }).elapse := by
  refine exec_cycle_of_done hcalm ((cycleStep_of_cycleComplete hfsm).trans ?_)
  simp [completeStep, hphase, notifyStep, hsub]

/-- A send that has been made and is not answered has no step (93 U15). -/
theorem cycleStep_of_sending (hfsm : s.fsm = .cycleComplete) (hphase : s.phase = .sending)
    (hans : s.sinkAnswers = []) : cycleStep s = .wait := by
  simp only [cycleStep_of_cycleComplete hfsm, completeStep, hphase, sinkAnswerStep, hans]

theorem exec_cycle_of_sending (hfsm : s.fsm = .cycleComplete) (hphase : s.phase = .sending)
    (hans : s.sinkAnswers = []) : exec .cycle s = .next { s with sched := schedDue s.sched } := by
  obtain ⟨n, hexec⟩ := exec_cycle_eq_drive s
  rw [hexec, drive_of_wait (cycleStep_of_sending hfsm hphase hans), State.hasten]

/-- The request of a send that is not answered is an engine step, and then the CYCLE waits (log 24). -/
theorem exec_cycle_of_request (hfsm : s.fsm = .cycleComplete) (hcalm : s.calm 1 = true)
    (hphase : s.phase = .notify) (hsub : s.subscribed = true) (hans : s.sinkAnswers = []) :
    exec .cycle s = .next { s with phase := .sending, sched := schedDue (schedAfter 1 s.sched) } := by
  have hrequest : cycleStep s = .go { s with phase := .sending } := by
    simp only [cycleStep_of_cycleComplete hfsm, completeStep, hphase, notifyStep, hsub, if_true, hans]
  have hwait : cycleStep (State.elapse { s with phase := .sending }) = .wait := cycleStep_of_sending hfsm rfl hans
  obtain ⟨n, hexec⟩ := exec_cycle_eq_drive s
  rw [hexec, drive_go (State.not_eventDue_of_calm hcalm) hrequest, drive_of_wait hwait, schedAfter_one]
  rfl

/-- What completion reads and writes and the notify step leaves alone. -/
def State.responseRegs (s : State) := (s.cfg, s.eng, s.chans, s.resStatus, s.resData, s.hresValid, s.hcmdValid)

/-- Where the notify step leads: the CYCLE completes, or its requester keeps the engine. -/
theorem exec_cycle_of_notify_cases (hfsm : s.fsm = .cycleComplete) (hcalm : s.calm 1 = true)
    (hphase : s.phase = .notify ∨ s.phase = .sending) :
    (∃ u : State, exec .cycle s = .next u.finishCycle.elapse ∧ u.responseRegs = s.responseRegs) ∨
    (∃ t, exec .cycle s = .next t ∧ t.eng = s.eng) := by
  rcases hphase with hphase | hphase
  case inl =>
    cases hsub : s.subscribed with
    | false => exact .inl ⟨_, exec_cycle_of_unsubscribed hfsm hcalm hphase hsub, rfl⟩
    | true =>
      cases hans : s.sinkAnswers with
      | nil => exact .inr ⟨_, exec_cycle_of_request hfsm hcalm hphase hsub hans, rfl⟩
      | cons ok rest => exact .inl ⟨_, exec_cycle_of_answered hfsm hcalm (.inl ⟨hphase, hsub⟩) hans, rfl⟩
  case inr =>
    cases hans : s.sinkAnswers with
    | nil => exact .inr ⟨_, exec_cycle_of_sending hfsm hphase hans, rfl⟩
    | cons ok rest => exact .inl ⟨_, exec_cycle_of_answered hfsm hcalm (.inr hphase) hans, rfl⟩

/-- A tick CYCLE completes without an answer (40 R103). -/
theorem State.finishCycle_of_tick (h : s.eng = .tick) :
    s.finishCycle = { s with eng := .idle, fsm := .idle, phase := .calibrate } := by
  rw [State.finishCycle, State.complete_of_tick (s := { s with fsm := .idle, phase := .calibrate }) h]

/-- A host CYCLE completes with OK and the data word (42 R163). -/
theorem State.finishCycle_of_host (h : s.eng = .host) :
    s.finishCycle = { s.respond .ok s.cycleData with eng := .idle, fsm := .idle, phase := .calibrate } := by
  rw [State.finishCycle, State.complete_of_host (s := { s with fsm := .idle, phase := .calibrate }) h]
  rfl

end Notify

/-- Settles O42: the CYCLE completes with `State.finishCycle` or waits for the answer of its one send, and the
answer of a host CYCLE is its data word bit by bit. -/
theorem notifyGateEndsCycle : Obligations.NotifyGateEndsCycle := by
  intro s ok rest hn hlen hfsm hcalm
  refine ⟨fun hsend hans => ?sent, fun hphase hclosed => ?closed, fun hphase hconn hntf hans => ?request,
    fun hphase hans => exec_cycle_of_sending hfsm hphase hans, fun t hphase hexec hidle => ?response⟩
  case sent =>
    have hsend' : s.phase = .notify ∧ s.subscribed = true ∨ s.phase = .sending := by
      simpa [State.subscribed] using hsend
    exact ⟨_, exec_cycle_of_answered hfsm hcalm hsend' hans, by simp [hans]⟩
  case closed =>
    have hsub : s.subscribed = false := Bool.and_eq_false_iff.2 hclosed
    exact ⟨_, exec_cycle_of_unsubscribed hfsm hcalm hphase hsub, by simp⟩
  case request => exact exec_cycle_of_request hfsm hcalm hphase (Bool.and_eq_true_iff.2 ⟨hconn, hntf⟩) hans
  case response =>
    rcases exec_cycle_of_notify_cases hfsm hcalm hphase with ⟨u, hdone, hu⟩ | ⟨u, hwaits, hheld⟩
    case inr =>
      obtain rfl := Host.Outcome.next.inj (hexec.symm.trans hwaits)
      simp [← hheld, hidle]
    obtain rfl := Host.Outcome.next.inj (hexec.symm.trans hdone)
    simp only [State.responseRegs, Prod.mk.injEq] at hu
    obtain ⟨hcfg, heng, hchans, hstatus, hdata, hres, hcmd⟩ := hu
    have hmask : ∀ k, k < 8 → u.cycleData.getLsbD k = if k < s.cfg.n then (s.chan k).valid else false := by
      intro k hk
      rw [State.cycleData_mask (by rw [hchans, hcfg, hlen]) hk, hcfg, State.chan_congr hcfg hchans]
    refine ⟨fun htick => ?tick, fun hhost => ?host⟩
    case tick =>
      rw [State.finishCycle_of_tick (heng.trans htick)]
      exact ⟨hstatus, hdata, hres, hcmd⟩
    case host =>
      rw [State.finishCycle_of_host (heng.trans hhost)]
      refine ⟨rfl, rfl, rfl, fun k hk => ?_, fun k hk hk' => ?_, u.cycleData_status, u.cycleData_rest⟩
      · exact (hmask k (by omega)).trans (if_pos hk)
      · exact (hmask k hk').trans (if_neg hk.not_gt)

end Sys2Proof.Machine

/-! PROOFS. The statements of 60_exceptions.md: an exchange never answered (R235, 93 U15), the next state of every
sequenced state (R226, R230), and the codes of the enumerated registers (R220). -/

namespace Sys2Proof.Machine

/-! ## An exchange never answered (60 R235, 93 U15) -/

section Unanswered

variable {s : State} {i : Instr}

/-- Every frame has at least one exchange. -/
theorem hostFrame_length_pos {frame : Frame} (hframe : hostFrame s i = some frame) : 0 < frame.length := by
  cases i with
  | reset | start | stop => cases hframe; exact Nat.one_pos
  | rdata => cases hframe; rw [rdataFrame_length]; omega
  | rreg _ | wreg _ _ | setmux _ _ | setgain _ | setrate _ | setref _ =>
    obtain ⟨-, rfl⟩ := of_ite_some hframe
    exact Nat.succ_pos _
  | cycle | tare => cases hframe

/-- A selected command cycle with an exchange to make and no answer to it has no step (93 U15). -/
theorem frameStep_of_unanswered {frame : Frame} (finish : Status → List Byte → State → EngineStep)
    (hcs : s.cs = true) (hfailed : s.xferFailed = false) (hidx : s.byteIdx.toNat < frame.length)
    (hb : s.busAnswers = []) : frameStep frame finish s = .wait := by
  simp [frameStep, hcs, hfailed, hidx, hb]

/-- A command cycle with no answer to come selects, and then waits for the answer to its first exchange. -/
theorem drive_frame_unanswered {f : State → EngineStep} {frame : Frame}
    {finish : Status → List Byte → State → EngineStep} (hf : RunsFrame f frame finish s) (hcs : s.cs = false)
    (hpos : 0 < frame.length) (hlen : frame.length ≤ 6) (hb : s.busAnswers = []) (hcalm : s.calm 1 = true)
    (n : Nat) : drive f (n + 2) s = (s.midCycle frame [] false).hasten := by
  have hselect := drive_exchanges hf hcs hlen (n + 1) [] [] hb (Nat.zero_le _) (by simp) hcalm
  have hwait : f (s.midCycle frame [] false) = .wait :=
    (hf _ _ _ _ _ _ _).trans (frameStep_of_unanswered finish rfl rfl hpos (by simp [hb]))
  exact hselect.trans (drive_of_wait hwait n)

end Unanswered

/-- Settles O31: the command cycle of the operation selects and waits (`drive_frame_unanswered`). -/
theorem unansweredExchangeWaits : Obligations.UnansweredExchangeWaits := by
  rintro s i frame ⟨-, hcs⟩ hwf hframe hb hcalm
  obtain ⟨-, -, -, -, hdummy, -⟩ := cfg_wf_facts hwf
  obtain ⟨n, hfuel⟩ := s.fuel_of_answers (k := 2) (by omega)
  rw [exec_eq, runOperation_eq, hfuel,
    drive_frame_unanswered (runsFrame_of_hostFrame (helperLegal_of_wf hwf i) hframe) hcs
      (hostFrame_length_pos hframe) (hostFrame_length_le hdummy hframe) hb hcalm]
  simp [State.midCycle, State.hasten, keptBytes, exchanges]

/-! ## Every sequenced state has a next one (60 R226, R230) -/

section NextState

variable {s : State}

/-- An operation always has a next state, one that waits too (log 8). -/
theorem exec_has_next (i : Instr) (s : State) : ∃ t, exec i s = .next t :=
  ⟨_, exec_eq i s⟩

/-- The only event the model refuses is a word presented over an outstanding one (10 R20, log 9). -/
theorem applyEvent_has_next {e : Event} (h : ∀ w, e = .hostWord w → s.hcmdValid = false) :
    ∃ t, applyEvent e s = .next t := by
  cases e with
  | hostWord w => exact ⟨s.present w, by simp [applyEvent, h w rfl]⟩
  | drdyChange _ | msTick | tick | connect | disconnect | subscribe | unsubscribe | rst => exact ⟨_, rfl⟩

/-- An idle engine accepts a tick or a word, or waits (40 R101, R102). -/
theorem runIdle_has_next (s : State) : ∃ t, runIdle s = .next t := by
  by_cases hheld : s.settleCnt ≠ 0
  · exact ⟨_, runIdle_of_wait (.inl hheld)⟩
  have hsettle : s.settleCnt = 0 := not_not.1 hheld
  cases htick : s.tickPend with
  | true => rw [runIdle_of_tick hsettle htick]; exact exec_has_next _ _
  | false =>
    cases hword : s.hcmdValid with
    | false => exact ⟨_, runIdle_of_wait (.inr ⟨htick, hword⟩)⟩
    | true =>
      rw [runIdle_of_word hsettle htick hword]
      cases hi : decodeWord s.hcmdWord with
      | none => exact ⟨_, runHostWord_of_illegal hi⟩
      | some i => rw [runHostWord_of_legal hi]; exact exec_has_next _ _

/-- A due event is the head of the schedule. -/
theorem State.sched_of_eventDue (h : s.eventDue = true) : ∃ e es, s.sched = ⟨0, e⟩ :: es := by
  unfold State.eventDue at h
  split at h
  · next e es hs => exact ⟨e.event, es, by rw [hs, ← beq_iff_eq.1 h]⟩
  · cases h

end NextState

/-- Settles O58, by whose turn it is: a due event's, an idle engine's, or that of the operation in progress, whose
word is legal (`State.SequenceInv.busyWord`). -/
theorem sequencedStatesAlwaysStep : Obligations.SequencedStatesAlwaysStep := by
  intro s hs hport
  cases hdue : s.eventDue with
  | true =>
    obtain ⟨e, es, hsched⟩ := State.sched_of_eventDue hdue
    rw [step_of_due hs.cfgOk hsched]
    exact applyEvent_has_next fun w he => hport w es (he ▸ hsched)
  | false =>
    by_cases hidle : s.eng = .idle
    case pos => rw [step_of_idle hs.cfgOk hdue hidle]; exact runIdle_has_next _
    case neg =>
      obtain ⟨i, hi⟩ := Option.isSome_iff_exists.1 (hs.busyWord hidle)
      rw [stepResumesOperation s i hs.cfgOk hdue hidle hi]
      exact exec_has_next _ _

/-! ## The codes of the enumerated registers (60 R220, 10 R26, R27) -/

/-- Status codes 6 and 7 are never produced (60 R220). -/
theorem statusCode_le (st : Status) : (statusCode st).toNat ≤ 5 := by
  cases st <;> decide

/-- `ENG = 3` is never produced (10 R26). -/
theorem engCode_le (e : Eng) : (engCode e).toNat ≤ 2 := by
  cases e <;> decide

/-- `FSM` 6 and 7 are never produced (10 R27). -/
theorem fsmCode_le (f : Fsm) : (fsmCode f).toNat ≤ 5 := by
  cases f <;> decide

/-- Settles O60: the lists are the codes in order, and each code is bounded by its last one. -/
theorem registerEncodings : Obligations.RegisterEncodings :=
  ⟨⟨rfl, statusCode_le⟩, ⟨rfl, engCode_le⟩, ⟨rfl, fsmCode_le⟩⟩

end Sys2Proof.Machine
